-- ==== Sys2Proof/Word.lean ====
section
/-! DEFINITION. The machine's word types (spec/00_scope.md R10): bytes on the wire, 16-bit pixel and
coordinate words, single line levels. -/

namespace Sys2Proof

/-- A u8: one byte of a command, a payload or a pixel stream. -/
abbrev Byte := BitVec 8

/-- A u16: a Color565 word or a panel coordinate. -/
abbrev Word := BitVec 16

/-- One bit: the level of a GPIO line. -/
abbrev Bit := BitVec 1

end Sys2Proof
end

