-- ==== Sys2Proof/Config.lean ====
section
/-! DEFINITION. The configuration record `CFG` (spec/00_scope.md R6), the shape of an answer of the
environment (spec/60_exceptions.md R138), and the free values: constants with no body, one for each value
the spec leaves open, so that nothing can be proved about what they are. -/

namespace Sys2Proof

/-- One entry of `PANEL_INIT_TABLE` (R6, R61): an opcode, its payload, and a delay after the command. -/
structure PanelEntry where
  op      : Byte
  payload : List Byte
  delayMs : Nat
  deriving DecidableEq, Repr, Inhabited

/-- `MADCTL_ROT`, one byte for each of the four rotation codes (R6, R54, R63). -/
structure RotTable where
  deg0   : Byte
  deg90  : Byte
  deg180 : Byte
  deg270 : Byte
  deriving DecidableEq, Repr, Inhabited

/-- The configuration record `CFG` (R6). R18: each field is a read-only configuration register. -/
structure Cfg where
  panelW         : Word
  panelH         : Word
  colOffset      : Word
  rowOffset      : Word
  rotation       : BitVec 2
  invert         : Bool
  spiPath        : String
  spiMode        : Nat
  spiBits        : Nat
  spiSpeedHz     : Nat
  gpioChip       : String
  dcLine         : Nat
  rstLine        : Nat
  blLine         : Option Nat
  maxXfer        : Nat
  tileW          : Nat
  tileH          : Nat
  colmodValue    : Byte
  madctlRot      : RotTable
  bgrMask        : Byte
  panelInitTable : List PanelEntry
  dcCmdLevel     : Bit
  blOnLevel      : Bit
  clearColor     : Word
  tSwresetMs     : Nat
  tSlpoutMs      : Nat
  tDisponMs      : Nat
  labelDc        : String
  labelRst       : String
  labelBl        : String
  deriving DecidableEq, Repr, Inhabited

/-- The reference configuration of R6 (the column "reference value used in vectors") for a given panel size. -/
def Cfg.reference (w h : Word) : Cfg where
  panelW := w
  panelH := h
  colOffset := 0
  rowOffset := 0
  rotation := 0
  invert := false
  spiPath := "/dev/spidev0.0"
  spiMode := 0
  spiBits := 8
  spiSpeedHz := 32000000
  gpioChip := "gpiochip0"
  dcLine := 24
  rstLine := 25
  blLine := none
  maxXfer := 4096
  tileW := 8
  tileH := 8
  colmodValue := 0x05
  madctlRot := ⟨0x00, 0x20, 0xC0, 0xE0⟩
  bgrMask := 0x00
  panelInitTable := []
  dcCmdLevel := 0
  blOnLevel := 1
  clearColor := 0x0000
  tSwresetMs := 150
  tSlpoutMs := 120
  tDisponMs := 0
  labelDc := "dc"
  labelRst := "rst"
  labelBl := "bl"

/-- R8: the minimum waits of the reset pulse are constants, not parameters. -/
def tRstHigh1Ms : Nat := 10
/-- R8. -/
def tRstLowMs : Nat := 20
/-- R8. -/
def tRstHigh2Ms : Nat := 120

/-- One draw of the environment oracle (R138), in a form that answers any event. `good v`: an open yields
the handle `v`, a write takes every byte, a line setting is `Ok`. `short n`: a write takes `min n len` bytes
(R12: 0 ≤ n ≤ len); an open or a setting is `Err`. `bad`: `Err`. Every answer R138 allows is one of these. -/
inductive Answer where
  | good (v : Nat)
  | short (n : Nat)
  | bad
  deriving DecidableEq, Repr, Inhabited

/-! ### Free values (the model's own device for what the spec leaves open) -/

/-- The environment's answer to the event numbered `k`, when State's list of answers has run out (R138, U9). -/
opaque Config.freeAnswer : Nat → Answer

/-- The word a frame-buffer pixel holds that the host has never written (R33; the spec gives no contents). -/
opaque Config.freeFbWord : Nat → Word

/-- An unknown range of the panel's address window: draw `k`, position `j`, slot 0 for columns and 1 for rows
(U1, U5). -/
opaque Config.freeRange : Nat → Nat → Nat → Option (Word × Word)

/-- An unknown panel write pointer: draw `k`, position `j` (R113, U1, U5, U6). -/
opaque Config.freePtr : Nat → Nat → Option (Word × Word)

/-- Unknown contents of the panel's GRAM: draw `k`, position `j` (U1, U5). -/
opaque Config.freeCells : Nat → Nat → List ((Word × Word) × Word)

/-- The unknown current command byte of a panel whose state is unknown (U1). -/
opaque Config.freeCmd : Nat → Option Byte

/-- The unknown collected data bytes of a panel whose state is unknown (U1). -/
opaque Config.freeBytes : Nat → List Byte

end Sys2Proof
end

