-- ==== Sys2Proof/Syntax.lean ====
section
/-! DEFINITION. The instructions: one constructor for each row of spec/opcode_table.json. The first sixteen
are the host operations of R52, the last eleven the wire commands of R59 and R61, which the block's own operations
come to. -/

namespace Sys2Proof

inductive Instr where
  /-- 0x0, R116. -/
  | init
  /-- 0x1, R109: the pixel list may have any length (R53). -/
  | pushRect (x y w h : Word) (pixels : List Word)
  /-- 0x2, R110. -/
  | pushRectSolid (x y w h : Word) (color : Word)
  /-- 0x3, R119: a rotation code (R54). -/
  | setRotation (r : BitVec 2)
  /-- 0x4, R120. -/
  | setBacklight (on : Bool)
  /-- 0x5, R121. -/
  | dispose
  /-- 0x6, R82: two's-complement operands (R53). -/
  | markDirtyRect (x y w h : BitVec 32)
  /-- 0x7, R84. -/
  | markAll
  /-- 0x8, R85. -/
  | flush
  /-- 0x9, R74. -/
  | pack565 (r g b : Byte)
  /-- 0xA, R75. -/
  | pack565a (r g b a : Byte)
  /-- 0xB, R76. -/
  | unpack565 (c : Word)
  /-- 0xC, R78. -/
  | blend565 (src dst : Word) (alpha : Byte)
  /-- 0xD, R80. -/
  | modulate565 (a b : Word)
  /-- 0xE, R123. -/
  | reservedE
  /-- 0xF, R123. -/
  | reservedF
  /-- Wire 0x01, R96. -/
  | swreset
  /-- Wire 0x11, R97. -/
  | slpout
  /-- Wire 0x3A, R98: its payload byte is `CFG.COLMOD_VALUE`. -/
  | colmod
  /-- Wire 0x2A, R99: absolute start and inclusive end column. -/
  | caset (xs xe : Word)
  /-- Wire 0x2B, R100: absolute start and inclusive end row. -/
  | raset (ys ye : Word)
  /-- Wire 0x36, R101: its payload byte is `MADCTL_ROT[r] | BGR_MASK`. -/
  | madctl (r : BitVec 2)
  /-- Wire 0x2C, R102: its payload is the big-endian pixel stream. -/
  | ramwr (pixels : List Word)
  /-- Wire 0x21, R103. -/
  | invon
  /-- Wire 0x20, R104. -/
  | invoff
  /-- Wire 0x29, R105. -/
  | dispon
  /-- Any wire opcode, R106: an entry of the panel table, with its payload and the delay after it. -/
  | panelCmd (op : Byte) (payload : List Byte) (delayMs : Nat)
  deriving DecidableEq, Repr, Inhabited

/-- Where a record is presented. `host`: the host operation port of R52. `framer`: the framer's own command
input, where a wire command's opcode byte stands first (R17, R59). `table d`: an entry of
`PANEL_INIT_TABLE`, opcode first, with its delay `d` beside the bytes (R61). -/
inductive Port where
  | host
  | framer
  | table (delayMs : Nat)
  deriving DecidableEq, Repr, Inhabited

/-- One encoded instruction: a port and the bytes presented on it (R52, R58). -/
structure Record where
  port  : Port
  bytes : List Byte
  deriving DecidableEq, Repr, Inhabited

end Sys2Proof
end

