-- ==== Sys2Proof/WellFormed.lean ====
section
/-! DEFINITION. The static checks: a well-formed configuration (spec/00_scope.md R9 over the legal values of
R6, with D9's constraints on `MADCTL_ROT`), and a well-formed instruction (R61's payload limit; every other
operand is in range by its type). -/

namespace Sys2Proof

/-- R6, R61: a payload is at most 65535 bytes long. -/
def payloadFits (payload : List Byte) : Bool := payload.length ≤ 65535

/-- R6: a size or a tile edge is 1..65535. -/
def sizeLegal (n : Nat) : Bool := 1 ≤ n && n ≤ 65535

/-- D31: `SPI_BITS` is 8. -/
def Cfg.spiBitsLegal (c : Cfg) : Bool := c.spiBits == 8

/-- D8: `MAX_XFER` ≥ 1. -/
def Cfg.maxXferLegal (c : Cfg) : Bool := 1 ≤ c.maxXfer

/-- D10: `COLMOD_VALUE` is 0x05 or 0x55. -/
def Cfg.colmodLegal (c : Cfg) : Bool := c.colmodValue == 0x05 || c.colmodValue == 0x55

/-- D9: `BGR_MASK` is 0x00 or 0x08. -/
def Cfg.bgrLegal (c : Cfg) : Bool := c.bgrMask == 0x00 || c.bgrMask == 0x08

/-- D9, with R63's bit positions (MY = 7, MX = 6, MV = 5): 0° has none of the three set, 90° has MV, 180° has
both mirrors and no MV, 270° has MV and at least one mirror. -/
def RotTable.legal (t : RotTable) : Bool :=
  (t.deg0 &&& 0xE0) == 0x00
    && (t.deg90 &&& 0x20) == 0x20
    && (t.deg180 &&& 0xE0) == 0xC0
    && (t.deg270 &&& 0x20) == 0x20 && (t.deg270 &&& 0xC0) != 0x00

/-- R9: the configured GPIO lines are pairwise distinct. -/
def Cfg.linesDistinct (c : Cfg) : Bool :=
  c.dcLine != c.rstLine && c.blLine != some c.dcLine && c.blLine != some c.rstLine

/-- R9: every payload of the panel table is short enough. -/
def Cfg.tableLegal (c : Cfg) : Bool := c.panelInitTable.all fun e => payloadFits e.payload

/-- R9: the configuration is well formed. -/
def Cfg.wf (c : Cfg) : Bool :=
  sizeLegal c.panelW.toNat && sizeLegal c.panelH.toNat && sizeLegal c.tileW && sizeLegal c.tileH
    && c.spiBitsLegal && c.maxXferLegal && c.colmodLegal && c.bgrLegal && c.madctlRot.legal
    && c.linesDistinct && c.tableLegal

/-- A well-formed instruction: R61's limit on an opaque payload; all other operands are legal by type (R53). -/
def Instr.wf : Instr → Bool
  | .init => true
  | .pushRect _ _ _ _ _ => true
  | .pushRectSolid _ _ _ _ _ => true
  | .setRotation _ => true
  | .setBacklight _ => true
  | .dispose => true
  | .markDirtyRect _ _ _ _ => true
  | .markAll => true
  | .flush => true
  | .pack565 _ _ _ => true
  | .pack565a _ _ _ _ => true
  | .unpack565 _ => true
  | .blend565 _ _ _ => true
  | .modulate565 _ _ => true
  | .reservedE => true
  | .reservedF => true
  | .swreset => true
  | .slpout => true
  | .colmod => true
  | .caset _ _ => true
  | .raset _ _ => true
  | .madctl _ => true
  | .ramwr _ => true
  | .invon => true
  | .invoff => true
  | .dispon => true
  | .panelCmd _ payload _ => payloadFits payload

end Sys2Proof
end

