-- ==== Sys2Proof/Decode.lean ====
section
/-! DEFINITION. From records to instructions and back. The operation codes and the operand types are
spec/30_encoding.md R52 and R53, the wire opcodes R59. The spec gives an operation's operands no bit positions:
the byte layout of a record (operands in R52's order, each high byte first) is the model's own
(DESIGN CHOICE, notes/assumptions/2.md). -/

namespace Sys2Proof

/-- Why a record is no instruction. -/
inductive DecodeError where
  /-- No byte at all. -/
  | emptyRecord
  /-- The operand bytes are not as many as the operands of this first byte take. -/
  | wrongLength (first : Byte)
  /-- A pixel list that ends in half a word. -/
  | oddPixelBytes (first : Byte)
  /-- A table payload longer than R61 allows. -/
  | payloadTooLong (first : Byte)
  deriving DecidableEq, Repr

/-- R11: `be16`, the high byte first. -/
def be16 (v : Word) : List Byte := [v.extractLsb' 8 8, v.extractLsb' 0 8]

/-- R11: `BE16STREAM`. -/
def be16Stream (ps : List Word) : List Byte := ps.flatMap be16

/-- The four bytes of a 32-bit operand, high byte first. -/
def be32 (v : BitVec 32) : List Byte :=
  [v.extractLsb' 24 8, v.extractLsb' 16 8, v.extractLsb' 8 8, v.extractLsb' 0 8]

/-- The word of two bytes, the high one first. -/
def word16 (hi lo : Byte) : Word := hi ++ lo

/-- The 32-bit value of four bytes, the high one first. -/
def word32 (a b c d : Byte) : BitVec 32 := (a ++ b) ++ (c ++ d)

/-- The words of a big-endian stream; none for a stream of odd length. -/
def wordsOf : List Byte → Option (List Word)
  | [] => some []
  | [_] => none
  | hi :: lo :: rest => (wordsOf rest).map (word16 hi lo :: ·)

/-- Four words, high bytes first, and the bytes after them: the operands x, y, w, h of R52. -/
def fourWords : List Byte → Option ((Word × Word × Word × Word) × List Byte)
  | a1 :: a0 :: b1 :: b0 :: c1 :: c0 :: d1 :: d0 :: rest =>
      some ((word16 a1 a0, word16 b1 b0, word16 c1 c0, word16 d1 d0), rest)
  | _ => none

/-- Four 32-bit values and nothing after them: MARK_DIRTY_RECT's operands. -/
def fourLongs : List Byte → Option (BitVec 32 × BitVec 32 × BitVec 32 × BitVec 32)
  | [a3, a2, a1, a0, b3, b2, b1, b0, c3, c2, c1, c0, d3, d2, d1, d0] =>
      some (word32 a3 a2 a1 a0, word32 b3 b2 b1 b0, word32 c3 c2 c1 c0, word32 d3 d2 d1 d0)
  | _ => none

/-- An instruction without operands. -/
def decodeBare (first : Byte) (i : Instr) (rest : List Byte) : Except DecodeError Instr :=
  match rest with
  | [] => .ok i
  | _ :: _ => .error (.wrongLength first)

/-- PUSH_RECT's operands: four words, then the pixel list to the record's end. -/
def decodePushRect (first : Byte) (rest : List Byte) : Except DecodeError Instr :=
  match fourWords rest with
  | none => .error (.wrongLength first)
  | some ((x, y, w, h), tail) =>
    match wordsOf tail with
    | some ps => .ok (.pushRect x y w h ps)
    | none => .error (.oddPixelBytes first)

/-- PUSH_RECT_SOLID's operands: five words. -/
def decodePushRectSolid (first : Byte) (rest : List Byte) : Except DecodeError Instr :=
  match fourWords rest with
  | some ((x, y, w, h), [c1, c0]) => .ok (.pushRectSolid x y w h (word16 c1 c0))
  | _ => .error (.wrongLength first)

/-- MARK_DIRTY_RECT's operands: four 32-bit values. -/
def decodeMarkDirtyRect (first : Byte) (rest : List Byte) : Except DecodeError Instr :=
  match fourLongs rest with
  | some (x, y, w, h) => .ok (.markDirtyRect x y w h)
  | none => .error (.wrongLength first)

/-- An instruction with one operand byte. -/
def decodeByte (first : Byte) (f : Byte → Instr) (rest : List Byte) : Except DecodeError Instr :=
  match rest with
  | [a] => .ok (f a)
  | _ => .error (.wrongLength first)

/-- An instruction whose operands are two words. -/
def decodeTwoWords (first : Byte) (f : Word → Word → Instr) (rest : List Byte) :
    Except DecodeError Instr :=
  match rest with
  | [a1, a0, b1, b0] => .ok (f (word16 a1 a0) (word16 b1 b0))
  | _ => .error (.wrongLength first)

/-- PACK565's operands: three bytes. -/
def decodePack565 (first : Byte) (rest : List Byte) : Except DecodeError Instr :=
  match rest with
  | [r, g, b] => .ok (.pack565 r g b)
  | _ => .error (.wrongLength first)

/-- PACK565A's operands: four bytes. -/
def decodePack565a (first : Byte) (rest : List Byte) : Except DecodeError Instr :=
  match rest with
  | [r, g, b, a] => .ok (.pack565a r g b a)
  | _ => .error (.wrongLength first)

/-- UNPACK565's operand: one word. -/
def decodeUnpack565 (first : Byte) (rest : List Byte) : Except DecodeError Instr :=
  match rest with
  | [c1, c0] => .ok (.unpack565 (word16 c1 c0))
  | _ => .error (.wrongLength first)

/-- BLEND565's operands: two words and a byte. -/
def decodeBlend565 (first : Byte) (rest : List Byte) : Except DecodeError Instr :=
  match rest with
  | [s1, s0, d1, d0, alpha] => .ok (.blend565 (word16 s1 s0) (word16 d1 d0) alpha)
  | _ => .error (.wrongLength first)

/-- RAMWR's operand: the pixel stream to the record's end. -/
def decodeRamwr (first : Byte) (rest : List Byte) : Except DecodeError Instr :=
  match wordsOf rest with
  | some ps => .ok (.ramwr ps)
  | none => .error (.oddPixelBytes first)

/-- An opaque command with its payload (R61). -/
def decodePanel (first : Byte) (delayMs : Nat) (rest : List Byte) : Except DecodeError Instr :=
  if payloadFits rest then .ok (.panelCmd first rest delayMs) else .error (.payloadTooLong first)

/-- The 4-bit operation code `op[3:0]` of a host record's first byte (R52); its other bits are not read. -/
def opCode (first : Byte) : BitVec 4 := first.extractLsb' 0 4

/-- The host port (R52, R55): every operation code is one of the fourteen operations or reserved. -/
def decodeHost (first : Byte) (rest : List Byte) : Except DecodeError Instr :=
  match (opCode first).toNat with
  | 0x0 => decodeBare first .init rest
  | 0x1 => decodePushRect first rest
  | 0x2 => decodePushRectSolid first rest
  | 0x3 => decodeByte first (fun a => .setRotation (a.extractLsb' 0 2)) rest
  | 0x4 => decodeByte first (fun a => .setBacklight (a.getLsbD 0)) rest
  | 0x5 => decodeBare first .dispose rest
  | 0x6 => decodeMarkDirtyRect first rest
  | 0x7 => decodeBare first .markAll rest
  | 0x8 => decodeBare first .flush rest
  | 0x9 => decodePack565 first rest
  | 0xA => decodePack565a first rest
  | 0xB => decodeUnpack565 first rest
  | 0xC => decodeBlend565 first rest
  | 0xD => decodeTwoWords first .modulate565 rest
  | 0xE => decodeBare first .reservedE rest
  | _ => decodeBare first .reservedF rest

/-- The framer's input: R59's ten opcodes; any other opcode is an opaque command (R106), the table's lowest
decode priority, here without a delay. -/
def decodeFramer (first : Byte) (rest : List Byte) : Except DecodeError Instr :=
  if first = 0x01 then decodeBare first .swreset rest
  else if first = 0x11 then decodeBare first .slpout rest
  else if first = 0x3A then decodeBare first .colmod rest
  else if first = 0x2A then decodeTwoWords first .caset rest
  else if first = 0x2B then decodeTwoWords first .raset rest
  else if first = 0x36 then decodeByte first (fun a => .madctl (a.extractLsb' 0 2)) rest
  else if first = 0x2C then decodeRamwr first rest
  else if first = 0x21 then decodeBare first .invon rest
  else if first = 0x20 then decodeBare first .invoff rest
  else if first = 0x29 then decodeBare first .dispon rest
  else decodePanel first 0 rest

/-- The decoder: total on any record, rejecting by name. -/
def decode (r : Record) : Except DecodeError Instr :=
  match r.bytes with
  | [] => .error .emptyRecord
  | first :: rest =>
    match r.port with
    | .host => decodeHost first rest
    | .framer => decodeFramer first rest
    | .table delayMs => decodePanel first delayMs rest

/-- The encoder: the record of an instruction, from the same tables. -/
def encode : Instr → Record
  | .init => ⟨.host, [0x00]⟩
  | .pushRect x y w h ps => ⟨.host, 0x01 :: (be16 x ++ be16 y ++ be16 w ++ be16 h ++ be16Stream ps)⟩
  | .pushRectSolid x y w h c => ⟨.host, 0x02 :: (be16 x ++ be16 y ++ be16 w ++ be16 h ++ be16 c)⟩
  | .setRotation r => ⟨.host, [0x03, r.setWidth 8]⟩
  | .setBacklight on => ⟨.host, [0x04, if on then 1 else 0]⟩
  | .dispose => ⟨.host, [0x05]⟩
  | .markDirtyRect x y w h => ⟨.host, 0x06 :: (be32 x ++ be32 y ++ be32 w ++ be32 h)⟩
  | .markAll => ⟨.host, [0x07]⟩
  | .flush => ⟨.host, [0x08]⟩
  | .pack565 r g b => ⟨.host, [0x09, r, g, b]⟩
  | .pack565a r g b a => ⟨.host, [0x0A, r, g, b, a]⟩
  | .unpack565 c => ⟨.host, 0x0B :: be16 c⟩
  | .blend565 src dst alpha => ⟨.host, 0x0C :: (be16 src ++ be16 dst ++ [alpha])⟩
  | .modulate565 a b => ⟨.host, 0x0D :: (be16 a ++ be16 b)⟩
  | .reservedE => ⟨.host, [0x0E]⟩
  | .reservedF => ⟨.host, [0x0F]⟩
  | .swreset => ⟨.framer, [0x01]⟩
  | .slpout => ⟨.framer, [0x11]⟩
  | .colmod => ⟨.framer, [0x3A]⟩
  | .caset xs xe => ⟨.framer, 0x2A :: (be16 xs ++ be16 xe)⟩
  | .raset ys ye => ⟨.framer, 0x2B :: (be16 ys ++ be16 ye)⟩
  | .madctl r => ⟨.framer, [0x36, r.setWidth 8]⟩
  | .ramwr ps => ⟨.framer, 0x2C :: be16Stream ps⟩
  | .invon => ⟨.framer, [0x21]⟩
  | .invoff => ⟨.framer, [0x20]⟩
  | .dispon => ⟨.framer, [0x29]⟩
  | .panelCmd op payload delayMs => ⟨.table delayMs, op :: payload⟩

/-! ### The opcode table's numbering of bits -/

/-- How many bytes the shortest record of a host operation has (R52's operand widths; an empty pixel list). -/
def hostLength (first : Byte) : Nat :=
  match (opCode first).toNat with
  | 0x1 => 9
  | 0x2 => 11
  | 0x3 => 2
  | 0x4 => 2
  | 0x6 => 17
  | 0x9 => 4
  | 0xA => 5
  | 0xB => 3
  | 0xC => 6
  | 0xD => 5
  | _ => 1

/-- How many bytes the shortest framer record of an opcode has. -/
def framerLength (first : Byte) : Nat :=
  if first = 0x2A then 5 else if first = 0x2B then 5 else if first = 0x36 then 2 else 1

/-- The nine of R59's opcodes that are no number of R52's. 0x01 is both SWRESET and PUSH_RECT: the table
tells the two apart only by their port, and a number alone is read on the host port
(notes/assumptions/4.md). -/
def framerOnly (first : Byte) : Bool :=
  [0x11, 0x3A, 0x2A, 0x2B, 0x36, 0x2C, 0x21, 0x20, 0x29].contains first

/-- The first `n` bytes of `w`, byte 0 its least significant. -/
def tableBytes (n w : Nat) : List Byte := (List.range n).map fun k => BitVec.ofNat 8 (w >>> (8 * k))

/-- The bytes of a word, padded with zeros to the length of its own instruction. -/
def padTo (n : Nat) (bs : List Byte) : List Byte := bs ++ List.replicate (n - bs.length) 0

/-- The record of a word numbered as the opcode table numbers it. A row to which the table gives no bits at
all is PANEL_CMD (mask 0x00). -/
def tableRecord (nbits w : Nat) : Record :=
  if nbits = 0 then ⟨.table 0, [BitVec.ofNat 8 w]⟩
  else
    let bs := tableBytes ((nbits + 7) / 8) w
    let first := BitVec.ofNat 8 w
    if framerOnly first then ⟨.framer, padTo (framerLength first) bs⟩
    else ⟨.host, padTo (hostLength first) bs⟩

/-- The instruction the decoder reads from a word numbered as the opcode table numbers it. -/
def decodeTableWord (nbits w : Nat) : Option Instr :=
  match decode (tableRecord nbits w) with
  | .ok i => some i
  | .error _ => none

end Sys2Proof
end

