-- ==== Sys2Proof/Machine/Operands.lean ====
section
/-! DEFINITION. What the operations compute from their operands and from `CFG`: grid sizes, line levels,
payload bytes, absolute windows, tile rectangles, clipped rectangles, colour lanes. All arithmetic is exact
and is truncated only where a rule writes it (spec/00_scope.md R10). -/

namespace Sys2Proof.Machine

/-- R10: `ceil(a / b)`. -/
def ceilDiv (a b : Nat) : Nat := (a + b - 1) / b

/-- R7. -/
def tilesX (c : Cfg) : Nat := ceilDiv c.panelW.toNat c.tileW

/-- R7. -/
def tilesY (c : Cfg) : Nat := ceilDiv c.panelH.toNat c.tileH

/-- R25: how many flags `DIRTY` holds. -/
def tileCount (c : Cfg) : Nat := tilesY c * tilesX c

/-- R33: how many pixels the frame buffer holds. -/
def pixelCount (c : Cfg) : Nat := c.panelW.toNat * c.panelH.toNat

/-- R6: `DC_DATA_LEVEL` := 1 − `DC_CMD_LEVEL`. -/
def dcDataLevel (c : Cfg) : Bit := 1 - c.dcCmdLevel

/-- R6: `HAS_BL`. -/
def hasBl (c : Cfg) : Bool := c.blLine.isSome

/-- R120: the level that switches the backlight on or off. -/
def blLevelFor (c : Cfg) (on : Bool) : Bit := if on then c.blOnLevel else 1 - c.blOnLevel

/-- R54: the table entry of a rotation code. -/
def rotByte (t : RotTable) (r : BitVec 2) : Byte :=
  match r.toNat with
  | 0 => t.deg0
  | 1 => t.deg90
  | 2 => t.deg180
  | _ => t.deg270

/-- R63: the MADCTL byte, `MADCTL_ROT[r] | BGR_MASK`. -/
def madctlByte (c : Cfg) (r : BitVec 2) : Byte := rotByte c.madctlRot r ||| c.bgrMask

/-! ### Window translation (R44) -/

/-- R44: `xs`. -/
def absXs (c : Cfg) (x : Nat) : Nat := x + c.colOffset.toNat
/-- R44: `xe`, for w ≥ 1. -/
def absXe (c : Cfg) (x w : Nat) : Nat := x + w - 1 + c.colOffset.toNat
/-- R44: `ys`. -/
def absYs (c : Cfg) (y : Nat) : Nat := y + c.rowOffset.toNat
/-- R44: `ye`, for h ≥ 1. -/
def absYe (c : Cfg) (y h : Nat) : Nat := y + h - 1 + c.rowOffset.toNat

/-- R107: both absolute ends fit 16 bits. -/
def windowFits (c : Cfg) (x y w h : Nat) : Bool := absXe c x w ≤ 0xFFFF && absYe c y h ≤ 0xFFFF

/-! ### Chunking (R92) -/

/-- R92: the chunks of a data phase, each of `m` bytes but the last. `fuel` bounds their number; a byte list is
never longer than its own length in chunks. -/
def chunksFuel (m : Nat) : Nat → List Byte → List (List Byte)
  | 0, _ => []
  | _ + 1, [] => []
  | fuel + 1, b :: bs => (b :: bs).take m :: chunksFuel m fuel ((b :: bs).drop m)

/-- R92: the greedy cut of a byte list into chunks of at most `m` bytes. -/
def chunks (m : Nat) (bytes : List Byte) : List (List Byte) := chunksFuel m bytes.length bytes

/-! ### Tiles (R25, R82, R86, R87) -/

/-- A pixel rectangle: its corner and its size. -/
structure Rect where
  x : Nat
  y : Nat
  w : Nat
  h : Nat
  deriving DecidableEq, Repr

/-- R86: `TILE_RECT`. -/
def tileRect (c : Cfg) (tx ty : Nat) : Rect :=
  ⟨tx * c.tileW, ty * c.tileH,
   min c.tileW (c.panelW.toNat - tx * c.tileW), min c.tileH (c.panelH.toNat - ty * c.tileH)⟩

/-- R25: the rectangle of the tile with flat index `n`, which is `ty * TILES_X + tx`. -/
def tileRectAt (c : Cfg) (n : Nat) : Rect := tileRect c (n % tilesX c) (n / tilesX c)

/-- R82: one axis of a rectangle clipped to the display: from `max(p, 0)` up to, not including,
`min(p + len, size)`. The sum is exact. -/
def clipLow (p : BitVec 32) : Int := max p.toInt 0
/-- R82. -/
def clipHigh (p len : BitVec 32) (size : Word) : Int := min (p.toInt + len.toInt) size.toNat

/-- R82: whether a tile index lies between the first and the last one that a non-empty clipped span touches. -/
def spanHits (low high : Int) (tile : Nat) (n : Nat) : Bool :=
  decide (low / tile ≤ n) && decide ((n : Int) ≤ (high - 1) / tile)

/-- R82: whether MARK_DIRTY_RECT x, y, w, h sets the flag of tile (tx, ty). -/
def markHits (c : Cfg) (x y w h : BitVec 32) (tx ty : Nat) : Bool :=
  decide (0 < w.toInt) && decide (0 < h.toInt)
    && decide (clipLow x < clipHigh x w c.panelW) && decide (clipLow y < clipHigh y h c.panelH)
    && spanHits (clipLow x) (clipHigh x w c.panelW) c.tileW tx
    && spanHits (clipLow y) (clipHigh y h c.panelH) c.tileH ty

/-- R33: the pixel index of (x, y). -/
def pixelIndex (c : Cfg) (x y : Nat) : Nat := y * c.panelW.toNat + x

/-- R87: the pixel indices of a rectangle, row by row. -/
def rectIndices (c : Cfg) (r : Rect) : List Nat :=
  (List.range r.h).flatMap fun j => (List.range r.w).map fun i => pixelIndex c (r.x + i) (r.y + j)

/-! ### Colour lanes (R66, R72 to R80) -/

/-- R72: red, bits [15:11]. -/
def r5 (c : Word) : BitVec 5 := c.extractLsb' 11 5
/-- R72: green, bits [10:5]. -/
def g6 (c : Word) : BitVec 6 := c.extractLsb' 5 6
/-- R72: blue, bits [4:0]. -/
def b5 (c : Word) : BitVec 5 := c.extractLsb' 0 5

/-- R72: the word of three lanes, red highest. -/
def compose (r : BitVec 5) (g : BitVec 6) (b : BitVec 5) : Word := (r ++ g) ++ b

/-- R74: `r[7:3]`, `g[7:2]`, `b[7:3]`. -/
def pack (r g b : Byte) : Word := compose (r.extractLsb' 3 5) (g.extractLsb' 2 6) (b.extractLsb' 3 5)

/-- R76: a five-bit lane by bit replication, `(v << 3) | (v >> 2)`. -/
def widen5 (v : BitVec 5) : Byte := (v.setWidth 8 <<< 3) ||| (v.setWidth 8 >>> 2)

/-- R76: a six-bit lane by bit replication, `(v << 2) | (v >> 4)`. -/
def widen6 (v : BitVec 6) : Byte := (v.setWidth 8 <<< 2) ||| (v.setWidth 8 >>> 4)

/-- R78: one lane of the blend, exact and truncated toward zero. -/
def blendLane (alpha s d : Nat) : Nat := (s * alpha + d * (255 - alpha)) / 255

/-- R78. -/
def blend (src dst : Word) (alpha : Byte) : Word :=
  compose (BitVec.ofNat 5 (blendLane alpha.toNat (r5 src).toNat (r5 dst).toNat))
    (BitVec.ofNat 6 (blendLane alpha.toNat (g6 src).toNat (g6 dst).toNat))
    (BitVec.ofNat 5 (blendLane alpha.toNat (b5 src).toNat (b5 dst).toNat))

/-- R80. -/
def modulate (a b : Word) : Word :=
  compose (BitVec.ofNat 5 ((r5 a).toNat * (r5 b).toNat / 31))
    (BitVec.ofNat 6 ((g6 a).toNat * (g6 b).toNat / 63))
    (BitVec.ofNat 5 ((b5 a).toNat * (b5 b).toNat / 31))

end Sys2Proof.Machine
end

