-- ==== Sys2Proof/Machine/State.lean ====
section
/-! DEFINITION. The state of the machine as plain data (spec/10_state.md, 20_memory.md R33, 42_framer.md
R112), the external events and results it produces (R12, R125), its stops, and the state after reset (R31). -/

namespace Sys2Proof.Machine

/-! ### Lines, errors, results -/

/-- R19. -/
inductive DrvState where
  | uninit
  | ready
  | failed
  | disposed
  deriving DecidableEq, Repr, Inhabited

/-- The three GPIO lines of R91. -/
inductive Line where
  | dc
  | rst
  | bl
  deriving DecidableEq, Repr, Inhabited

/-- The resources INIT opens (R125). -/
inductive Resource where
  | spi
  | gpio (line : Line)
  deriving DecidableEq, Repr, Inhabited

/-- What an InvalidState error says was attempted (R125): a host operation code, or the opcode of a wire
command that no operation has come to (notes/assumptions/3.md). -/
inductive OpTag where
  | host (code : BitVec 4)
  | wire (opcode : Byte)
  deriving DecidableEq, Repr, Inhabited

/-- Which check an InvalidArgument error failed (R125): R109's pixel count, R107's 16-bit range. -/
inductive ArgCheck where
  | pixelCount
  | windowRange
  deriving DecidableEq, Repr, Inhabited

/-- R125: the error kinds with the information recorded. A transport error is of a write (bytes requested, and
written or none for `Err`) or of a line setting (R90, R91). -/
inductive OpError where
  | configuration (resource : Resource)
  | transportWrite (requested : Nat) (written : Option Nat)
  | transportLine (line : Line)
  | invalidState (state : DrvState) (op : OpTag)
  | invalidArgument (check : ArgCheck)
  | illegalOperation (op : BitVec 4)
  deriving DecidableEq, Repr, Inhabited

/-- R52: the success value of an operation. -/
inductive Value where
  | unit
  | word (v : Word)
  | rgb (r g b : Byte)
  | flushed (tiles : BitVec 32) (bytes : BitVec 64)
  deriving DecidableEq, Repr, Inhabited

/-- R125: `Ok(value)` or `Err(kind, info)`. -/
inductive Result where
  | ok (v : Value)
  | err (e : OpError)
  deriving DecidableEq, Repr, Inhabited

/-! ### External events (R12) -/

/-- R12: an external action. A write or a setting names the handle it goes to. -/
inductive Event where
  | spiOpen (path : String) (mode bits speed : Nat)
  | spiWrite (handle : Option Nat) (bytes : List Byte)
  | spiClose (handle : Nat)
  | gpioOpen (line : Line) (chip : String) (number : Nat) (label : String)
  | gpioSet (line : Line) (handle : Option Nat) (level : Bit)
  | gpioRelease (line : Line) (handle : Nat)
  | delay (ms : Nat)
  deriving DecidableEq, Repr, Inhabited

/-- The environment's answer as it stands in the event history (R12): a handle, a count of bytes, `Ok`, `Err`,
an answer that is ignored (R121), or none where the event has no answer. -/
inductive Reply where
  | handle (h : Nat)
  | count (n : Nat)
  | ok
  | err
  | ignored
  | none
  deriving DecidableEq, Repr, Inhabited

/-- One event with its answer. -/
structure Entry where
  ev    : Event
  reply : Reply
  deriving DecidableEq, Repr, Inhabited

/-! ### Memories and the panel observer -/

/-- A word-addressed memory (R33): pairs of an index and the word there, indices strictly rising. An index
that is not listed holds no known word. -/
abbrev Memory := List (Nat × Word)

/-- R112: the observer of the panel. `WIN` is held as its column and its row range, each set by its own
command (R114); it is set when both are. -/
structure Panel where
  colRange : Option (Nat × Nat)
  rowRange : Option (Nat × Nat)
  ptr      : Option (Nat × Nat)
  cur      : Option Byte
  acc      : List Byte
  gram     : Memory
  deriving DecidableEq, Repr, Inhabited

/-! ### The host's inputs -/

/-- What the host may do next (R139): issue an operation, write one frame-buffer pixel, reset the block. -/
inductive Input where
  | op (r : Record)
  | fbWrite (index : Nat) (value : Word)
  | blockReset
  deriving DecidableEq, Repr, Inhabited

/-! ### The state -/

structure State where
  /-- R6, R18: the configuration registers. -/
  cfg            : Cfg
  /-- R19. -/
  drvState       : DrvState
  /-- R20. -/
  curRotation    : Option (BitVec 2)
  /-- R21. -/
  lastError      : BitVec 3
  /-- R22. -/
  lastFlushTiles : BitVec 32
  /-- R22. -/
  lastFlushBytes : BitVec 64
  /-- R23. -/
  hSpi           : Option Nat
  /-- R23. -/
  hDc            : Option Nat
  /-- R23. -/
  hRst           : Option Nat
  /-- R23. -/
  hBl            : Option Nat
  /-- R24. -/
  dcLevel        : Option Bit
  /-- R24. -/
  rstLevel       : Option Bit
  /-- R24. -/
  blLevel        : Option Bit
  /-- R25: row-major, flat index `ty * TILES_X + tx`. -/
  dirty          : List Bool
  /-- R33: the frame buffer. -/
  fb             : Memory
  /-- R112. -/
  panel          : Panel
  /-- R46: every event so far, oldest first. -/
  events         : List Entry
  /-- R125: every result so far, oldest first. -/
  results        : List Result
  /-- The model's own: the wire command that the operation in progress has come to (R16: the position inside an
  operation's sequence). None between operations, where no position is visible (notes/assumptions/3.md). -/
  due            : Option Instr
  /-- What the host does next. -/
  inbox          : List Input
  /-- The environment's coming answers (R138). -/
  answers        : List Answer
  /-- The model's own: numbers the draws of free values. -/
  free           : Nat
  deriving DecidableEq, Repr, Inhabited

/-! ### Stops -/

/-- The machine's faults. No instruction raises one. -/
inductive Fault where
  /-- Raised by a host write to a frame-buffer index that no pixel has (R33, R43). Safe: the spec gives the
  FB exactly PANEL_W × PANEL_H words and no other address. -/
  | noSuchPixel (index : Nat)
  deriving DecidableEq, Repr, Inhabited

/-- The machine's refusals. -/
inductive Refusal where
  /-- Raised by `exec` for an instruction that has no meaning yet. Safe. No arm is of this kind. -/
  | notModelled (mnemonic : String)
  /-- Raised by `step` for a record the decoder rejects: no operation of R52 or R59 has these operand bytes.
  Safe. -/
  | undecodable (why : DecodeError)
  /-- Raised by `step` for a block reset in READY or FAILED, which R144 forbids and U15 refuses. Safe. -/
  | blockResetForbidden
  /-- Raised by `step` and by `powerOn` for an ill-formed configuration: R9 builds no such block (U16).
  Safe. -/
  | illFormedConfig
  deriving DecidableEq, Repr, Inhabited

/-! ### Reset -/

/-- R112: the observer before any transaction. -/
def Panel.reset : Panel := ⟨none, none, none, none, [], []⟩

/-- R31, R143: the block just built with configuration `c`: every field at the table's value, nothing opened,
nothing driven, every tile clean. -/
def State.built (c : Cfg) : State where
  cfg := c
  drvState := .uninit
  curRotation := none
  lastError := 0
  lastFlushTiles := 0
  lastFlushBytes := 0
  hSpi := none
  hDc := none
  hRst := none
  hBl := none
  dcLevel := none
  rstLevel := none
  blLevel := none
  dirty := List.replicate (tileCount c) false
  fb := []
  panel := Panel.reset
  events := []
  results := []
  due := none
  inbox := []
  answers := []
  free := 0

/-- The machine right after power-on with R6's reference configuration and a 32 × 32 panel
(DESIGN CHOICE of the panel size, notes/assumptions/5.md). -/
def State.reset : State := State.built (Cfg.reference 32 32)

end Sys2Proof.Machine
end

