-- ==== Sys2Proof/Machine/Memory.lean ====
section
/-! DEFINITION. Reading and writing word-addressed memories (spec/20_memory.md R33; 42_framer.md R112's GRAM
map), in one canonical form: indices strictly rising. -/

namespace Sys2Proof.Machine

/-- Every listed index of `m` is above `a`. -/
def Memory.above (a : Nat) (m : Memory) : Bool := m.all fun e => decide (a < e.1)

/-- The canonical form: indices strictly rising, so no index is listed twice. An unlisted index holds no known
word, so no entry can repeat what it would read as. -/
def Memory.wf : Memory → Bool
  | [] => true
  | e :: rest => Memory.above e.1 rest && Memory.wf rest

/-- The word at an index, if it is listed. -/
def Memory.read (m : Memory) (a : Nat) : Option Word :=
  match m with
  | [] => none
  | e :: rest => if e.1 = a then some e.2 else Memory.read rest a

/-- Writing a word, which keeps the indices strictly rising. -/
def Memory.write (m : Memory) (a : Nat) (v : Word) : Memory :=
  match m with
  | [] => [(a, v)]
  | e :: rest =>
    if a < e.1 then (a, v) :: e :: rest
    else if a = e.1 then (a, v) :: rest
    else e :: Memory.write rest a v

/-- The memory of a list of pairs; a later pair wins. -/
def Memory.ofList (l : List (Nat × Word)) : Memory := l.foldl (fun m e => Memory.write m e.1 e.2) []

/-- R33: `MemRead(a, 2)`. A pixel the host has not written yet holds a free value
(notes/assumptions/7.md). -/
def memRead (s : State) (a : Nat) : Word :=
  match Memory.read s.fb a with
  | some v => v
  | none => Config.freeFbWord a

/-- R112: the GRAM key of (column, row); both are 16-bit numbers. -/
def gramKey (col row : Nat) : Nat := row * 65536 + col

/-- What the observer knows to be at (column, row). -/
def gramAt (p : Panel) (col row : Nat) : Option Word := Memory.read p.gram (gramKey col row)

end Sys2Proof.Machine
end

