-- ==== Sys2Proof/Machine/Flags.lean ====
section
/-! DEFINITION. Status codes and status flags: the codes of `DRV_STATE` (spec/10_state.md R19) and
`LAST_ERROR` (60_exceptions.md R125), which errors are fatal (R130), and the `DIRTY` flag file (R25, R82, R84,
R85). The block has no condition codes (R27). -/

namespace Sys2Proof.Machine

/-- R19: the numbers of the driver states. -/
def drvCode : DrvState → BitVec 2
  | .uninit => 0
  | .ready => 1
  | .failed => 2
  | .disposed => 3

/-- R125: the code of an error kind. -/
def errorCode : OpError → BitVec 3
  | .configuration _ => 1
  | .transportWrite _ _ => 2
  | .transportLine _ => 2
  | .invalidState _ _ => 3
  | .invalidArgument _ => 4
  | .illegalOperation _ => 5

/-- R130, step 3: ConfigurationError and TransportWriteError set FAILED whatever the operation. -/
def errorFatal : OpError → Bool
  | .configuration _ => true
  | .transportWrite _ _ => true
  | .transportLine _ => true
  | .invalidState _ _ => false
  | .invalidArgument _ => false
  | .illegalOperation _ => false

/-- R125: the code of a result, 0 for success. -/
def resultCode : Result → BitVec 3
  | .ok _ => 0
  | .err e => errorCode e

/-- The flags from flat index `n` on, each set where `hit` holds of its index and kept elsewhere. -/
def orFlagsFrom (hit : Nat → Bool) : Nat → List Bool → List Bool
  | _, [] => []
  | n, f :: fs => (f || hit n) :: orFlagsFrom hit (n + 1) fs

/-- R82: the flags after MARK_DIRTY_RECT x, y, w, h. -/
def markedFlags (c : Cfg) (x y w h : BitVec 32) (flags : List Bool) : List Bool :=
  orFlagsFrom (fun n => markHits c x y w h (n % tilesX c) (n / tilesX c)) 0 flags

/-- R84: the flags after MARK_ALL. -/
def allFlags (flags : List Bool) : List Bool := flags.map fun _ => true

/-- R25: the flag with flat index `n`. -/
def flagAt (flags : List Bool) (n : Nat) : Bool := flags.getD n false

/-- R85: the flags with the one at flat index `n` cleared. -/
def clearFlag (flags : List Bool) (n : Nat) : List Bool := flags.set n false

/-- R25: `DIRTY[ty][tx]`. -/
def dirtyAt (s : State) (tx ty : Nat) : Bool := flagAt s.dirty (ty * tilesX s.cfg + tx)

end Sys2Proof.Machine
end

