-- ==== Sys2Proof/Machine/Observer.lean ====
section
/-! DEFINITION. The panel observer (spec/42_framer.md R112 to R114): what a transaction does to the panel's
address window, write pointer and GRAM, as far as the spec states it. The block's rules never read it. Where
the spec leaves the panel unspecified (U1, U5, U6) its state is a free value. -/

namespace Sys2Proof.Machine

/-- A pair of 16-bit numbers as numbers. -/
def natPair (p : Word × Word) : Nat × Nat := (p.1.toNat, p.2.toNat)

/-- A GRAM of unknown contents: draw `k`, position `j`. -/
def freeGram (k j : Nat) : Memory :=
  Memory.ofList ((Config.freeCells k j).map fun e => (gramKey e.1.1.toNat e.1.2.toNat, e.2))

/-- U1: a panel of which nothing is known, draw `k` (notes/assumptions/9.md). -/
def unknownPanel (k : Nat) : Panel where
  colRange := (Config.freeRange k 0 0).map natPair
  rowRange := (Config.freeRange k 0 1).map natPair
  ptr := (Config.freePtr k 0).map natPair
  cur := Config.freeCmd k
  acc := Config.freeBytes k
  gram := freeGram k 0

/-- U5: after a pixel byte for which the spec states no place. What was sent is still known; the window, the
pointer and the GRAM are free (notes/assumptions/10.md). -/
def panelOverrun (k : Nat) (p : Panel) : Panel :=
  { p with
    colRange := (Config.freeRange k (p.acc.length + 1) 0).map natPair
    rowRange := (Config.freeRange k (p.acc.length + 1) 1).map natPair
    ptr := (Config.freePtr k (p.acc.length + 1)).map natPair
    gram := freeGram k (p.acc.length + 1) }

/-- R113: the pointer a RAMWR command opens a write session with; unspecified with no window set (U6). -/
def openPtr (k : Nat) (p : Panel) : Option (Nat × Nat) :=
  match p.colRange, p.rowRange with
  | some (cs, _), some (rs, _) => some (cs, rs)
  | _, _ => (Config.freePtr k 0).map natPair

/-- R113: a command byte. -/
def panelCommand (k : Nat) (b : Byte) (p : Panel) : Panel :=
  { p with
    cur := some b
    acc := []
    ptr := if b = 0x2C then openPtr k p else none }

/-- R114: where the pointer goes after a pixel, in a window with first column `cs` and last column `ce`. -/
def advancePtr (cs ce c r : Nat) : Nat × Nat := if c + 1 > ce then (cs, r + 1) else (c + 1, r)

/-- R114: one pixel of RAMWR's stream. -/
def panelPixel (k : Nat) (v : Word) (p : Panel) : Panel :=
  match p.colRange, p.rowRange, p.ptr with
  | some (cs, ce), some (_, re), some (c, r) =>
    if r ≤ re then
      { p with
        gram := Memory.write p.gram (gramKey c r) v
        ptr := some (advancePtr cs ce c r) }
    else panelOverrun k p
  | _, _, _ => panelOverrun k p

/-- R114: the range that four collected bytes set. -/
def rangeOf (acc : List Byte) : Option (Nat × Nat) :=
  match acc with
  | [a, b, c, d] => some (a.toNat * 256 + b.toNat, c.toNat * 256 + d.toNat)
  | _ => none

/-- R114: one data byte. CASET and RASET act when their fourth byte is in, RAMWR at each second byte. -/
def panelDataByte (k : Nat) (p : Panel) (b : Byte) : Panel :=
  let q := { p with acc := p.acc ++ [b] }
  if p.cur = some 0x2A then
    if q.acc.length = 4 then { q with colRange := rangeOf q.acc } else q
  else if p.cur = some 0x2B then
    if q.acc.length = 4 then { q with rowRange := rangeOf q.acc } else q
  else if p.cur = some 0x2C then
    match p.acc.length % 2, p.acc.getLast? with
    | 1, some hi => panelPixel k (word16 hi b) q
    | _, _ => q
  else q

/-- R114: the data bytes of one transaction, in order. -/
def panelData (k : Nat) (bytes : List Byte) (p : Panel) : Panel := bytes.foldl (panelDataByte k) p

/-- R113, R114: one transaction `(dc, bytes)`. The block sends exactly one byte at the command level (R57) and
always with a known level (R151); what else the observer would make of a transaction is not stated. -/
def panelTransaction (c : Cfg) (k : Nat) (dc : Option Bit) (bytes : List Byte) (p : Panel) : Panel :=
  match dc with
  | none => panelOverrun k p
  | some level =>
    if level = c.dcCmdLevel then
      match bytes with
      | [b] => panelCommand k b p
      | _ => panelOverrun k p
    else panelData k bytes p

end Sys2Proof.Machine
end

