-- ==== Sys2Proof/Machine/Ops.lean ====
section
/-! DEFINITION. The named operations every meaning is written over: drawing an answer of the environment,
logging an event, the framing primitives (spec/42_framer.md R90 to R95), the shared body of a rectangle
transfer (R107), ending an operation in success, and taking an error (60_exceptions.md R130) with the way back
from one (R133, 70_reset_and_hazards.md R144) beside it. -/

namespace Sys2Proof.Machine

/-- How far a sequence of steps inside one operation has come: it goes on, or an error has been raised in the
state it carries (R130: nothing is written after the raise). -/
inductive Ctl where
  | go (s : State)
  | raise (e : OpError) (s : State)
  deriving DecidableEq, Repr

/-- One after the other; a raised error ends the sequence. -/
def Ctl.bind (x : Ctl) (k : State → Ctl) : Ctl :=
  match x with
  | .go s => k s
  | .raise e s => .raise e s

/-! ### Handles and levels -/

/-- R23: the handle of a line. -/
def lineHandle (s : State) : Line → Option Nat
  | .dc => s.hDc
  | .rst => s.hRst
  | .bl => s.hBl

/-- R23. -/
def setHandle (L : Line) (h : Option Nat) (s : State) : State :=
  match L with
  | .dc => { s with hDc := h }
  | .rst => { s with hRst := h }
  | .bl => { s with hBl := h }

/-- R24: the level field of a line. -/
def lineLevel (s : State) : Line → Option Bit
  | .dc => s.dcLevel
  | .rst => s.rstLevel
  | .bl => s.blLevel

/-- R24. -/
def setLevel (L : Line) (l : Option Bit) (s : State) : State :=
  match L with
  | .dc => { s with dcLevel := l }
  | .rst => { s with rstLevel := l }
  | .bl => { s with blLevel := l }

/-- R6: the configured number of a line. -/
def lineNumber (c : Cfg) : Line → Nat
  | .dc => c.dcLine
  | .rst => c.rstLine
  | .bl => c.blLine.getD 0

/-- R6: the label of a line. -/
def lineLabel (c : Cfg) : Line → String
  | .dc => c.labelDc
  | .rst => c.labelRst
  | .bl => c.labelBl

/-! ### Events and answers (R12, R138) -/

/-- The environment's next answer. -/
def nextAnswer (s : State) : Answer :=
  match s.answers with
  | a :: _ => a
  | [] => Config.freeAnswer s.free

/-- The state with that answer drawn. -/
def drawn (s : State) : State := { s with answers := s.answers.tail }

/-- An event with its answer joins the history; the draws of free values are numbered by events. -/
def logged (e : Event) (r : Reply) (s : State) : State :=
  { s with events := s.events ++ [⟨e, r⟩], free := s.free + 1 }

/-- R12: the handle an open was answered with. -/
def openedHandle : Answer → Option Nat
  | .good v => some v
  | .short _ => none
  | .bad => none

/-- R12: the count a write of `len` bytes was answered with, 0 ≤ n ≤ len, or none for `Err`. -/
def writtenCount (len : Nat) : Answer → Option Nat
  | .good _ => some len
  | .short n => some (min n len)
  | .bad => none

/-- R12: whether a line setting was answered `Ok`. -/
def settingOk : Answer → Bool
  | .good _ => true
  | .short _ => false
  | .bad => false

/-- R137: a wait of at least `ms` milliseconds. It has no answer. -/
def delay (ms : Nat) (s : State) : State := logged (.delay ms) .none s

/-- R116: the waits that are parameters issue no event when they are 0. -/
def delayIfPos (ms : Nat) (s : State) : State := if ms > 0 then delay ms s else s

/-- R112: the panel takes in a transaction that the environment took in full. -/
def panelTakes (bytes : List Byte) (s : State) : State :=
  { s with panel := panelTransaction s.cfg s.free s.dcLevel bytes s.panel }

/-! ### Framing primitives -/

/-- R90: `TX(bytes)`. -/
def tx (bytes : List Byte) (s : State) : Ctl :=
  match writtenCount bytes.length (nextAnswer s) with
  | some n =>
    if n = bytes.length then
      .go (logged (.spiWrite s.hSpi bytes) (.count n) (panelTakes bytes (drawn s)))
    else
      .raise (.transportWrite bytes.length (some n))
        (logged (.spiWrite s.hSpi bytes) (.count n) (drawn s))
  | none =>
    .raise (.transportWrite bytes.length none) (logged (.spiWrite s.hSpi bytes) .err (drawn s))

/-- R91: `SETLINE(L, level)`. -/
def setLine (L : Line) (level : Bit) (s : State) : Ctl :=
  if settingOk (nextAnswer s) then
    .go (setLevel L (some level) (logged (.gpioSet L (lineHandle s L) level) .ok (drawn s)))
  else
    .raise (.transportLine L)
      (setLevel L none (logged (.gpioSet L (lineHandle s L) level) .err (drawn s)))

/-- R92: one transaction for each chunk, in order. -/
def txAll : List (List Byte) → State → Ctl
  | [], s => .go s
  | c :: cs, s => (tx c s).bind (txAll cs)

/-- R92: `DATA_PHASE(bytes)`. -/
def dataPhase (bytes : List Byte) (s : State) : Ctl := txAll (chunks s.cfg.maxXfer bytes) s

/-- R94: the data part of a command; a command without a payload has none (R60). -/
def commandData (payload : List Byte) (s : State) : Ctl :=
  match payload with
  | [] => .go s
  | _ :: _ => (setLine .dc (dcDataLevel s.cfg) s).bind (dataPhase payload)

/-- R94: `Command(op, payload)`. -/
def command (op : Byte) (payload : List Byte) (s : State) : Ctl :=
  ((setLine .dc s.cfg.dcCmdLevel s).bind (tx [op])).bind (commandData payload)

/-! ### The wire commands (R96 to R106): what each puts on the wire -/

/-- R96: SWRESET and the wait after it. -/
def sendSwreset (s : State) : Ctl :=
  (command 0x01 [] s).bind fun s => .go (delayIfPos s.cfg.tSwresetMs s)

/-- R97: SLPOUT and the wait after it. -/
def sendSlpout (s : State) : Ctl :=
  (command 0x11 [] s).bind fun s => .go (delayIfPos s.cfg.tSlpoutMs s)

/-- R98: COLMOD. -/
def sendColmod (s : State) : Ctl := command 0x3A [s.cfg.colmodValue] s

/-- R99: CASET for absolute columns `xs` to `xe`. -/
def sendCaset (xs xe : Word) (s : State) : Ctl := command 0x2A (be16 xs ++ be16 xe) s

/-- R100: RASET for absolute rows `ys` to `ye`. -/
def sendRaset (ys ye : Word) (s : State) : Ctl := command 0x2B (be16 ys ++ be16 ye) s

/-- R101: MADCTL for rotation code `r`; R20: `CUR_ROTATION` is written only after both transactions have
completed. -/
def sendMadctl (r : BitVec 2) (s : State) : Ctl :=
  (command 0x36 [madctlByte s.cfg r] s).bind fun s => .go { s with curRotation := some r }

/-- R102: RAMWR and its pixel stream. -/
def sendRamwr (pixels : List Word) (s : State) : Ctl := command 0x2C (be16Stream pixels) s

/-- R103: INVON. -/
def sendInvon (s : State) : Ctl := command 0x21 [] s

/-- R104: INVOFF. -/
def sendInvoff (s : State) : Ctl := command 0x20 [] s

/-- R105: DISPON and the wait after it. -/
def sendDispon (s : State) : Ctl :=
  (command 0x29 [] s).bind fun s => .go (delayIfPos s.cfg.tDisponMs s)

/-- R106: an opaque command and the wait after it. -/
def sendPanelCmd (op : Byte) (payload : List Byte) (delayMs : Nat) (s : State) : Ctl :=
  (command op payload s).bind fun s => .go (delayIfPos delayMs s)

/-! ### Where a wire command is sent

R59, R67, R102 to R104: the block sends a wire command where one of its own operations has come to it, and in no other
place. The operation says which command that is in `due`; the command is sent only where it is the one due. -/

/-- The sequence with `due` as given at its end. -/
def Ctl.withDue (d : Option Instr) : Ctl → Ctl
  | .go s => .go { s with due := d }
  | .raise e s => .raise e { s with due := d }

/-- A wire command: `send`, where the operation in progress has come to it. -/
def sendDue (i : Instr) (op : Byte) (send : State → Ctl) (s : State) : Ctl :=
  if s.due = some i then send { s with due := none }
  else .raise (.invalidState s.drvState (.wire op)) s

/-- An operation comes to a wire command of its sequence, with these operands, and sends it. -/
def perform (i : Instr) (op : Byte) (send : State → Ctl) (s : State) : Ctl :=
  (sendDue i op send { s with due := some i }).withDue s.due

/-! ### Rectangles -/

/-- R95: `SetWindow(x, y, w, h)`, column before row. -/
def setWindow (x y w h : Nat) (s : State) : Ctl :=
  let xs := BitVec.ofNat 16 (absXs s.cfg x)
  let xe := BitVec.ofNat 16 (absXe s.cfg x w)
  let ys := BitVec.ofNat 16 (absYs s.cfg y)
  let ye := BitVec.ofNat 16 (absYe s.cfg y h)
  (perform (.caset xs xe) 0x2A (sendCaset xs xe) s).bind (perform (.raset ys ye) 0x2B (sendRaset ys ye))

/-- R107: `PUSH_RECT_BODY(x, y, w, h, src)`, for the operation `tag`. -/
def pushRectBody (tag : OpTag) (x y w h : Nat) (src : List Word) (s : State) : Ctl :=
  if s.drvState ≠ .ready then .raise (.invalidState s.drvState tag) s
  else if w = 0 ∨ h = 0 then .go s
  else if windowFits s.cfg x y w h then (setWindow x y w h s).bind (perform (.ramwr src) 0x2C (sendRamwr src))
  else .raise (.invalidArgument .windowRange) s

/-! ### Ending an operation -/

/-- R21, R125: an operation that succeeds. -/
def succeed (v : Value) (s : State) : State :=
  { s with lastError := 0, results := s.results ++ [.ok v] }

/-- R130: an operation that raises error `e`. R135: there is no delegation, and every error goes to the one host, in
`results`. `inInit` says that the operation is INIT and its state check has
passed. R152: with `FAILED`, the panel's state is unknown (notes/assumptions/9.md). -/
def takeError (inInit : Bool) (e : OpError) (s : State) : State :=
  if inInit || errorFatal e then
    { s with
      lastError := errorCode e
      results := s.results ++ [.err e]
      drvState := .failed
      panel := unknownPanel s.free
      free := s.free + 1 }
  else { s with lastError := errorCode e, results := s.results ++ [.err e] }

/-- The end of an operation: success with a value read from the state, or the error taken. -/
def finish (inInit : Bool) (v : State → Value) : Ctl → Host.Outcome State Fault Refusal
  | .go s => .next (succeed (v s) s)
  | .raise e s => .next (takeError inInit e s)

/-- The end of a wire command, which is a part of an operation: the operation goes on, or the error ends it. -/
def endRow : Ctl → Host.Outcome State Fault Refusal
  | .go s => .next s
  | .raise e s => .next (takeError false e s)

/-- R127: an operation that is accepted in READY only. -/
def whenReady (tag : OpTag) (body : State → Ctl) (s : State) : Host.Outcome State Fault Refusal :=
  if s.drvState = .ready then finish false (fun _ => .unit) (body s)
  else .next (takeError false (.invalidState s.drvState tag) s)

/-- R144: block reset. R133: it is the way back from an error that set FAILED, after DISPOSE and before INIT; there
is no return from an error otherwise. It sets every element of R31 and issues no event. What is not the block's
stays: `CFG`, the frame buffer, the panel, and the histories of events and results. -/
def resetBlock (s : State) : State :=
  { s with
    drvState := .uninit
    curRotation := none
    lastError := 0
    lastFlushTiles := 0
    lastFlushBytes := 0
    hSpi := none
    hDc := none
    hRst := none
    hBl := none
    dcLevel := none
    rstLevel := none
    blLevel := none
    due := none
    dirty := List.replicate (tileCount s.cfg) false }

/-- R144: the driver states in which block reset is accepted. -/
def resetAllowed : DrvState → Bool
  | .uninit => true
  | .ready => false
  | .failed => false
  | .disposed => true

end Sys2Proof.Machine
end

