-- ==== Sys2Proof/Machine/Codec.lean ====
section
/-! DEFINITION. The RGB565 codec (spec/40_codec.md R73 to R80): pure operations that work in every driver
state, never raise, and write nothing but `LAST_ERROR`. -/

namespace Sys2Proof.Machine

/-- R74: PACK565. -/
def execPack565 (r g b : Byte) (s : State) : Host.Outcome State Fault Refusal :=
  .next (succeed (.word (pack r g b)) s)

/-- R75: PACK565A; the alpha operand is read and ignored (D19). -/
def execPack565a (r g b _a : Byte) (s : State) : Host.Outcome State Fault Refusal :=
  .next (succeed (.word (pack r g b)) s)

/-- R76: UNPACK565. -/
def execUnpack565 (c : Word) (s : State) : Host.Outcome State Fault Refusal :=
  .next (succeed (.rgb (widen5 (r5 c)) (widen6 (g6 c)) (widen5 (b5 c))) s)

/-- R78: BLEND565. -/
def execBlend565 (src dst : Word) (alpha : Byte) (s : State) : Host.Outcome State Fault Refusal :=
  .next (succeed (.word (blend src dst alpha)) s)

/-- R80: MODULATE565. -/
def execModulate565 (a b : Word) (s : State) : Host.Outcome State Fault Refusal :=
  .next (succeed (.word (modulate a b)) s)

end Sys2Proof.Machine
end

