-- ==== Sys2Proof/Machine/Framer.lean ====
section
/-! DEFINITION. The framer's host operations (spec/42_framer.md R109, R110), and each wire command (R96 to R106) as a
step of its own: sent where INIT, SET_ROTATION or a rectangle transfer has come to that command with these operands, and
turned away everywhere else (DESIGN CHOICE of what turning away is, notes/assumptions/3.md). -/

namespace Sys2Proof.Machine

/-- R109: PUSH_RECT. The state check comes before the count check (R129). -/
def execPushRect (x y w h : Word) (pixels : List Word) (s : State) : Host.Outcome State Fault Refusal :=
  whenReady (.host 0x1)
    (fun s =>
      if pixels.length = w.toNat * h.toNat then
        pushRectBody (.host 0x1) x.toNat y.toNat w.toNat h.toNat pixels s
      else .raise (.invalidArgument .pixelCount) s)
    s

/-- R110: PUSH_RECT_SOLID. -/
def execPushRectSolid (x y w h color : Word) (s : State) : Host.Outcome State Fault Refusal :=
  whenReady (.host 0x2)
    (pushRectBody (.host 0x2) x.toNat y.toNat w.toNat h.toNat
      (List.replicate (w.toNat * h.toNat) color))
    s

/-- R96: sent by INIT (step 3). -/
def execSwreset (s : State) : Host.Outcome State Fault Refusal :=
  endRow (sendDue .swreset 0x01 sendSwreset s)

/-- R97: sent by INIT (step 4). -/
def execSlpout (s : State) : Host.Outcome State Fault Refusal :=
  endRow (sendDue .slpout 0x11 sendSlpout s)

/-- R98: sent by INIT (step 5). -/
def execColmod (s : State) : Host.Outcome State Fault Refusal :=
  endRow (sendDue .colmod 0x3A sendColmod s)

/-- R99: sent by a rectangle transfer for its own absolute columns, which R107 has checked. -/
def execCaset (xs xe : Word) (s : State) : Host.Outcome State Fault Refusal :=
  endRow (sendDue (.caset xs xe) 0x2A (sendCaset xs xe) s)

/-- R100: sent by a rectangle transfer for its own absolute rows, directly after CASET. -/
def execRaset (ys ye : Word) (s : State) : Host.Outcome State Fault Refusal :=
  endRow (sendDue (.raset ys ye) 0x2B (sendRaset ys ye) s)

/-- R101: sent by INIT (step 8) and by SET_ROTATION. -/
def execMadctl (r : BitVec 2) (s : State) : Host.Outcome State Fault Refusal :=
  endRow (sendDue (.madctl r) 0x36 (sendMadctl r) s)

/-- R102: sent inside PUSH_RECT_BODY only, with the rectangle's own pixels, directly after its window. -/
def execRamwr (pixels : List Word) (s : State) : Host.Outcome State Fault Refusal :=
  endRow (sendDue (.ramwr pixels) 0x2C (sendRamwr pixels) s)

/-- R103: sent by INIT (step 7) when `INVERT` is true, and never otherwise. -/
def execInvon (s : State) : Host.Outcome State Fault Refusal :=
  endRow (sendDue .invon 0x21 sendInvon s)

/-- R104: sent by INIT (step 7) when `INVERT` is false, and never otherwise. -/
def execInvoff (s : State) : Host.Outcome State Fault Refusal :=
  endRow (sendDue .invoff 0x20 sendInvoff s)

/-- R105: sent by INIT (step 9). -/
def execDispon (s : State) : Host.Outcome State Fault Refusal :=
  endRow (sendDue .dispon 0x29 sendDispon s)

/-- R106, R2: sent by INIT (step 6), for an entry of `PANEL_INIT_TABLE` only, with its opcode, payload and delay. -/
def execPanelCmd (op : Byte) (payload : List Byte) (delayMs : Nat) (s : State) : Host.Outcome State Fault Refusal :=
  endRow (sendDue (.panelCmd op payload delayMs) op (sendPanelCmd op payload delayMs) s)

end Sys2Proof.Machine
end

