-- ==== Sys2Proof/Machine/Sequencer.lean ====
section
/-! DEFINITION. The command sequencer (spec/43_sequencer.md R116 to R123): INIT, SET_ROTATION, SET_BACKLIGHT,
DISPOSE and the reserved codes. -/

namespace Sys2Proof.Machine

/-! ### INIT (R116) -/

/-- Step 1: the serial port. -/
def openSpi (s : State) : Ctl :=
  let e := Event.spiOpen s.cfg.spiPath s.cfg.spiMode s.cfg.spiBits s.cfg.spiSpeedHz
  match openedHandle (nextAnswer s) with
  | some h => .go { logged e (.handle h) (drawn s) with hSpi := some h }
  | none => .raise (.configuration .spi) (logged e .err (drawn s))

/-- Step 1: one GPIO line. -/
def openLine (L : Line) (s : State) : Ctl :=
  let e := Event.gpioOpen L s.cfg.gpioChip (lineNumber s.cfg L) (lineLabel s.cfg L)
  match openedHandle (nextAnswer s) with
  | some h => .go (setHandle L (some h) (logged e (.handle h) (drawn s)))
  | none => .raise (.configuration (.gpio L)) (logged e .err (drawn s))

/-- Step 1: SPI, then DC, RST and the optional backlight line (D34). -/
def acquire (s : State) : Ctl :=
  (((openSpi s).bind (openLine .dc)).bind (openLine .rst)).bind fun s =>
    if hasBl s.cfg then openLine .bl s else .go s

/-- Step 2: one level of the reset pulse and the wait after it (R8, R118). -/
def pulse (level : Bit) (ms : Nat) (s : State) : Ctl :=
  (setLine .rst level s).bind fun s => .go (delay ms s)

/-- Step 2: high, low, high, with waits of at least 10, 20 and 120 ms. -/
def resetPulse (s : State) : Ctl :=
  ((pulse 1 tRstHigh1Ms s).bind (pulse 0 tRstLowMs)).bind (pulse 1 tRstHigh2Ms)

/-- Step 6: the panel table, in list order. -/
def sendTable : List PanelEntry → State → Ctl
  | [], s => .go s
  | e :: es, s => (perform (.panelCmd e.op e.payload e.delayMs) e.op (sendPanelCmd e.op e.payload e.delayMs) s).bind (sendTable es)

/-- Step 7: inversion per configuration. -/
def sendInversion (s : State) : Ctl :=
  if s.cfg.invert then perform .invon 0x21 sendInvon s else perform .invoff 0x20 sendInvoff s

/-- Step 8: the configured rotation. -/
def sendRotation (s : State) : Ctl := perform (.madctl s.cfg.rotation) 0x36 (sendMadctl s.cfg.rotation) s

/-- Steps 2 to 9. -/
def bringUp (s : State) : Ctl :=
  (((((((resetPulse s).bind (perform .swreset 0x01 sendSwreset)).bind (perform .slpout 0x11 sendSlpout)).bind
    (perform .colmod 0x3A sendColmod)).bind fun s => sendTable s.cfg.panelInitTable s).bind sendInversion).bind
    sendRotation).bind (perform .dispon 0x29 sendDispon)

/-- R71: the full-screen clear, as PUSH_RECT_BODY for INIT's operation code. -/
def clearScreen (s : State) : Ctl :=
  pushRectBody (.host 0x0) 0 0 s.cfg.panelW.toNat s.cfg.panelH.toNat
    (List.replicate (s.cfg.panelW.toNat * s.cfg.panelH.toNat) s.cfg.clearColor) s

/-- Steps 1 to 11. -/
def initBody (s : State) : Ctl :=
  ((acquire s).bind bringUp).bind fun s => clearScreen { s with drvState := .ready }

/-- R116: INIT. Its state check raises InvalidState and leaves the driver state; every later error sets FAILED
(R130). -/
def execInit (s : State) : Host.Outcome State Fault Refusal :=
  if s.drvState = .uninit then finish true (fun _ => .unit) (initBody s)
  else .next (takeError false (.invalidState s.drvState (.host 0x0)) s)

/-! ### Rotation, backlight -/

/-- R119: SET_ROTATION. -/
def execSetRotation (r : BitVec 2) (s : State) : Host.Outcome State Fault Refusal :=
  whenReady (.host 0x3) (perform (.madctl r) 0x36 (sendMadctl r)) s

/-- R120: SET_BACKLIGHT; without a backlight line it succeeds and issues no event. -/
def execSetBacklight (on : Bool) (s : State) : Host.Outcome State Fault Refusal :=
  whenReady (.host 0x4)
    (fun s => if hasBl s.cfg then setLine .bl (blLevelFor s.cfg on) s else .go s)
    s

/-! ### DISPOSE (R121) -/

/-- The serial port is closed if it is held; the answer is ignored. -/
def closeSpi (s : State) : State :=
  match s.hSpi with
  | some h => { logged (.spiClose h) .ignored (drawn s) with hSpi := none }
  | none => s

/-- A line is released if it is held; the answer is ignored. -/
def releaseLine (L : Line) (s : State) : State :=
  match lineHandle s L with
  | some h => setLevel L none (setHandle L none (logged (.gpioRelease L h) .ignored (drawn s)))
  | none => s

/-- Every resource, in the order SPI, DC, RST, BL (D26). -/
def releaseAll (s : State) : State :=
  releaseLine .bl (releaseLine .rst (releaseLine .dc (closeSpi s)))

/-- R121: DISPOSE, accepted in every state; it never raises (R134). -/
def execDispose (s : State) : Host.Outcome State Fault Refusal :=
  if s.drvState = .disposed then .next (succeed .unit s)
  else .next (succeed .unit { releaseAll s with drvState := .disposed })

/-! ### Reserved codes (R123) -/

/-- R123: code 0xE. -/
def execReservedE (s : State) : Host.Outcome State Fault Refusal :=
  .next (takeError false (.illegalOperation 0xE) s)

/-- R123: code 0xF. -/
def execReservedF (s : State) : Host.Outcome State Fault Refusal :=
  .next (takeError false (.illegalOperation 0xF) s)

end Sys2Proof.Machine
end

