-- ==== Sys2Proof/Machine/Tiles.lean ====
section
/-! DEFINITION. The dirty-tile change detector (spec/41_dirty_tiles.md R82 to R88). -/

namespace Sys2Proof.Machine

/-- R82: MARK_DIRTY_RECT. -/
def execMarkDirtyRect (x y w h : BitVec 32) (s : State) : Host.Outcome State Fault Refusal :=
  .next (succeed .unit { s with dirty := markedFlags s.cfg x y w h s.dirty })

/-- R84: MARK_ALL. -/
def execMarkAll (s : State) : Host.Outcome State Fault Refusal :=
  .next (succeed .unit { s with dirty := allFlags s.dirty })

/-- R87: `EXTRACT` of a rectangle. -/
def extractRect (r : Rect) (s : State) : List Word := (rectIndices s.cfg r).map (memRead s)

/-- R85: what follows the transmission of the tile with flat index `n` and rectangle `r`. -/
def tileServiced (n : Nat) (r : Rect) (s : State) : State :=
  { s with
    dirty := clearFlag s.dirty n
    lastFlushTiles := s.lastFlushTiles + 1
    lastFlushBytes := s.lastFlushBytes + BitVec.ofNat 64 (r.w * r.h * 2) }

/-- R85: one tile of FLUSH's loop; `8` is FLUSH's operation code. -/
def flushTile (n : Nat) (s : State) : Ctl :=
  if flagAt s.dirty n then
    let r := tileRectAt s.cfg n
    (pushRectBody (.host 0x8) r.x r.y r.w r.h (extractRect r s) s).bind fun s => .go (tileServiced n r s)
  else .go s

/-- R85: FLUSH's loop over flat indices, in the order given. -/
def flushTiles : List Nat → State → Ctl
  | [], s => .go s
  | n :: ns, s => (flushTile n s).bind (flushTiles ns)

/-- R85: both counters start at 0. -/
def flushStart (s : State) : State := { s with lastFlushTiles := 0, lastFlushBytes := 0 }

/-- R85: FLUSH, top to bottom and left to right, which is the order of the flat indices. R88: an error ends the loop. -/
def execFlush (s : State) : Host.Outcome State Fault Refusal :=
  finish false (fun t => .flushed t.lastFlushTiles t.lastFlushBytes)
    (flushTiles (List.range (tileCount s.cfg)) (flushStart s))

end Sys2Proof.Machine
end

