-- ==== Sys2Proof/Machine/Dispatch.lean ====
section
/-! DEFINITION. One arm for each instruction. -/

namespace Sys2Proof.Machine

def exec (i : Instr) (s : State) : Host.Outcome State Fault Refusal :=
  match i with
  -- the command sequencer and the framer's operations
  | .init => Sys2Proof.Machine.execInit s
  | .pushRect x y w h pixels => Sys2Proof.Machine.execPushRect x y w h pixels s
  | .pushRectSolid x y w h color => Sys2Proof.Machine.execPushRectSolid x y w h color s
  | .setRotation r => Sys2Proof.Machine.execSetRotation r s
  | .setBacklight on => Sys2Proof.Machine.execSetBacklight on s
  | .dispose => Sys2Proof.Machine.execDispose s
  -- the dirty-tile change detector
  | .markDirtyRect x y w h => Sys2Proof.Machine.execMarkDirtyRect x y w h s
  | .markAll => Sys2Proof.Machine.execMarkAll s
  | .flush => Sys2Proof.Machine.execFlush s
  -- the colour codec
  | .pack565 r g b => Sys2Proof.Machine.execPack565 r g b s
  | .pack565a r g b a => Sys2Proof.Machine.execPack565a r g b a s
  | .unpack565 c => Sys2Proof.Machine.execUnpack565 c s
  | .blend565 src dst alpha => Sys2Proof.Machine.execBlend565 src dst alpha s
  | .modulate565 a b => Sys2Proof.Machine.execModulate565 a b s
  -- the reserved codes
  | .reservedE => Sys2Proof.Machine.execReservedE s
  | .reservedF => Sys2Proof.Machine.execReservedF s
  -- the wire commands
  | .swreset => Sys2Proof.Machine.execSwreset s
  | .slpout => Sys2Proof.Machine.execSlpout s
  | .colmod => Sys2Proof.Machine.execColmod s
  | .caset xs xe => Sys2Proof.Machine.execCaset xs xe s
  | .raset ys ye => Sys2Proof.Machine.execRaset ys ye s
  | .madctl r => Sys2Proof.Machine.execMadctl r s
  | .ramwr pixels => Sys2Proof.Machine.execRamwr pixels s
  | .invon => Sys2Proof.Machine.execInvon s
  | .invoff => Sys2Proof.Machine.execInvoff s
  | .dispon => Sys2Proof.Machine.execDispon s
  | .panelCmd op payload delayMs => Sys2Proof.Machine.execPanelCmd op payload delayMs s

end Sys2Proof.Machine
end

