-- ==== Sys2Proof/Machine/Platform.lean ====
section
/-! DEFINITION. What the host and the platform do beside issuing operations (spec/60_exceptions.md R139): a
frame-buffer write, block reset (70_reset_and_hazards.md R144), and building an instance (R143, R9). -/

namespace Sys2Proof.Machine

/-- R33, R34, R139: the host writes one pixel between operations. An index that no pixel has does not exist. -/
def hostWrite (index : Nat) (value : Word) (s : State) : Host.Outcome State Fault Refusal :=
  if index < pixelCount s.cfg then .next { s with fb := Memory.write s.fb index value }
  else .fault (.noSuchPixel index)

/-- R144: block reset in UNINIT or DISPOSED; elsewhere it is forbidden (U15). -/
def platformReset (s : State) : Host.Outcome State Fault Refusal :=
  if resetAllowed s.drvState then .next (resetBlock s) else .refused .blockResetForbidden

/-- R143, R9: power-on builds an instance from a well-formed configuration only (U16). R154: a changed
configuration is a new instance. -/
def powerOn (c : Cfg) : Host.Outcome State Fault Refusal :=
  if c.wf then .next (State.built c) else .refused .illFormedConfig

/-- R71: the pseudo-operation `CLEAR c`. -/
def clearOp (cfg : Cfg) (color : Word) : Instr := .pushRectSolid 0 0 cfg.panelW cfg.panelH color

/-- R71: the pseudo-operation `FULL_REPAINT`. -/
def fullRepaint : List Instr := [.markAll, .flush]

/-- R69: a program is a list of operations performed in order; loading one hands it to the host port. -/
def withProgram (p : List Instr) (s : State) : State :=
  { s with inbox := p.map fun i => .op (encode i) }

end Sys2Proof.Machine
end

