-- ==== Sys2Proof/Machine/Fetch.lean ====
section
/-! DEFINITION. Taking the host's next input (spec/60_exceptions.md R139): decoding an operation's record and
performing it, a frame-buffer write, or block reset. -/

namespace Sys2Proof.Machine

/-- An operation: its record is decoded and the instruction performed; a record that is no instruction is
refused by name. -/
def performRecord (r : Record) (s : State) : Host.Outcome State Fault Refusal :=
  match decode r with
  | .ok i => exec i s
  | .error why => .refused (.undecodable why)

/-- One input of the host. -/
def performInput (i : Input) (s : State) : Host.Outcome State Fault Refusal :=
  match i with
  | .op r => performRecord r s
  | .fbWrite index value => hostWrite index value s
  | .blockReset => platformReset s

/-- R132: the block takes the host's next input; with none it waits. -/
def performNext (s : State) : Host.Outcome State Fault Refusal :=
  match s.inbox with
  | [] => .next s
  | i :: rest => performInput i { s with inbox := rest }

/-- The state in which the block's next operation is the one of a word numbered as the opcode table numbers
it. -/
def offerWord (s : State) (nbits w : Nat) : State :=
  { s with inbox := .op (tableRecord nbits w) :: s.inbox }

end Sys2Proof.Machine
end

