-- ==== Sys2Proof/Machine/Step.lean ====
section
/-! DEFINITION. One step of the machine: the host's next input, for a block that exists at all, which needs a
well-formed configuration (spec/00_scope.md R9). -/

namespace Sys2Proof.Machine

def step (s : State) : Host.Outcome State Fault Refusal :=
  if s.cfg.wf then performNext s else .refused .illFormedConfig

/-- The state with one instruction's record offered where the block takes its next one: at the head of the
host's inputs. -/
def State.withFetchWord (s : State) (nbits w : Nat) : State := offerWord s nbits w

end Sys2Proof.Machine
end

