-- ==== Sys2Proof/Machine/Trace.lean ====
section
/-! DEFINITION. What the event history says to a reader: the level of the DC line along it and the wire trace
(spec/00_scope.md R13), the trace notation of 30_encoding.md R70 as data, and the commands a reader of the wire
finds (R58). -/

namespace Sys2Proof.Machine

/-- R13, R24: the DC level after one more event: the level an answered setting drove, none after a setting
that failed or after the line is released. -/
def dcAfterEntry (level : Option Bit) (e : Entry) : Option Bit :=
  match e.ev with
  | .gpioSet .dc _ l => if e.reply = .ok then some l else none
  | .gpioRelease .dc _ => none
  | _ => level

/-- R13: the DC level most recently set along a history. -/
def dcAfter (h : List Entry) : Option Bit := h.foldl dcAfterEntry none

/-- R90: a write is successful when it was answered with its whole length. -/
def writeSucceeded (e : Entry) : Option (List Byte) :=
  match e.ev, e.reply with
  | .spiWrite _ bytes, .count n => if n = bytes.length then some bytes else none
  | _, _ => none

/-- R13: the wire trace from a given DC level: one pair for each successful write. -/
def wireTraceFrom (level : Option Bit) : List Entry → List (Option Bit × List Byte)
  | [] => []
  | e :: es =>
    match writeSucceeded e with
    | some bytes => (level, bytes) :: wireTraceFrom (dcAfterEntry level e) es
    | none => wireTraceFrom (dcAfterEntry level e) es

/-- R13: the wire trace of a history. -/
def wireTrace (h : List Entry) : List (Option Bit × List Byte) := wireTraceFrom none h

/-- R70: one line of the trace notation. -/
inductive TraceItem where
  | openOf (r : Resource)
  | closeSpi
  | release (L : Line)
  | gpio (L : Line) (level : Bit)
  | delay (ms : Nat)
  | cmd (op : Byte)
  | data (bytes : List Byte)
  | other (bytes : List Byte)
  deriving DecidableEq, Repr

/-- R70: an event in the notation; a write of one byte at the command level is `CMD`, a write at the data level
is `DATA`. -/
def traceItem (c : Cfg) (level : Option Bit) (e : Event) : TraceItem :=
  match e with
  | .spiOpen _ _ _ _ => .openOf .spi
  | .gpioOpen L _ _ _ => .openOf (.gpio L)
  | .spiClose _ => .closeSpi
  | .gpioRelease L _ => .release L
  | .gpioSet L _ l => .gpio L l
  | .delay ms => .delay ms
  | .spiWrite _ bytes =>
    if level = some (dcDataLevel c) then .data bytes
    else if level = some c.dcCmdLevel then
      match bytes with
      | [b] => .cmd b
      | _ => .other bytes
    else .other bytes

/-- R70: a history in the notation, from a given DC level. -/
def traceFrom (c : Cfg) (level : Option Bit) : List Entry → List TraceItem
  | [] => []
  | e :: es => traceItem c level e.ev :: traceFrom c (dcAfterEntry level e) es

/-- R70: a history in the notation. -/
def trace (c : Cfg) (h : List Entry) : List TraceItem := traceFrom c none h

/-- R58: the commands a reader finds in a wire trace: each is the byte sent at the command level, and its
payload is every data-level byte up to the next command. `current` is the command being read. -/
def readCommandsFrom (c : Cfg) (current : Option (Byte × List Byte)) :
    List (Option Bit × List Byte) → List (Byte × List Byte)
  | [] => current.toList
  | (level, bytes) :: rest =>
    if level = some c.dcCmdLevel then
      match bytes with
      | [b] => current.toList ++ readCommandsFrom c (some (b, [])) rest
      | _ => current.toList ++ readCommandsFrom c none rest
    else
      readCommandsFrom c (current.map fun p => (p.1, p.2 ++ bytes)) rest

/-- R58: the commands of a wire trace. -/
def readCommands (c : Cfg) (t : List (Option Bit × List Byte)) : List (Byte × List Byte) :=
  readCommandsFrom c none t

end Sys2Proof.Machine
end

