-- ==== Sys2Proof/Safety.lean ====
section
/-! DEFINITION. What a safe state is: the invariants of the block, each in the terms of one or two rules of the
spec, and the safe run over them. -/

namespace Sys2Proof.Safety

open Sys2Proof.Machine

/-- The frame buffer and the observer's GRAM are in canonical form, and the frame buffer lists pixels only
(R33, R43). -/
def MemoryCanonical (s : State) : Prop :=
  Memory.wf s.fb = true ∧ Memory.wf s.panel.gram = true ∧ ∀ e ∈ s.fb, e.1 < pixelCount s.cfg

/-- The configuration is well formed (R9) and `DIRTY` has one flag for each tile (R25). -/
def GridShaped (s : State) : Prop := s.cfg.wf = true ∧ s.dirty.length = tileCount s.cfg

/-- R19, R23: no handle is held in UNINIT or DISPOSED; in READY the block holds the serial port, DC and RST, and
the backlight line exactly when one is configured. -/
def HandlesOwned (s : State) : Prop :=
  ((s.drvState = .uninit ∨ s.drvState = .disposed) →
    s.hSpi = none ∧ s.hDc = none ∧ s.hRst = none ∧ s.hBl = none) ∧
  (s.drvState = .ready →
    s.hSpi.isSome = true ∧ s.hDc.isSome = true ∧ s.hRst.isSome = true ∧ s.hBl.isSome = hasBl s.cfg)

/-- R20: no rotation is on record in UNINIT, and one is in READY. -/
def RotationKnown (s : State) : Prop :=
  (s.drvState = .uninit → s.curRotation = none) ∧ (s.drvState = .ready → s.curRotation.isSome = true)

/-- R24: a level is known only on a line that is held. -/
def LevelsOwned (s : State) : Prop :=
  ∀ L : Line, (lineLevel s L).isSome = true → (lineHandle s L).isSome = true

/-- R13, R24: `DC_LEVEL` is the level that the event history last drove on the DC line. -/
def LevelMatchesHistory (s : State) : Prop := dcAfter s.events = s.dcLevel

/-- R40, R56: a write in the history has 1 to `MAX_XFER` bytes. -/
def WritesBounded (s : State) : Prop :=
  ∀ e ∈ s.events, ∀ h bytes, e.ev = .spiWrite h bytes →
    1 ≤ bytes.length ∧ bytes.length ≤ s.cfg.maxXfer

/-- R57, R151: a transaction on the wire has a known DC level, and one at the command level is a single byte. -/
def TransactionsFramed (s : State) : Prop :=
  ∀ t ∈ wireTrace s.events,
    (t.1 = some s.cfg.dcCmdLevel ∧ t.2.length = 1) ∨ t.1 = some (dcDataLevel s.cfg)

/-- Whether an entry of the history is a successful open of a resource (R23). -/
def isOpen (r : Resource) (e : Entry) : Bool :=
  match r, e.ev, e.reply with
  | .spi, .spiOpen _ _ _ _, .handle _ => true
  | .gpio L, .gpioOpen L' _ _ _, .handle _ => decide (L = L')
  | _, _, _ => false

/-- Whether an entry of the history releases a resource (R121). -/
def isRelease (r : Resource) (e : Entry) : Bool :=
  match r, e.ev with
  | .spi, .spiClose _ => true
  | .gpio L, .gpioRelease L' _ => decide (L = L')
  | _, _ => false

/-- The handle the block holds of a resource (R23). -/
def held (s : State) : Resource → Option Nat
  | .spi => s.hSpi
  | .gpio L => lineHandle s L

/-- R122: over the history, a resource has been released exactly as often as it was acquired, less the handle
still held. -/
def ReleasesBalanced (s : State) : Prop :=
  ∀ r : Resource,
    s.events.countP (isOpen r) = s.events.countP (isRelease r) + (if (held s r).isSome then 1 else 0)

/-- R21, R125: `LAST_ERROR` is one of the six codes. -/
def ErrorCodeLegal (s : State) : Prop := s.lastError.toNat ≤ 5

/-- R5, R16, R41: between operations no operation is in progress, so no wire command is due. -/
def NothingDue (s : State) : Prop := s.due = none

/-- Every invariant together. -/
structure Inv (s : State) : Prop where
  memory   : MemoryCanonical s
  grid     : GridShaped s
  handles  : HandlesOwned s
  rotation : RotationKnown s
  levels   : LevelsOwned s
  history  : LevelMatchesHistory s
  writes   : WritesBounded s
  framed   : TransactionsFramed s
  balanced : ReleasesBalanced s
  code     : ErrorCodeLegal s
  due      : NothingDue s

/-- The environment's next `k` answers are listed and are good: every open yields a handle, every write is
answered in full, every line setting is `Ok` (R138's premise "every write is answered in full"). -/
def AnswersGood (k : Nat) (s : State) : Prop :=
  k ≤ s.answers.length ∧ ∀ a ∈ s.answers.take k, ∃ v, a = .good v

/-- A run of `n` steps that ends without a fault or a refusal. -/
def runsSafely (n : Nat) (s : State) : Prop := ∃ t, Host.Core.run Sys2Proof.core n s = .next t

end Sys2Proof.Safety
end

