-- ==== Sys2Proof/Certificates/Slice0/Obligations.lean ====
section
/-! DEFINITION. The statements about the machine. The definitions of the namespace `Claims` say, in the terms of
the spec's rules, what an operation logs, draws and returns. -/

namespace Sys2Proof.Claims

open Sys2Proof.Machine Sys2Proof.Safety

/-! ### Words the statements share -/

/-- R52: the operation code in the record of a host operation; none for a wire command. -/
def hostCode (i : Instr) : Option (BitVec 4) :=
  match (encode i).port, (encode i).bytes with
  | .host, first :: _ => some (opCode first)
  | _, _ => none

/-- The state after an operation whose only effects are its result and `LAST_ERROR`. -/
def ended (r : Result) (code : BitVec 3) (s : State) : State :=
  { s with lastError := code, results := s.results ++ [r] }

/-- R72: the red lane, c[15:11]. -/
def red (c : Word) : Nat := c.toNat / 2048
/-- R72: the green lane, c[10:5]. -/
def green (c : Word) : Nat := c.toNat / 32 % 64
/-- R72: the blue lane, c[4:0]. -/
def blue (c : Word) : Nat := c.toNat % 32

/-! ### Events of the framing (R90 to R95) -/

/-- A line setting that was answered `Ok`. -/
def setEntry (s : State) (L : Line) (l : Bit) : Entry := ⟨.gpioSet L (lineHandle s L) l, .ok⟩

/-- A transaction that was answered in full. -/
def writeEntry (s : State) (bytes : List Byte) : Entry := ⟨.spiWrite s.hSpi bytes, .count bytes.length⟩

/-- R92, R94: the data phase of a command. -/
def dataEntries (s : State) (payload : List Byte) : List Entry :=
  if payload = [] then []
  else setEntry s .dc (dcDataLevel s.cfg) :: (chunks s.cfg.maxXfer payload).map (writeEntry s)

/-- R94: a whole command. -/
def commandEntries (s : State) (op : Byte) (payload : List Byte) : List Entry :=
  [setEntry s .dc s.cfg.dcCmdLevel, writeEntry s [op]] ++ dataEntries s payload

/-- R106, R116: a wait that is a parameter. -/
def delayEntries (ms : Nat) : List Entry := if ms = 0 then [] else [⟨.delay ms, .none⟩]

/-- How many answers a command with `n` payload bytes draws (R93, R94). -/
def commandDraws (c : Cfg) (n : Nat) : Nat := if n = 0 then 2 else 3 + ceilDiv n c.maxXfer

/-- R44, R107: the absolute ends of a rectangle fit 16 bits. -/
def fits (c : Cfg) (x y w h : Nat) : Prop :=
  x + w - 1 + c.colOffset.toNat ≤ 0xFFFF ∧ y + h - 1 + c.rowOffset.toNat ≤ 0xFFFF

/-- R44, R64: CASET's payload. -/
def columnBytes (c : Cfg) (x w : Nat) : List Byte :=
  be16 (BitVec.ofNat 16 (x + c.colOffset.toNat)) ++ be16 (BitVec.ofNat 16 (x + w - 1 + c.colOffset.toNat))

/-- R44, R64: RASET's payload. -/
def rowBytes (c : Cfg) (y h : Nat) : List Byte :=
  be16 (BitVec.ofNat 16 (y + c.rowOffset.toNat)) ++ be16 (BitVec.ofNat 16 (y + h - 1 + c.rowOffset.toNat))

/-- R95, R107: a whole rectangle. -/
def rectEntries (s : State) (x y w h : Nat) (src : List Word) : List Entry :=
  commandEntries s 0x2A (columnBytes s.cfg x w) ++ commandEntries s 0x2B (rowBytes s.cfg y h) ++
    commandEntries s 0x2C (be16Stream src)

/-- How many answers a rectangle of `n` pixels draws. -/
def rectDraws (c : Cfg) (n : Nat) : Nat := commandDraws c 4 + commandDraws c 4 + commandDraws c (2 * n)

/-- The state after an operation that ended well, logged `new`, drew `draws` answers, left the DC level `dc` and
the panel `p`, and changed nothing else. -/
def sent (new : List Entry) (draws : Nat) (dc : Option Bit) (p : Panel) (s : State) : State :=
  { s with
    dcLevel := dc
    panel := p
    events := s.events ++ new
    answers := s.answers.drop draws
    free := s.free + new.length
    lastError := 0
    results := s.results ++ [.ok .unit] }

/-- The state after a wire command that an operation has come to and that went through: it logged `new`, drew `draws`
answers, left the DC level `dc`, the panel `p` and the rotation `rot`, and changed nothing else; the operation goes on. -/
def wired (new : List Entry) (draws : Nat) (dc : Option Bit) (p : Panel) (rot : Option (BitVec 2)) (s : State) : State :=
  { s with
    due := none
    curRotation := rot
    dcLevel := dc
    panel := p
    events := s.events ++ new
    answers := s.answers.drop draws
    free := s.free + new.length }

/-- The answer and the error with which an event fails, where an answer of the environment makes it fail
(R90, R91). -/
def failsWith (e : Entry) (a : Answer) : Option (Reply × OpError) :=
  match e.ev, a with
  | .gpioSet L _ _, .short _ => some (.err, .transportLine L)
  | .gpioSet L _ _, .bad => some (.err, .transportLine L)
  | .spiWrite _ bytes, .bad => some (.err, .transportWrite bytes.length none)
  | .spiWrite _ bytes, .short n =>
    if n < bytes.length then some (.count n, .transportWrite bytes.length (some n)) else none
  | _, _ => none

/-! ### Wire commands (R59, R68, R96 to R106) -/

/-- The opcode, the payload and the wait after it of a wire command; none for a host operation. -/
def wireCommand (c : Cfg) (i : Instr) : Option (Byte × List Byte × Nat) :=
  match i with
  | .swreset => some (0x01, [], c.tSwresetMs)
  | .slpout => some (0x11, [], c.tSlpoutMs)
  | .colmod => some (0x3A, [c.colmodValue], 0)
  | .caset xs xe => some (0x2A, be16 xs ++ be16 xe, 0)
  | .raset ys ye => some (0x2B, be16 ys ++ be16 ye, 0)
  | .madctl r => some (0x36, [rotByte c.madctlRot r ||| c.bgrMask], 0)
  | .ramwr ps => some (0x2C, be16Stream ps, 0)
  | .invon => some (0x21, [], 0)
  | .invoff => some (0x20, [], 0)
  | .dispon => some (0x29, [], c.tDisponMs)
  | .panelCmd op payload d => some (op, payload, d)
  | .init => none
  | .pushRect _ _ _ _ _ => none
  | .pushRectSolid _ _ _ _ _ => none
  | .setRotation _ => none
  | .setBacklight _ => none
  | .dispose => none
  | .markDirtyRect _ _ _ _ => none
  | .markAll => none
  | .flush => none
  | .pack565 _ _ _ => none
  | .pack565a _ _ _ _ => none
  | .unpack565 _ => none
  | .blend565 _ _ _ => none
  | .modulate565 _ _ => none
  | .reservedE => none
  | .reservedF => none

/-- The rotation on record after a wire command that went through. -/
def rotationAfter (i : Instr) (old : Option (BitVec 2)) : Option (BitVec 2) :=
  match i with
  | .madctl r => some r
  | _ => old

/-! ### Tiles (R25, R85) -/

/-- R25: pixel (px, py) lies in the area of tile (tx, ty). -/
def inTile (c : Cfg) (tx ty px py : Nat) : Prop :=
  tx * c.tileW ≤ px ∧ px < min ((tx + 1) * c.tileW) c.panelW.toNat ∧
    ty * c.tileH ≤ py ∧ py < min ((ty + 1) * c.tileH) c.panelH.toNat

/-- The dirty tiles in row-major order, by flat index. -/
def dirtyTiles (s : State) : List Nat := (List.range (tileCount s.cfg)).filter (flagAt s.dirty)

/-- How many pixels a tile has. -/
def tilePixels (c : Cfg) (n : Nat) : Nat := (tileRectAt c n).w * (tileRectAt c n).h

/-- R85: the events of one tile. -/
def tileEntries (s : State) (n : Nat) : List Entry :=
  rectEntries s (tileRectAt s.cfg n).x (tileRectAt s.cfg n).y (tileRectAt s.cfg n).w (tileRectAt s.cfg n).h
    (extractRect (tileRectAt s.cfg n) s)

/-- The absolute ends of a tile fit 16 bits. -/
def tileFits (c : Cfg) (n : Nat) : Prop :=
  fits c (tileRectAt c n).x (tileRectAt c n).y (tileRectAt c n).w (tileRectAt c n).h

/-! ### INIT (R116) -/

/-- The handle with which the environment's coming answer `k` answers an open. -/
def goodValue (s : State) (k : Nat) : Nat :=
  match s.answers[k]? with
  | some (.good v) => v
  | _ => 0

/-- Step 1: the resources INIT opens, in order. -/
def openOrder (c : Cfg) : List Resource :=
  [.spi, .gpio .dc, .gpio .rst] ++ if hasBl c then [.gpio .bl] else []

/-- Step 1: the event that opens a resource. -/
def openEvent (c : Cfg) (r : Resource) : Event :=
  match r with
  | .spi => .spiOpen c.spiPath c.spiMode c.spiBits c.spiSpeedHz
  | .gpio L => .gpioOpen L c.gpioChip (lineNumber c L) (lineLabel c L)

/-- The first `k` opens, answered with handles. -/
def openEntries (s : State) (k : Nat) : List Entry :=
  ((openOrder s.cfg).take k).zipIdx.map fun p => ⟨openEvent s.cfg p.1, .handle (goodValue s p.2)⟩

/-- The state's handles after the first `k` opens. -/
def withHandles (s : State) (k : Nat) : State :=
  { s with
    hSpi := if 0 < k then some (goodValue s 0) else s.hSpi
    hDc := if 1 < k then some (goodValue s 1) else s.hDc
    hRst := if 2 < k then some (goodValue s 2) else s.hRst
    hBl := if 3 < k then some (goodValue s 3) else s.hBl }

/-- Steps 2 to 8, in a state that holds the handles. -/
def beforeDispon (u : State) : List Entry :=
  [setEntry u .rst 1, ⟨.delay 10, .none⟩, setEntry u .rst 0, ⟨.delay 20, .none⟩, setEntry u .rst 1,
    ⟨.delay 120, .none⟩] ++
  commandEntries u 0x01 [] ++ delayEntries u.cfg.tSwresetMs ++
  commandEntries u 0x11 [] ++ delayEntries u.cfg.tSlpoutMs ++
  commandEntries u 0x3A [u.cfg.colmodValue] ++
  u.cfg.panelInitTable.flatMap (fun e => commandEntries u e.op e.payload ++ delayEntries e.delayMs) ++
  commandEntries u (if u.cfg.invert then 0x21 else 0x20) [] ++
  commandEntries u 0x36 [rotByte u.cfg.madctlRot u.cfg.rotation ||| u.cfg.bgrMask]

/-- Steps 2 to 9, in a state that holds the handles. -/
def bringUpEntries (u : State) : List Entry :=
  beforeDispon u ++ commandEntries u 0x29 [] ++ delayEntries u.cfg.tDisponMs

/-- Whether an event draws an answer: each one but a wait (R12, R138). -/
def drawsAnswer (e : Entry) : Bool :=
  match e.ev with
  | .delay _ => false
  | _ => true

/-- R91: the RST level after one more event, read as `dcAfterEntry` reads the DC level. -/
def rstAfterEntry (level : Option Bit) (e : Entry) : Option Bit :=
  match e.ev with
  | .gpioSet .rst _ l => if e.reply = .ok then some l else none
  | .gpioRelease .rst _ => none
  | _ => level

/-- How many answers steps 2 to 9 draw. -/
def bringUpDraws (c : Cfg) : Nat :=
  3 + commandDraws c 0 + commandDraws c 0 + commandDraws c 1 +
    (c.panelInitTable.map fun e => commandDraws c e.payload.length).sum +
    commandDraws c 0 + commandDraws c 1 + commandDraws c 0

/-- Step 11: the pixels of the clear. -/
def clearPixels (c : Cfg) : List Word := List.replicate (c.panelW.toNat * c.panelH.toNat) c.clearColor

/-- R96 to R106: the command bytes an operation may send. INIT sends INVON only if `INVERT` says so and INVOFF only if it does
not, but for an entry of the panel table with that opcode. -/
def mayCommand (c : Cfg) (i : Instr) (b : Byte) : Prop :=
  match i with
  | .init =>
    b ∈ [0x01, 0x11, 0x3A, if c.invert then 0x21 else 0x20, 0x36, 0x29, 0x2A, 0x2B, 0x2C] ∨
      ∃ e ∈ c.panelInitTable, b = e.op
  | .pushRect _ _ _ _ _ => b ∈ [0x2A, 0x2B, 0x2C]
  | .pushRectSolid _ _ _ _ _ => b ∈ [0x2A, 0x2B, 0x2C]
  | .flush => b ∈ [0x2A, 0x2B, 0x2C]
  | .setRotation _ => b = 0x36
  | _ => False

/-- A line of the trace notation that is a line setting or a wait. -/
def isLineOrDelay : TraceItem → Bool
  | .gpio _ _ => true
  | .delay _ => true
  | _ => false

/-! ### Results and states (R19, R125, R127) -/

/-- R127: the driver states in which a host operation is accepted. -/
def accepts (i : Instr) (d : DrvState) : Bool :=
  match i with
  | .init => d == .uninit
  | .pushRect _ _ _ _ _ => d == .ready
  | .pushRectSolid _ _ _ _ _ => d == .ready
  | .setRotation _ => d == .ready
  | .setBacklight _ => d == .ready
  | _ => true

/-- A TransportWriteError. -/
def isTransportError : Result → Bool
  | .err (.transportWrite _ _) => true
  | .err (.transportLine _) => true
  | _ => false

/-- R125: the code of each error kind. -/
def codeOf : Result → BitVec 3
  | .ok _ => 0
  | .err (.configuration _) => 1
  | .err (.transportWrite _ _) => 2
  | .err (.transportLine _) => 2
  | .err (.invalidState _ _) => 3
  | .err (.invalidArgument _) => 4
  | .err (.illegalOperation _) => 5

/-- R125: the host operations that the table lets raise each kind. -/
def mayRaise (i : Instr) (r : Result) : Bool :=
  match r, i with
  | .ok _, .reservedE => false
  | .ok _, .reservedF => false
  | .ok _, _ => true
  | .err (.configuration _), .init => true
  | .err (.configuration _), _ => false
  | .err (.illegalOperation _), .reservedE => true
  | .err (.illegalOperation _), .reservedF => true
  | .err (.illegalOperation _), _ => false
  | .err _, .init => true
  | .err _, .pushRect _ _ _ _ _ => true
  | .err _, .pushRectSolid _ _ _ _ _ => true
  | .err _, .flush => true
  | .err (.invalidArgument _), _ => false
  | .err _, .setRotation _ => true
  | .err _, .setBacklight _ => true
  | .err _, _ => false

/-- R19: the driver state after a host operation that ended with a result. -/
def nextDrvState (i : Instr) (d : DrvState) (r : Result) : DrvState :=
  match i, d, r with
  | .dispose, _, _ => .disposed
  | .init, .uninit, .ok _ => .ready
  | .init, .uninit, .err _ => .failed
  | _, _, r => if isTransportError r then .failed else d

/-! ### DISPOSE (R121) -/

/-- The events with which every held resource is released, in order. -/
def releaseEntries (s : State) : List Entry :=
  (s.hSpi.toList.map fun h => ⟨.spiClose h, .ignored⟩) ++
  (s.hDc.toList.map fun h => ⟨.gpioRelease .dc h, .ignored⟩) ++
  (s.hRst.toList.map fun h => ⟨.gpioRelease .rst h, .ignored⟩) ++
  (s.hBl.toList.map fun h => ⟨.gpioRelease .bl h, .ignored⟩)

/-- What a line's level is after its release: none if it was held. -/
def levelReleased (h : Option Nat) (l : Option Bit) : Option Bit := if h.isSome then none else l

end Sys2Proof.Claims

open Sys2Proof Sys2Proof.Machine Sys2Proof.Safety Sys2Proof.Claims

/-! ## The colour codec (R72 to R80) -/

/-- R74: PACK565 keeps r[7:3], g[7:2] and b[7:3], in every driver state, and writes nothing but its result. -/
def Obligations.PackKeepsTopBits : Prop :=
  ∀ (r g b : Byte) (s : State), hostCode (.pack565 r g b) = some 0x9 ∧
    ∃ w : Word, exec (.pack565 r g b) s = .next (ended (.ok (.word w)) 0 s) ∧
      red w = r.toNat >>> 3 ∧ green w = g.toNat >>> 2 ∧ blue w = b.toNat >>> 3

/-- R75: PACK565A's result is PACK565's, whatever the alpha operand. -/
def Obligations.PackAlphaIgnored : Prop :=
  ∀ (r g b a : Byte) (s : State), hostCode (.pack565a r g b a) = some 0xA ∧
    ∃ w : Word, exec (.pack565a r g b a) s = .next (ended (.ok (.word w)) 0 s) ∧
      exec (.pack565 r g b) s = .next (ended (.ok (.word w)) 0 s)

/-- R76: UNPACK565 widens each lane by bit replication. -/
def Obligations.UnpackReplicatesBits : Prop :=
  ∀ (c : Word) (s : State), hostCode (.unpack565 c) = some 0xB ∧
    ∃ r8 g8 b8 : Byte, exec (.unpack565 c) s = .next (ended (.ok (.rgb r8 g8 b8)) 0 s) ∧
      r8.toNat = (red c <<< 3) ||| (red c >>> 2) ∧ g8.toNat = (green c <<< 2) ||| (green c >>> 4) ∧
      b8.toNat = (blue c <<< 3) ||| (blue c >>> 2)

/-- R77: the exact error of unpacking a packed triple, its bounds, and that packing an unpacked word gives it
back. -/
def Obligations.PackUnpackRoundTrip : Prop :=
  ∀ s : State,
    (∀ r g b : Byte, ∃ (w : Word) (r' g' b' : Byte),
      exec (.pack565 r g b) s = .next (ended (.ok (.word w)) 0 s) ∧
      exec (.unpack565 w) s = .next (ended (.ok (.rgb r' g' b')) 0 s) ∧
      (r.toNat : Int) - r'.toNat = (r.toNat % 8 : Nat) - (r.toNat >>> 5 : Nat) ∧
      (g.toNat : Int) - g'.toNat = (g.toNat % 4 : Nat) - (g.toNat >>> 6 : Nat) ∧
      (b.toNat : Int) - b'.toNat = (b.toNat % 8 : Nat) - (b.toNat >>> 5 : Nat) ∧
      ((r.toNat : Int) - r'.toNat).natAbs ≤ 7 ∧ ((g.toNat : Int) - g'.toNat).natAbs ≤ 3 ∧
      ((b.toNat : Int) - b'.toNat).natAbs ≤ 7) ∧
    (∀ c : Word, ∃ r g b : Byte,
      exec (.unpack565 c) s = .next (ended (.ok (.rgb r g b)) 0 s) ∧
      exec (.pack565 r g b) s = .next (ended (.ok (.word c)) 0 s))

/-- R78: each lane of BLEND565 is the truncated weighted mean of its own two lanes, at most the larger of them;
equal operands give themselves. -/
def Obligations.BlendIsWeightedMean : Prop :=
  ∀ (src dst : Word) (alpha : Byte) (s : State), hostCode (.blend565 src dst alpha) = some 0xC ∧
    (∃ w : Word, exec (.blend565 src dst alpha) s = .next (ended (.ok (.word w)) 0 s) ∧
      red w = (red src * alpha.toNat + red dst * (255 - alpha.toNat)) / 255 ∧
      green w = (green src * alpha.toNat + green dst * (255 - alpha.toNat)) / 255 ∧
      blue w = (blue src * alpha.toNat + blue dst * (255 - alpha.toNat)) / 255 ∧
      red w ≤ max (red src) (red dst) ∧ green w ≤ max (green src) (green dst) ∧
      blue w ≤ max (blue src) (blue dst)) ∧
    exec (.blend565 src src alpha) s = .next (ended (.ok (.word src)) 0 s)

/-- R79. -/
def Obligations.BlendEndPoints : Prop :=
  ∀ (src dst : Word) (s : State),
    exec (.blend565 src dst 255) s = .next (ended (.ok (.word src)) 0 s) ∧
    exec (.blend565 src dst 0) s = .next (ended (.ok (.word dst)) 0 s)

/-- R80: each lane of MODULATE565 is the truncated product of its own two lanes as fractions of the lane's
maximum; the laws the rule draws from it. -/
def Obligations.ModulateMultipliesLanes : Prop :=
  ∀ (a b : Word) (s : State), hostCode (.modulate565 a b) = some 0xD ∧
    (∃ w : Word, exec (.modulate565 a b) s = .next (ended (.ok (.word w)) 0 s) ∧
      exec (.modulate565 b a) s = .next (ended (.ok (.word w)) 0 s) ∧
      red w = red a * red b / 31 ∧ green w = green a * green b / 63 ∧ blue w = blue a * blue b / 31 ∧
      red w ≤ min (red a) (red b) ∧ green w ≤ min (green a) (green b) ∧ blue w ≤ min (blue a) (blue b)) ∧
    exec (.modulate565 a 0xFFFF) s = .next (ended (.ok (.word a)) 0 s) ∧
    exec (.modulate565 a 0x0000) s = .next (ended (.ok (.word 0)) 0 s)

/-! ## The dirty tiles (R82 to R89) -/

/-- R83, and R82's frame: after MARK_DIRTY_RECT a tile is dirty exactly when it was, or when its area shares a
pixel with the rectangle; nothing else changes but `LAST_ERROR` and the result. All sums are exact. -/
def Obligations.MarkRectMarksOverlappedTiles : Prop :=
  ∀ (x y w h : BitVec 32) (s : State), s.cfg.wf = true → s.dirty.length = tileCount s.cfg →
    hostCode (.markDirtyRect x y w h) = some 0x6 ∧
    ∃ flags : List Bool, flags.length = s.dirty.length ∧
      exec (.markDirtyRect x y w h) s = .next (ended (.ok .unit) 0 { s with dirty := flags }) ∧
      ∀ tx ty : Nat, tx < tilesX s.cfg → ty < tilesY s.cfg →
        (flagAt flags (ty * tilesX s.cfg + tx) = true ↔
          dirtyAt s tx ty = true ∨
            (0 < w.toInt ∧ 0 < h.toInt ∧ ∃ px py : Nat, inTile s.cfg tx ty px py ∧
              x.toInt ≤ px ∧ (px : Int) < x.toInt + w.toInt ∧
              y.toInt ≤ py ∧ (py : Int) < y.toInt + h.toInt))

/-- R84: MARK_ALL sets every flag, in every driver state; a second one changes no flag. -/
def Obligations.MarkAllMarksEveryTile : Prop :=
  ∀ s : State, s.dirty.length = tileCount s.cfg → hostCode .markAll = some 0x7 ∧
    ∃ t : State, exec .markAll s = .next t ∧
      t = ended (.ok .unit) 0 { s with dirty := List.replicate (tileCount s.cfg) true } ∧
      (∀ tx ty : Nat, tx < tilesX s.cfg → ty < tilesY s.cfg → dirtyAt t tx ty = true) ∧
      exec .markAll t = .next (ended (.ok .unit) 0 t)

/-- R49: each marking operation leaves the same flags when it is applied twice. -/
def Obligations.MarkingIsIdempotent : Prop :=
  ∀ (i : Instr) (s : State), (i = .markAll ∨ ∃ x y w h, i = .markDirtyRect x y w h) →
    ∃ t u : State, exec i s = .next t ∧ exec i t = .next u ∧ u.dirty = t.dirty

/-- R86: a tile's rectangle, clipped at the right and bottom edges; it is not empty and lies in the display. -/
def Obligations.TileRectClippedToDisplay : Prop :=
  ∀ (c : Cfg) (tx ty : Nat), c.wf = true → tx < tilesX c → ty < tilesY c →
    (tileRect c tx ty).x = tx * c.tileW ∧ (tileRect c tx ty).y = ty * c.tileH ∧
    ((tileRect c tx ty).w : Int) = min (c.tileW : Int) (c.panelW.toNat - tx * c.tileW) ∧
    ((tileRect c tx ty).h : Int) = min (c.tileH : Int) (c.panelH.toNat - ty * c.tileH) ∧
    1 ≤ (tileRect c tx ty).w ∧ 1 ≤ (tileRect c tx ty).h ∧
    (tileRect c tx ty).x + (tileRect c tx ty).w ≤ c.panelW.toNat ∧
    (tileRect c tx ty).y + (tileRect c tx ty).h ≤ c.panelH.toNat

/-- R25, R86, R89: every pixel of the display lies in the rectangle of exactly one tile, the one whose area by R25 has
it. -/
def Obligations.TilesPartitionDisplay : Prop :=
  ∀ (c : Cfg) (px py : Nat), c.wf = true → px < c.panelW.toNat → py < c.panelH.toNat →
    ∃ n : Nat, n < tileCount c ∧ inTile c (n % tilesX c) (n / tilesX c) px py ∧
      ∀ m : Nat, m < tileCount c →
        (((tileRectAt c m).x ≤ px ∧ px < (tileRectAt c m).x + (tileRectAt c m).w ∧
          (tileRectAt c m).y ≤ py ∧ py < (tileRectAt c m).y + (tileRectAt c m).h) ↔ m = n)

/-- R87: EXTRACT reads the rectangle row by row. -/
def Obligations.ExtractIsRowMajor : Prop :=
  ∀ (s : State) (r : Rect), (extractRect r s).length = r.w * r.h ∧
    ∀ i j : Nat, i < r.w → j < r.h →
      (extractRect r s)[j * r.w + i]? = some (memRead s ((r.y + j) * s.cfg.panelW.toNat + (r.x + i)))

/-- R85: a FLUSH in READY that the environment answers well. It sends each dirty tile as one rectangle, in
row-major order, clears every flag, counts tiles and bytes, and changes nothing else. -/
def Obligations.FlushSendsDirtyTiles : Prop :=
  ∀ s : State, s.cfg.wf = true → s.dirty.length = tileCount s.cfg → s.drvState = .ready →
    (∀ n ∈ dirtyTiles s, tileFits s.cfg n) →
    AnswersGood ((dirtyTiles s).map fun n => rectDraws s.cfg (tilePixels s.cfg n)).sum s →
    ∃ t : State, exec .flush s = .next t ∧
      t.lastFlushTiles.toNat = (dirtyTiles s).length ∧
      t.lastFlushBytes.toNat = ((dirtyTiles s).map fun n => tilePixels s.cfg n * 2).sum ∧
      t = { s with
        dirty := List.replicate (tileCount s.cfg) false
        lastFlushTiles := t.lastFlushTiles
        lastFlushBytes := t.lastFlushBytes
        dcLevel := if dirtyTiles s = [] then s.dcLevel else some (dcDataLevel s.cfg)
        panel := t.panel
        events := s.events ++ (dirtyTiles s).flatMap (tileEntries s)
        answers := s.answers.drop ((dirtyTiles s).map fun n => rectDraws s.cfg (tilePixels s.cfg n)).sum
        free := s.free + ((dirtyTiles s).flatMap (tileEntries s)).length
        lastError := 0
        results := s.results ++ [.ok (.flushed t.lastFlushTiles t.lastFlushBytes)] }

/-- R85, R147: a FLUSH with no dirty tile returns (0, 0) without an event, in every driver state. -/
def Obligations.FlushOfCleanGridIsSilent : Prop :=
  ∀ s : State, dirtyTiles s = [] →
    exec .flush s =
      .next (ended (.ok (.flushed 0 0)) 0 { s with lastFlushTiles := 0, lastFlushBytes := 0 })

/-- R89: a FLUSH that ends well has sent exactly the dirty tiles' rectangles; the bytes it returns are the bytes
of their pixel streams, two for each pixel. After MARK_ALL they are those of the whole display. -/
def Obligations.FlushBytesLaw : Prop :=
  (∀ (s t : State) (n : BitVec 32) (b : BitVec 64), s.cfg.wf = true → s.dirty.length = tileCount s.cfg →
    exec .flush s = .next t → t.results = s.results ++ [.ok (.flushed n b)] →
    t.events = s.events ++ (dirtyTiles s).flatMap (tileEntries s) ∧
    n.toNat = (dirtyTiles s).length ∧
    b.toNat = ((dirtyTiles s).map fun k => tilePixels s.cfg k * 2).sum ∧
    b.toNat =
      ((dirtyTiles s).map fun k => (be16Stream (extractRect (tileRectAt s.cfg k) s)).length).sum) ∧
  (∀ (s t u : State) (n : BitVec 32) (b : BitVec 64), s.cfg.wf = true → s.dirty.length = tileCount s.cfg →
    exec .markAll s = .next t → exec .flush t = .next u →
    u.results = t.results ++ [.ok (.flushed n b)] →
    n.toNat = tilesX s.cfg * tilesY s.cfg ∧ b.toNat = s.cfg.panelW.toNat * s.cfg.panelH.toNat * 2)

/-- R88: a FLUSH that ends with an error has stopped at a dirty tile `k`, with the error of that tile's
rectangle. The flags before `k` are clear, the flag of `k` and those after it are as before, and the counters
count the dirty tiles before `k`. The rectangle is sent from a state `u` that those tiles have left: `s` but for the flags
and counters, the DC level, the panel, their events and the answers they drew. -/
def Obligations.FlushStopsAtFailingTile : Prop :=
  ∀ (s t : State) (e : OpError), s.cfg.wf = true → s.dirty.length = tileCount s.cfg →
    exec .flush s = .next t → t.results = s.results ++ [.err e] →
    ∃ (k : Nat) (u v : State), k < tileCount s.cfg ∧ flagAt s.dirty k = true ∧
      pushRectBody (.host 0x8) (tileRectAt s.cfg k).x (tileRectAt s.cfg k).y (tileRectAt s.cfg k).w
        (tileRectAt s.cfg k).h (extractRect (tileRectAt s.cfg k) s) u = .raise e v ∧
      u = { s with
        dirty := u.dirty
        lastFlushTiles := u.lastFlushTiles
        lastFlushBytes := u.lastFlushBytes
        dcLevel := if (dirtyTiles s).filter (· < k) = [] then s.dcLevel else some (dcDataLevel s.cfg)
        panel := u.panel
        events := s.events ++ ((dirtyTiles s).filter (· < k)).flatMap (tileEntries s)
        answers := s.answers.drop
          (((dirtyTiles s).filter (· < k)).map fun n => rectDraws s.cfg (tilePixels s.cfg n)).sum
        free := s.free + (((dirtyTiles s).filter (· < k)).flatMap (tileEntries s)).length } ∧
      t.events = v.events ∧ t.dirty.length = s.dirty.length ∧
      (∀ n : Nat, flagAt t.dirty n = if n < k then false else flagAt s.dirty n) ∧
      t.lastFlushTiles.toNat = ((dirtyTiles s).filter (· < k)).length ∧
      t.lastFlushBytes.toNat = (((dirtyTiles s).filter (· < k)).map fun n => tilePixels s.cfg n * 2).sum

/-! ## The framer (R90 to R115) -/

/-- R93, with the chunk lengths of R92: the cut of a byte list, and that DATA_PHASE sends exactly these chunks. -/
def Obligations.ChunkingLaws : Prop :=
  ∀ (m : Nat) (bytes : List Byte), 1 ≤ m →
    (chunks m bytes).length = ceilDiv bytes.length m ∧ (chunks m bytes).flatten = bytes ∧
    (∀ c ∈ chunks m bytes, 1 ≤ c.length ∧ c.length ≤ m) ∧
    (∀ k, k + 1 < (chunks m bytes).length → ((chunks m bytes)[k]?.map List.length) = some m) ∧
    chunks m [] = [] ∧
    (m % 2 = 0 → bytes.length % 2 = 0 → ∀ c ∈ chunks m bytes, c.length % 2 = 0) ∧
    (∀ s t : State, s.cfg.maxXfer = m → dataPhase bytes s = .go t →
      t.events = s.events ++ (chunks m bytes).map (writeEntry s)) ∧
    ceilDiv (100 * 100 * 2) 4096 = 5

/-- R111, R108: what a rectangle that goes through sends: the events in order, with the number of transactions
of each data phase; one CASET, one RASET and one RAMWR; after RAMWR's command byte the DC line goes to the data
level once and nothing but the pixel stream follows. -/
def Obligations.TransferLaw : Prop :=
  ∀ (tag : OpTag) (x y w h : Nat) (src : List Word) (s t : State), 1 ≤ s.cfg.maxXfer → 1 ≤ w → 1 ≤ h →
    src.length = w * h → pushRectBody tag x y w h src s = .go t →
    ∃ cs rs ps : List (List Byte),
      cs.length = ceilDiv 4 s.cfg.maxXfer ∧ cs.flatten = columnBytes s.cfg x w ∧
      rs.length = ceilDiv 4 s.cfg.maxXfer ∧ rs.flatten = rowBytes s.cfg y h ∧
      ps.length = ceilDiv (2 * w * h) s.cfg.maxXfer ∧ ps.flatten = be16Stream src ∧
      t.events = s.events ++
        ([setEntry s .dc s.cfg.dcCmdLevel, writeEntry s [0x2A], setEntry s .dc (dcDataLevel s.cfg)] ++
          cs.map (writeEntry s) ++
         [setEntry s .dc s.cfg.dcCmdLevel, writeEntry s [0x2B], setEntry s .dc (dcDataLevel s.cfg)] ++
          rs.map (writeEntry s) ++
         [setEntry s .dc s.cfg.dcCmdLevel, writeEntry s [0x2C], setEntry s .dc (dcDataLevel s.cfg)] ++
          ps.map (writeEntry s)) ∧
      readCommands s.cfg (wireTraceFrom s.dcLevel (t.events.drop s.events.length)) =
        [(0x2A, columnBytes s.cfg x w), (0x2B, rowBytes s.cfg y h), (0x2C, be16Stream src)]

/-- R109, R107: PUSH_RECT in READY that the environment answers well: one rectangle, and nothing else changes.
With a zero size it sends nothing. -/
def Obligations.PushRectSendsRectangle : Prop :=
  ∀ (x y w h : Word) (pixels : List Word) (s : State), s.drvState = .ready →
    pixels.length = w.toNat * h.toNat → hostCode (.pushRect x y w h pixels) = some 0x1 ∧
    (w = 0 ∨ h = 0 → exec (.pushRect x y w h pixels) s = .next (ended (.ok .unit) 0 s)) ∧
    (w ≠ 0 → h ≠ 0 → 1 ≤ s.cfg.maxXfer → fits s.cfg x.toNat y.toNat w.toNat h.toNat →
      AnswersGood (rectDraws s.cfg (w.toNat * h.toNat)) s →
      ∃ p : Panel, exec (.pushRect x y w h pixels) s =
        .next (sent (rectEntries s x.toNat y.toNat w.toNat h.toNat pixels)
          (rectDraws s.cfg (w.toNat * h.toNat)) (some (dcDataLevel s.cfg)) p s))

/-- R110: PUSH_RECT_SOLID is PUSH_RECT of w·h copies of the colour, in READY; elsewhere it is turned away with
its own code. -/
def Obligations.PushRectSolidIsCopies : Prop :=
  ∀ (x y w h color : Word) (s : State), hostCode (.pushRectSolid x y w h color) = some 0x2 ∧
    (s.drvState = .ready →
      exec (.pushRectSolid x y w h color) s =
        exec (.pushRect x y w h (List.replicate (w.toNat * h.toNat) color)) s) ∧
    (s.drvState ≠ .ready →
      exec (.pushRectSolid x y w h color) s =
        .next (ended (.err (.invalidState s.drvState (.host 0x2))) 3 s)) ∧
    (s.drvState = .ready → w ≠ 0 → h ≠ 0 → 1 ≤ s.cfg.maxXfer →
      fits s.cfg x.toNat y.toNat w.toNat h.toNat → AnswersGood (rectDraws s.cfg (w.toNat * h.toNat)) s →
      ∃ p : Panel, exec (.pushRectSolid x y w h color) s =
        .next (sent
          (rectEntries s x.toNat y.toNat w.toNat h.toNat (List.replicate (w.toNat * h.toNat) color))
          (rectDraws s.cfg (w.toNat * h.toNat)) (some (dcDataLevel s.cfg)) p s))

/-- R107, R109, R129: the checks of PUSH_RECT in their order. None of them issues an event. -/
def Obligations.PushRectChecksInOrder : Prop :=
  ∀ (x y w h : Word) (pixels : List Word) (s : State),
    (s.drvState ≠ .ready →
      exec (.pushRect x y w h pixels) s =
        .next (ended (.err (.invalidState s.drvState (.host 0x1))) 3 s)) ∧
    (s.drvState = .ready → pixels.length ≠ w.toNat * h.toNat →
      exec (.pushRect x y w h pixels) s = .next (ended (.err (.invalidArgument .pixelCount)) 4 s)) ∧
    (s.drvState = .ready → pixels.length = w.toNat * h.toNat → w ≠ 0 → h ≠ 0 →
      ¬ fits s.cfg x.toNat y.toNat w.toNat h.toNat →
      exec (.pushRect x y w h pixels) s = .next (ended (.err (.invalidArgument .windowRange)) 4 s))

/-- R90, R91, R130, R131: PUSH_RECT whose answers are good up to event `j` and not at `j`: the events before `j`
have happened, event `j` is the last, and the driver is FAILED. That the panel is then a free value is the model's
(log 9). -/
def Obligations.PushRectStopsAtFirstFailure : Prop :=
  ∀ (x y w h : Word) (pixels : List Word) (s : State) (j : Nat) (a : Answer) (e : Entry) (r : Reply)
    (err : OpError), s.drvState = .ready → pixels.length = w.toNat * h.toNat → w ≠ 0 → h ≠ 0 →
    1 ≤ s.cfg.maxXfer → fits s.cfg x.toNat y.toNat w.toNat h.toNat →
    (rectEntries s x.toNat y.toNat w.toNat h.toNat pixels)[j]? = some e →
    AnswersGood j s → s.answers[j]? = some a → failsWith e a = some (r, err) →
    exec (.pushRect x y w h pixels) s =
      .next { s with
        drvState := .failed
        dcLevel := ((rectEntries s x.toNat y.toNat w.toNat h.toNat pixels).take j ++ [(⟨e.ev, r⟩ : Entry)]).foldl
          dcAfterEntry s.dcLevel
        panel := unknownPanel (s.free + j + 1)
        events := s.events ++ ((rectEntries s x.toNat y.toNat w.toNat h.toNat pixels).take j ++ [(⟨e.ev, r⟩ : Entry)])
        answers := s.answers.drop (j + 1)
        free := s.free + j + 2
        lastError := 2
        results := s.results ++ [.err err] }

/-- R115: whatever the panel held, after a rectangle that goes through its window is the rectangle's, every pixel
of the rectangle is in GRAM at its place, every other place of GRAM is as before, and the pointer stands at the
place after the window's last pixel (R114, log 16), so that no pixel was written past the window. -/
def Obligations.PanelReceivesRectangle : Prop :=
  ∀ (tag : OpTag) (x y w h : Nat) (src : List Word) (s t : State), 1 ≤ s.cfg.maxXfer → 1 ≤ w → 1 ≤ h →
    src.length = w * h → pushRectBody tag x y w h src s = .go t →
    t.panel.colRange = some (x + s.cfg.colOffset.toNat, x + w - 1 + s.cfg.colOffset.toNat) ∧
    t.panel.rowRange = some (y + s.cfg.rowOffset.toNat, y + h - 1 + s.cfg.rowOffset.toNat) ∧
    (∀ i j : Nat, i < w → j < h →
      gramAt t.panel (x + s.cfg.colOffset.toNat + i) (y + s.cfg.rowOffset.toNat + j) = src[j * w + i]?) ∧
    (∀ col row : Nat, col < 65536 →
      ¬ (x + s.cfg.colOffset.toNat ≤ col ∧ col < x + s.cfg.colOffset.toNat + w ∧
        y + s.cfg.rowOffset.toNat ≤ row ∧ row < y + s.cfg.rowOffset.toNat + h) →
      gramAt t.panel col row = gramAt s.panel col row) ∧
    t.panel.ptr = some (x + s.cfg.colOffset.toNat, y + h + s.cfg.rowOffset.toNat)

/-- R96 to R106, with R59, R67, R102 to R104: each wire command, where an operation has come to it and the environment
answers well, sends its opcode, its payload and its wait, and changes nothing else but CUR_ROTATION for MADCTL; where no
operation has come to it, it issues no event and changes nothing but its result. That it is turned away with InvalidState
is the model's choice (log 3). -/
def Obligations.WireCommandsSendTheirFrame : Prop :=
  ∀ (i : Instr) (op : Byte) (payload : List Byte) (ms : Nat) (s : State),
    wireCommand s.cfg i = some (op, payload, ms) →
    (encode i).bytes.head? = some op ∧ hostCode i = none ∧
    (s.due ≠ some i →
      exec i s = .next (ended (.err (.invalidState s.drvState (.wire op))) 3 s)) ∧
    (s.due = some i → 1 ≤ s.cfg.maxXfer → AnswersGood (commandDraws s.cfg payload.length) s →
      ∃ p : Panel, exec i s = .next
        (wired (commandEntries s op payload ++ delayEntries ms) (commandDraws s.cfg payload.length)
          (some (if payload = [] then s.cfg.dcCmdLevel else dcDataLevel s.cfg)) p
          (rotationAfter i s.curRotation) s))

/-- R113, R114: CASET and RASET that go through set the panel's column and row range and leave its GRAM; RAMWR
without pixels opens a session at the window's first place. -/
def Obligations.WindowCommandsReachPanel : Prop :=
  ∀ (a b : Word) (s : State), 1 ≤ s.cfg.maxXfer →
    (s.due = some (.caset a b) → AnswersGood (commandDraws s.cfg 4) s →
      ∃ t : State, exec (.caset a b) s = .next t ∧
        t.panel = { s.panel with
          colRange := some (a.toNat, b.toNat), cur := some 0x2A, acc := be16 a ++ be16 b, ptr := none }) ∧
    (s.due = some (.raset a b) → AnswersGood (commandDraws s.cfg 4) s →
      ∃ t : State, exec (.raset a b) s = .next t ∧
        t.panel = { s.panel with
          rowRange := some (a.toNat, b.toNat), cur := some 0x2B, acc := be16 a ++ be16 b, ptr := none }) ∧
    (∀ cs ce rs re : Nat, s.due = some (.ramwr []) →
      s.panel.colRange = some (cs, ce) → s.panel.rowRange = some (rs, re) → AnswersGood 2 s →
      ∃ t : State, exec (.ramwr []) s = .next t ∧
        t.panel = { s.panel with cur := some 0x2C, acc := [], ptr := some (cs, rs) })

/-- R113, R114: what the observer makes of a transaction, with a window set: a command byte; the pixel pair of an
open session, read across any chunk boundary. -/
def Obligations.ObserverReadsTransactions : Prop :=
  ∀ (c : Cfg) (k cs ce rs re : Nat) (p : Panel), p.colRange = some (cs, ce) → p.rowRange = some (rs, re) →
    (∀ b : Byte, panelTransaction c k (some c.dcCmdLevel) [b] p =
      { p with cur := some b, acc := [], ptr := if b = 0x2C then some (cs, rs) else none }) ∧
    (∀ x y : List Byte, panelTransaction c k (some (dcDataLevel c)) (x ++ y) p =
      panelTransaction c k (some (dcDataLevel c)) y (panelTransaction c k (some (dcDataLevel c)) x p)) ∧
    (∀ (hi lo : Byte) (col row : Nat), p.cur = some 0x2C → p.acc.length % 2 = 0 → p.ptr = some (col, row) →
      row ≤ re →
      ∃ q : Panel, panelTransaction c k (some (dcDataLevel c)) [hi, lo] p = q ∧
        (gramAt q col row).map BitVec.toNat = some (hi.toNat * 256 + lo.toNat) ∧
        (∀ key : Nat, key ≠ gramKey col row → Memory.read q.gram key = Memory.read p.gram key) ∧
        q.ptr = some (if col + 1 > ce then (cs, row + 1) else (col + 1, row)) ∧
        q.colRange = p.colRange ∧ q.rowRange = p.rowRange)

/-- R59, R67, R96 to R106: every write an instruction issues between operations, whatever is answered to it, has the DC
line at a known level, and where that is the command level it is one byte, an opcode that the instruction sends. So no
other opcode is ever sent, RAMWR and its window are sent by the rectangle operations only, INVON and INVOFF by INIT only
and as `INVERT` says, and a wire command by itself sends nothing. -/
def Obligations.EachOperationSendsItsCommands : Prop :=
  ∀ (i : Instr) (s t : State), s.due = none → exec i s = .next t →
    ∃ new : List Entry, t.events = s.events ++ new ∧
      ∀ (pre post : List Entry) (e : Entry) (h : Option Nat) (bytes : List Byte),
        new = pre ++ e :: post → e.ev = .spiWrite h bytes →
        pre.foldl dcAfterEntry s.dcLevel = some (dcDataLevel s.cfg) ∨
        (pre.foldl dcAfterEntry s.dcLevel = some s.cfg.dcCmdLevel ∧ ∃ b, bytes = [b] ∧ mayCommand s.cfg i b)

/-! ## The sequencer (R116 to R123) -/

/-- R116: an INIT in UNINIT that the environment answers well: every event in order, the handles, the levels, the
rotation and the driver state; nothing else changes. -/
def Obligations.InitBringsUpPanel : Prop :=
  ∀ s : State, s.cfg.wf = true → s.drvState = .uninit →
    fits s.cfg 0 0 s.cfg.panelW.toNat s.cfg.panelH.toNat →
    AnswersGood ((openOrder s.cfg).length + bringUpDraws s.cfg +
      rectDraws s.cfg (s.cfg.panelW.toNat * s.cfg.panelH.toNat)) s →
    hostCode .init = some 0x0 ∧
    ∃ (u : State) (new : List Entry) (p : Panel),
      u = withHandles s (openOrder s.cfg).length ∧
      new = openEntries s (openOrder s.cfg).length ++ bringUpEntries u ++
        rectEntries u 0 0 s.cfg.panelW.toNat s.cfg.panelH.toNat (clearPixels s.cfg) ∧
      exec .init s = .next
        { sent new ((openOrder s.cfg).length + bringUpDraws s.cfg +
            rectDraws s.cfg (s.cfg.panelW.toNat * s.cfg.panelH.toNat))
            (some (dcDataLevel s.cfg)) p u with
          drvState := .ready
          curRotation := some s.cfg.rotation
          rstLevel := some 1 }

/-- R117: the commands a reader of the wire finds in an INIT that ends well, with their payloads, and the reset
pulse before the first of them. -/
def Obligations.InitWireLaw : Prop :=
  ∀ s t : State, s.cfg.wf = true → exec .init s = .next t → t.results = s.results ++ [.ok .unit] →
    ∃ pre post : List Entry, t.events = s.events ++ pre ++ post ∧
      (∀ e ∈ pre, ∀ h bytes, e.ev ≠ .spiWrite h bytes) ∧
      (traceFrom s.cfg s.dcLevel pre).filter isLineOrDelay =
        [.gpio .rst 1, .delay 10, .gpio .rst 0, .delay 20, .gpio .rst 1, .delay 120] ∧
      (traceFrom s.cfg s.dcLevel post).head? = some (.gpio .dc s.cfg.dcCmdLevel) ∧
      (traceFrom s.cfg s.dcLevel post).tail.head? = some (.cmd 0x01) ∧
      readCommands s.cfg (wireTraceFrom s.dcLevel (pre ++ post)) =
        [(0x01, []), (0x11, []), (0x3A, [s.cfg.colmodValue])] ++
        s.cfg.panelInitTable.map (fun e => (e.op, e.payload)) ++
        [(if s.cfg.invert then 0x21 else 0x20, []),
         (0x36, [rotByte s.cfg.madctlRot s.cfg.rotation ||| s.cfg.bgrMask]), (0x29, []),
         (0x2A, be16 s.cfg.colOffset ++
            be16 (BitVec.ofNat 16 (s.cfg.panelW.toNat - 1 + s.cfg.colOffset.toNat))),
         (0x2B, be16 s.cfg.rowOffset ++
            be16 (BitVec.ofNat 16 (s.cfg.panelH.toNat - 1 + s.cfg.rowOffset.toNat))),
         (0x2C, be16Stream (clearPixels s.cfg))]

/-- R116, R130: an INIT whose open number `k` fails: a ConfigurationError for that resource, FAILED, the handles
acquired so far kept, no further event. And one whose clear does not fit: InvalidArgument, FAILED, every handle
kept. -/
def Obligations.InitFailuresKeepHandles : Prop :=
  (∀ (s : State) (k : Nat) (r : Resource) (a : Answer), s.drvState = .uninit →
    (openOrder s.cfg)[k]? = some r → AnswersGood k s → s.answers[k]? = some a → (∀ v, a ≠ .good v) →
    exec .init s = .next
      { withHandles s k with
        drvState := .failed
        panel := unknownPanel (s.free + k + 1)
        events := s.events ++ (openEntries s k ++ [⟨openEvent s.cfg r, .err⟩])
        answers := s.answers.drop (k + 1)
        free := s.free + k + 2
        lastError := 1
        results := s.results ++ [.err (.configuration r)] }) ∧
  (∀ s : State, s.cfg.wf = true → s.drvState = .uninit →
    ¬ fits s.cfg 0 0 s.cfg.panelW.toNat s.cfg.panelH.toNat →
    AnswersGood ((openOrder s.cfg).length + bringUpDraws s.cfg) s →
    ∃ t : State, exec .init s = .next t ∧ t.drvState = .failed ∧ t.lastError = 4 ∧
      t.results = s.results ++ [.err (.invalidArgument .windowRange)] ∧
      (∀ r ∈ openOrder s.cfg, (held t r).isSome = true) ∧
      t.events = s.events ++ (openEntries s (openOrder s.cfg).length ++
        bringUpEntries (withHandles s (openOrder s.cfg).length)))

/-- R116, R90, R91, R130, R131, R20: an INIT whose opens succeed and whose later events are answered well up to event `j`
of steps 2 to 11 and not at `j`: the events before it have happened, event `j` is the last, every handle is kept, the
rotation is on record exactly if its command and payload have gone through, and the driver is FAILED. That the panel is
then a free value is the model's (log 9). -/
def Obligations.InitStopsAtFirstFailure : Prop :=
  ∀ (s u : State) (new : List Entry) (n d j : Nat) (a : Answer) (e : Entry) (r : Reply) (err : OpError),
    s.cfg.wf = true → s.drvState = .uninit → fits s.cfg 0 0 s.cfg.panelW.toNat s.cfg.panelH.toNat →
    n = (openOrder s.cfg).length → u = withHandles s n →
    new = bringUpEntries u ++ rectEntries u 0 0 s.cfg.panelW.toNat s.cfg.panelH.toNat (clearPixels s.cfg) →
    d = (new.take j).countP drawsAnswer → new[j]? = some e →
    AnswersGood (n + d) s → s.answers[n + d]? = some a → failsWith e a = some (r, err) →
    exec .init s =
      .next { u with
        drvState := .failed
        curRotation := if (beforeDispon u).length ≤ j then some s.cfg.rotation else s.curRotation
        dcLevel := (new.take j ++ [(⟨e.ev, r⟩ : Entry)]).foldl dcAfterEntry s.dcLevel
        rstLevel := (new.take j ++ [(⟨e.ev, r⟩ : Entry)]).foldl rstAfterEntry s.rstLevel
        panel := unknownPanel (s.free + n + j + 1)
        events := s.events ++ openEntries s n ++ (new.take j ++ [(⟨e.ev, r⟩ : Entry)])
        answers := s.answers.drop (n + d + 1)
        free := s.free + n + j + 2
        lastError := 2
        results := s.results ++ [.err err] }

/-- R119: SET_ROTATION writes `MADCTL_ROT[r] | BGR_MASK`, also when r is the rotation on record; outside READY it
is refused; when a transaction or the DC setting fails CUR_ROTATION and DIRTY keep their values. -/
def Obligations.SetRotationWritesMadctl : Prop :=
  ∀ (r : BitVec 2) (s : State), hostCode (.setRotation r) = some 0x3 ∧
    (s.drvState = .ready → 1 ≤ s.cfg.maxXfer → AnswersGood (commandDraws s.cfg 1) s →
      ∃ p : Panel, exec (.setRotation r) s = .next
        { sent (commandEntries s 0x36 [rotByte s.cfg.madctlRot r ||| s.cfg.bgrMask]) (commandDraws s.cfg 1)
            (some (dcDataLevel s.cfg)) p s with
          curRotation := some r }) ∧
    (s.drvState ≠ .ready →
      exec (.setRotation r) s = .next (ended (.err (.invalidState s.drvState (.host 0x3))) 3 s)) ∧
    (∀ (t : State) (e : OpError), s.drvState = .ready → exec (.setRotation r) s = .next t →
      t.results = s.results ++ [.err e] →
      isTransportError (.err e) = true ∧ t.lastError = 2 ∧ t.drvState = .failed ∧
        t.curRotation = s.curRotation ∧ t.dirty = s.dirty ∧ t.cfg = s.cfg)

/-- R120: SET_BACKLIGHT drives the backlight line to the configured level, does nothing without one, is refused
outside READY, and fails with the line's setting. -/
def Obligations.SetBacklightDrivesLine : Prop :=
  ∀ (on : Bool) (s : State), hostCode (.setBacklight on) = some 0x4 ∧
    (s.drvState ≠ .ready →
      exec (.setBacklight on) s = .next (ended (.err (.invalidState s.drvState (.host 0x4))) 3 s)) ∧
    (s.drvState = .ready → s.cfg.blLine = none →
      exec (.setBacklight on) s = .next (ended (.ok .unit) 0 s)) ∧
    (∀ n : Nat, s.drvState = .ready → s.cfg.blLine = some n → AnswersGood 1 s →
      exec (.setBacklight on) s = .next
        (ended (.ok .unit) 0 { s with
          blLevel := some (if on then s.cfg.blOnLevel else 1 - s.cfg.blOnLevel)
          events := s.events ++ [setEntry s .bl (if on then s.cfg.blOnLevel else 1 - s.cfg.blOnLevel)]
          answers := s.answers.drop 1
          free := s.free + 1 })) ∧
    (∀ (n : Nat) (a : Answer) (rest : List Answer), s.drvState = .ready → s.cfg.blLine = some n →
      s.answers = a :: rest → (∀ v, a ≠ .good v) →
      ∃ p : Panel, exec (.setBacklight on) s = .next
        (ended (.err (.transportLine .bl)) 2 { s with
          drvState := .failed
          blLevel := none
          panel := p
          events := s.events ++
            [⟨.gpioSet .bl s.hBl (if on then s.cfg.blOnLevel else 1 - s.cfg.blOnLevel), .err⟩]
          answers := rest
          free := s.free + 2 }))

/-- R121: DISPOSE, in every driver state and for every answer: each held resource is released in the order SPI,
DC, RST, BL; the handles and the levels of held lines are none; nothing else changes. In DISPOSED it does
nothing. -/
def Obligations.DisposeReleasesInOrder : Prop :=
  ∀ s : State, hostCode .dispose = some 0x5 ∧
    (s.drvState = .disposed → exec .dispose s = .next (ended (.ok .unit) 0 s)) ∧
    (s.drvState ≠ .disposed → exec .dispose s = .next
      { s with
        drvState := .disposed
        hSpi := none
        hDc := none
        hRst := none
        hBl := none
        dcLevel := levelReleased s.hDc s.dcLevel
        rstLevel := levelReleased s.hRst s.rstLevel
        blLevel := levelReleased s.hBl s.blLevel
        events := s.events ++ releaseEntries s
        answers := s.answers.drop (releaseEntries s).length
        free := s.free + (releaseEntries s).length
        lastError := 0
        results := s.results ++ [.ok .unit] })

/-- R122: after DISPOSE every handle is none, the driver is DISPOSED, and over the whole history every resource
has been released exactly as often as it was acquired; a second DISPOSE releases nothing. -/
def Obligations.DisposeBalancesReleases : Prop :=
  ∀ s : State, Inv s → ∃ t u : State, exec .dispose s = .next t ∧ t.drvState = .disposed ∧
    (∀ r : Resource, held t r = none ∧ t.events.countP (isOpen r) = t.events.countP (isRelease r)) ∧
    exec .dispose t = .next u ∧ u.events = t.events ∧ u.drvState = .disposed

/-- R123: the reserved codes raise IllegalOperation in every driver state and write LAST_ERROR only. -/
def Obligations.ReservedCodesAreIllegal : Prop :=
  ∀ s : State, hostCode .reservedE = some 0xE ∧ hostCode .reservedF = some 0xF ∧
    exec .reservedE s = .next (ended (.err (.illegalOperation 0xE)) 5 s) ∧
    exec .reservedF s = .next (ended (.err (.illegalOperation 0xF)) 5 s)

/-! ## Errors, states, frames -/

/-- R127: the state check of every host operation: where the table says InvalidState that is the whole effect,
where it says yes the result is never InvalidState; FLUSH finds its first dirty tile. -/
def Obligations.StateCheckTable : Prop :=
  ∀ (i : Instr) (code : BitVec 4) (s : State), hostCode i = some code →
    (accepts i s.drvState = false →
      exec i s = .next (ended (.err (.invalidState s.drvState (.host code))) 3 s)) ∧
    (i = .flush → s.drvState ≠ .ready → dirtyTiles s ≠ [] →
      exec i s = .next (ended (.err (.invalidState s.drvState (.host code))) 3
        { s with lastFlushTiles := 0, lastFlushBytes := 0 })) ∧
    (accepts i s.drvState = true → (i = .flush → s.drvState = .ready ∨ dirtyTiles s = []) →
      ∀ (t : State) (d : DrvState) (tag : OpTag), exec i s = .next t →
        t.results ≠ s.results ++ [.err (.invalidState d tag)]) ∧
    (i = .reservedE ∨ i = .reservedF → exec i s = .next (ended (.err (.illegalOperation code)) 5 s)) ∧
    (i = .dispose → s.drvState = .disposed → exec i s = .next (ended (.ok .unit) 0 s))

/-- R19: the numbers of the driver states, and every transition: host operations by their result, block reset. -/
def Obligations.DriverStateTransitions : Prop :=
  (drvCode .uninit = 0 ∧ drvCode .ready = 1 ∧ drvCode .failed = 2 ∧ drvCode .disposed = 3) ∧
  (∀ (i : Instr) (code : BitVec 4) (s t : State) (r : Result), hostCode i = some code →
    exec i s = .next t → t.results = s.results ++ [r] →
    t.drvState = nextDrvState i s.drvState r ∧
    (isTransportError r = true → s.drvState = .ready ∨ (i = .init ∧ s.drvState = .uninit))) ∧
  (∀ (s : State) (rest : List Input), s.cfg.wf = true → s.inbox = .blockReset :: rest →
    s.drvState = .uninit ∨ s.drvState = .disposed → ∃ t, step s = .next t ∧ t.drvState = .uninit)

/-- R21, R125: every host operation ends, with exactly one result, of a kind the table gives it; LAST_ERROR is the
result's code, and no operation reads what LAST_ERROR held. -/
def Obligations.OneResultPerOperation : Prop :=
  ∀ (i : Instr) (code : BitVec 4) (s : State), hostCode i = some code →
    (∃ (t : State) (r : Result), exec i s = .next t ∧ t.results = s.results ++ [r] ∧
      t.lastError = codeOf r ∧ mayRaise i r = true) ∧
    (∀ old : BitVec 3, exec i { s with lastError := old } = exec i s)

/-- R127, R152: outside READY, between operations, no instruction but DISPOSE, and INIT in UNINIT, does anything to the
outside: no event, no answer drawn, no handle, level, rotation or driver state changed. Of a wire command, which no
operation has come to, that is the model's choice (log 3). -/
def Obligations.SilentOutsideReady : Prop :=
  ∀ (i : Instr) (s t : State), s.due = none → s.drvState ≠ .ready → i ≠ .dispose → (i = .init → s.drvState ≠ .uninit) →
    exec i s = .next t →
    t = { s with
      dirty := t.dirty
      lastFlushTiles := t.lastFlushTiles
      lastFlushBytes := t.lastFlushBytes
      lastError := t.lastError
      results := t.results }

/-- R18: no step changes a field of CFG. -/
def Obligations.ConfigurationNeverChanges : Prop :=
  ∀ s t : State, step s = .next t → t.cfg = s.cfg

/-- R34: no instruction writes the frame buffer; none but FLUSH reads it; FLUSH reads the pixels of the tiles it
transmits only, each of which is a pixel of the display. -/
def Obligations.OnlyFlushReadsFrameBuffer : Prop :=
  ∀ (i : Instr) (s t : State), exec i s = .next t →
    t.fb = s.fb ∧ (∀ a : Nat, memRead t a = memRead s a) ∧
    (∀ m : Memory, i ≠ .flush → exec i { s with fb := m } = .next { t with fb := m }) ∧
    (∀ m : Memory, i = .flush →
      (∀ n ∈ dirtyTiles s, ∀ a ∈ rectIndices s.cfg (tileRectAt s.cfg n), memRead { s with fb := m } a = memRead s a) →
      exec i { s with fb := m } = .next { t with fb := m }) ∧
    (s.cfg.wf = true → ∀ n ∈ dirtyTiles s, ∀ a ∈ rectIndices s.cfg (tileRectAt s.cfg n), a < pixelCount s.cfg)

/-- R20, R22, R23, R24, R26: who may write DIRTY, the counters, the handles, the three line levels and CUR_ROTATION; every
other instruction leaves them. A wire command drives the DC line only where it is due (log 3). The last two clauses are the model's own: no operation leaves a wire command due (log 3), and
none touches the host's inputs (log 6). -/
def Obligations.RegistersHaveTheirWriters : Prop :=
  ∀ (i : Instr) (s t : State), exec i s = .next t →
    (i ≠ .markAll → i ≠ .flush → (∀ x y w h, i ≠ .markDirtyRect x y w h) → t.dirty = s.dirty) ∧
    (i = .flush → ∀ n, flagAt t.dirty n = true → flagAt s.dirty n = true) ∧
    (i ≠ .flush → ∀ n, flagAt s.dirty n = true → flagAt t.dirty n = true) ∧
    (i ≠ .flush → t.lastFlushTiles = s.lastFlushTiles ∧ t.lastFlushBytes = s.lastFlushBytes) ∧
    (i ≠ .init → i ≠ .dispose →
      t.hSpi = s.hSpi ∧ t.hDc = s.hDc ∧ t.hRst = s.hRst ∧ t.hBl = s.hBl ∧ t.rstLevel = s.rstLevel) ∧
    (i ≠ .dispose → (∀ on, i ≠ .setBacklight on) → t.blLevel = s.blLevel) ∧
    (i ≠ .init → (∀ x y w h ps, i ≠ .pushRect x y w h ps) → (∀ x y w h c, i ≠ .pushRectSolid x y w h c) →
      (∀ r, i ≠ .setRotation r) → i ≠ .flush → i ≠ .dispose → (hostCode i = none → s.due ≠ some i) →
      t.dcLevel = s.dcLevel) ∧
    (i ≠ .init → (∀ r, i ≠ .setRotation r) → (∀ r, i ≠ .madctl r) → t.curRotation = s.curRotation) ∧
    (hostCode i ≠ none → t.due = s.due) ∧
    t.inbox = s.inbox

/-- R20: CUR_ROTATION changes only to a rotation whose MADCTL command and payload have both gone through in the
same operation. -/
def Obligations.RotationRecordedAfterWrite : Prop :=
  ∀ (i : Instr) (s t : State), exec i s = .next t → t.curRotation ≠ s.curRotation →
    ∃ (r : BitVec 2) (pre post : List Entry), t.curRotation = some r ∧
      t.events = s.events ++ pre ++
        commandEntries t 0x36 [rotByte s.cfg.madctlRot r ||| s.cfg.bgrMask] ++ post

/-- R28: no instruction's effect on the block depends on the panel's state. -/
def Obligations.PanelIsNeverRead : Prop :=
  ∀ (i : Instr) (s t : State) (p : Panel), exec i s = .next t →
    ∃ q : Panel, exec i { s with panel := p } = .next { t with panel := q }

/-- R46, R156: a step only appends to the history of events and to the results. -/
def Obligations.HistoryIsOnlyAppended : Prop :=
  ∀ s t : State, step s = .next t →
    (∃ new : List Entry, t.events = s.events ++ new) ∧ ∃ new : List Result, t.results = s.results ++ new

/-! ## Reset, steps, invariants -/

/-- R144: block reset in UNINIT and DISPOSED sets every element of R31, keeps CFG, issues no event; in READY and
FAILED it is forbidden. In UNINIT it changes only DIRTY, the counters and LAST_ERROR. What stays beside CFG
(FB, panel, histories, answers), and that no wire command is due, is the model's choice, log 14. -/
def Obligations.BlockResetSetsResetValues : Prop :=
  ∀ (s : State) (rest : List Input), s.cfg.wf = true → s.inbox = .blockReset :: rest →
    (s.drvState = .uninit ∨ s.drvState = .disposed →
      step s = .next { State.built s.cfg with
        fb := s.fb, panel := s.panel, events := s.events, results := s.results, inbox := rest
        answers := s.answers, free := s.free }) ∧
    (s.drvState = .ready ∨ s.drvState = .failed → step s = .refused .blockResetForbidden) ∧
    (Inv s → s.drvState = .uninit → step s = .next { s with
      dirty := List.replicate (tileCount s.cfg) false
      lastFlushTiles := 0
      lastFlushBytes := 0
      lastError := 0
      inbox := rest })

/-- R145, R31, R143, R9: power-on builds a block from a well-formed configuration only, with every element at its
reset value. -/
def Obligations.PowerOnGivesResetValues : Prop :=
  ∀ c : Cfg,
    (c.wf = false → powerOn c = .refused .illFormedConfig) ∧
    (c.wf = true → ∃ s : State, powerOn c = .next s ∧ s.cfg = c ∧ s.drvState = .uninit ∧
      s.curRotation = none ∧ s.lastError = 0 ∧ s.lastFlushTiles = 0 ∧ s.lastFlushBytes = 0 ∧
      s.hSpi = none ∧ s.hDc = none ∧ s.hRst = none ∧ s.hBl = none ∧
      s.dcLevel = none ∧ s.rstLevel = none ∧ s.blLevel = none ∧ s.dirty.length = tilesY c * tilesX c ∧
      ∀ n : Nat, flagAt s.dirty n = false)

/-- The invariant holds after power-on of every well-formed configuration, State.reset among them. -/
def Obligations.ResetMeetsInvariant : Prop :=
  Inv State.reset ∧ ∀ c : Cfg, c.wf = true → Inv (State.built c)

/-- R33, R25: every step keeps the memories canonical, the frame buffer within the display's pixels and one flag
for each tile. -/
def Obligations.StepKeepsMemoryAndGrid : Prop :=
  ∀ s t : State, Inv s → step s = .next t → MemoryCanonical t ∧ GridShaped t

/-- R19, R20, R23, R24: every step keeps what the driver state says of the handles, the levels and the rotation. -/
def Obligations.StepKeepsOwnership : Prop :=
  ∀ s t : State, Inv s → step s = .next t → HandlesOwned t ∧ RotationKnown t ∧ LevelsOwned t

/-- R13, R40, R56, R57, R151: after every step, DC_LEVEL is the level last driven in the history, every write has
1 to MAX_XFER bytes, and every transaction is one byte at the command level or is at the data level. -/
def Obligations.StepKeepsWireDiscipline : Prop :=
  ∀ s t : State, Inv s → step s = .next t → LevelMatchesHistory t ∧ WritesBounded t ∧ TransactionsFramed t

/-- R122, R125: every step keeps the balance of acquisitions and releases, and a legal LAST_ERROR. -/
def Obligations.StepKeepsReleasesBalanced : Prop :=
  ∀ s t : State, Inv s → step s = .next t → ReleasesBalanced t ∧ ErrorCodeLegal t

/-- R5, R16, R41: a step is whole operations: between them no wire command is due (`due` is the model's own, log 3). -/
def Obligations.StepLeavesNothingDue : Prop :=
  ∀ s t : State, Inv s → step s = .next t → NothingDue t

/-- R33, R139: a host write puts the word at its pixel and changes nothing else; an index that no pixel has
faults. -/
def Obligations.HostWritesFrameBuffer : Prop :=
  ∀ (s : State) (a : Nat) (v : Word) (rest : List Input), s.cfg.wf = true →
    s.inbox = .fbWrite a v :: rest →
    (a < s.cfg.panelW.toNat * s.cfg.panelH.toNat → ∃ t : State, step s = .next t ∧
      t = { s with fb := t.fb, inbox := rest } ∧ memRead t a = v ∧
      ∀ b : Nat, b ≠ a → memRead t b = memRead s b) ∧
    (s.cfg.panelW.toNat * s.cfg.panelH.toNat ≤ a → step s = .fault (.noSuchPixel a))

/-- A step performs the instruction that the next record decodes to; a record that is no instruction is refused;
with no input the block waits (R132). The refusal of such a record (log 2), the record of a word of the opcode table
(log 4), and the host's inputs as a list (log 6) are the model's choice. -/
def Obligations.StepRunsDecodedInstruction : Prop :=
  ∀ s : State, s.cfg.wf = true →
    (∀ (r : Record) (i : Instr) (rest : List Input), s.inbox = .op r :: rest → decode r = .ok i →
      step s = exec i { s with inbox := rest }) ∧
    (∀ (r : Record) (why : DecodeError) (rest : List Input), s.inbox = .op r :: rest →
      decode r = .error why → step s = .refused (.undecodable why)) ∧
    (s.inbox = [] → step s = .next s) ∧
    (∀ (nbits w : Nat) (i : Instr), decodeTableWord nbits w = some i →
      step (s.withFetchWord nbits w) = exec i s)

/-! ## Decoding (R52 to R59) -/

/-- Every well-formed instruction is read back from its record, with every operand. -/
def Obligations.DecodeOfEncode : Prop :=
  ∀ i : Instr, i.wf = true → decode (encode i) = .ok i

/-- R55: every operation code has an instruction, and what the decoder reads on the host port has the code of the
record's first byte. -/
def Obligations.HostDecodeIsTotal : Prop :=
  (∀ code : BitVec 4, ∃ (rest : List Byte) (i : Instr),
    decode ⟨.host, code.setWidth 8 :: rest⟩ = .ok i ∧ hostCode i = some code ∧
      (code = 0xE → i = .reservedE) ∧ (code = 0xF → i = .reservedF)) ∧
  (∀ (first : Byte) (rest : List Byte) (i : Instr), decode ⟨.host, first :: rest⟩ = .ok i →
    hostCode i = some (first.extractLsb' 0 4))

/-- Records written out from R52 and R59 decode to the operations they stand for. -/
def Obligations.WrittenRecordsDecode : Prop :=
  decode ⟨.host, [0x00]⟩ = .ok .init ∧
  decode ⟨.host, [0x01, 0, 0, 0, 0, 0, 2, 0, 1, 0xF8, 0x00, 0x00, 0x1F]⟩ =
    .ok (.pushRect 0 0 2 1 [0xF800, 0x001F]) ∧
  decode ⟨.host, [0x06, 0, 0, 0, 9, 0xFF, 0xFF, 0xFF, 0xFB, 0, 0, 0, 1, 0, 0, 0, 1]⟩ =
    .ok (.markDirtyRect 9 (-5) 1 1) ∧
  decode ⟨.host, [0x0C, 0xF8, 0x00, 0x00, 0x1F, 128]⟩ = .ok (.blend565 0xF800 0x001F 128) ∧
  decode ⟨.framer, [0x2A, 0x00, 0xFA, 0x01, 0x03]⟩ = .ok (.caset 250 259) ∧
  decode ⟨.table 10, [0xC0]⟩ = .ok (.panelCmd 0xC0 [] 10)
end

