-- ==== Sys2Proof/Laws/State.lean ====
section
/-! SUPPORT. What each named update of the state leaves in each field: one lemma a field, so that no later proof
unfolds a record update. -/

namespace Sys2Proof.Machine

/-! ### `drawn` -/

@[simp] theorem drawn_cfg (s : State) : (drawn s).cfg = s.cfg := rfl
@[simp] theorem drawn_drvState (s : State) : (drawn s).drvState = s.drvState := rfl
@[simp] theorem drawn_curRotation (s : State) : (drawn s).curRotation = s.curRotation := rfl
@[simp] theorem drawn_lastError (s : State) : (drawn s).lastError = s.lastError := rfl
@[simp] theorem drawn_lastFlushTiles (s : State) : (drawn s).lastFlushTiles = s.lastFlushTiles := rfl
@[simp] theorem drawn_lastFlushBytes (s : State) : (drawn s).lastFlushBytes = s.lastFlushBytes := rfl
@[simp] theorem drawn_hSpi (s : State) : (drawn s).hSpi = s.hSpi := rfl
@[simp] theorem drawn_hDc (s : State) : (drawn s).hDc = s.hDc := rfl
@[simp] theorem drawn_hRst (s : State) : (drawn s).hRst = s.hRst := rfl
@[simp] theorem drawn_hBl (s : State) : (drawn s).hBl = s.hBl := rfl
@[simp] theorem drawn_dcLevel (s : State) : (drawn s).dcLevel = s.dcLevel := rfl
@[simp] theorem drawn_rstLevel (s : State) : (drawn s).rstLevel = s.rstLevel := rfl
@[simp] theorem drawn_blLevel (s : State) : (drawn s).blLevel = s.blLevel := rfl
@[simp] theorem drawn_dirty (s : State) : (drawn s).dirty = s.dirty := rfl
@[simp] theorem drawn_fb (s : State) : (drawn s).fb = s.fb := rfl
@[simp] theorem drawn_panel (s : State) : (drawn s).panel = s.panel := rfl
@[simp] theorem drawn_events (s : State) : (drawn s).events = s.events := rfl
@[simp] theorem drawn_results (s : State) : (drawn s).results = s.results := rfl
@[simp] theorem drawn_inbox (s : State) : (drawn s).inbox = s.inbox := rfl
@[simp] theorem drawn_due (s : State) : (drawn s).due = s.due := rfl
@[simp] theorem drawn_answers (s : State) : (drawn s).answers = s.answers.tail := rfl
@[simp] theorem drawn_free (s : State) : (drawn s).free = s.free := rfl

/-! ### `logged` -/

@[simp] theorem logged_cfg (e : Event) (r : Reply) (s : State) : (logged e r s).cfg = s.cfg := rfl
@[simp] theorem logged_drvState (e : Event) (r : Reply) (s : State) : (logged e r s).drvState = s.drvState := rfl
@[simp] theorem logged_curRotation (e : Event) (r : Reply) (s : State) : (logged e r s).curRotation = s.curRotation := rfl
@[simp] theorem logged_lastError (e : Event) (r : Reply) (s : State) : (logged e r s).lastError = s.lastError := rfl
@[simp] theorem logged_lastFlushTiles (e : Event) (r : Reply) (s : State) : (logged e r s).lastFlushTiles = s.lastFlushTiles := rfl
@[simp] theorem logged_lastFlushBytes (e : Event) (r : Reply) (s : State) : (logged e r s).lastFlushBytes = s.lastFlushBytes := rfl
@[simp] theorem logged_hSpi (e : Event) (r : Reply) (s : State) : (logged e r s).hSpi = s.hSpi := rfl
@[simp] theorem logged_hDc (e : Event) (r : Reply) (s : State) : (logged e r s).hDc = s.hDc := rfl
@[simp] theorem logged_hRst (e : Event) (r : Reply) (s : State) : (logged e r s).hRst = s.hRst := rfl
@[simp] theorem logged_hBl (e : Event) (r : Reply) (s : State) : (logged e r s).hBl = s.hBl := rfl
@[simp] theorem logged_dcLevel (e : Event) (r : Reply) (s : State) : (logged e r s).dcLevel = s.dcLevel := rfl
@[simp] theorem logged_rstLevel (e : Event) (r : Reply) (s : State) : (logged e r s).rstLevel = s.rstLevel := rfl
@[simp] theorem logged_blLevel (e : Event) (r : Reply) (s : State) : (logged e r s).blLevel = s.blLevel := rfl
@[simp] theorem logged_dirty (e : Event) (r : Reply) (s : State) : (logged e r s).dirty = s.dirty := rfl
@[simp] theorem logged_fb (e : Event) (r : Reply) (s : State) : (logged e r s).fb = s.fb := rfl
@[simp] theorem logged_panel (e : Event) (r : Reply) (s : State) : (logged e r s).panel = s.panel := rfl
@[simp] theorem logged_events (e : Event) (r : Reply) (s : State) : (logged e r s).events = s.events ++ [⟨e, r⟩] := rfl
@[simp] theorem logged_results (e : Event) (r : Reply) (s : State) : (logged e r s).results = s.results := rfl
@[simp] theorem logged_inbox (e : Event) (r : Reply) (s : State) : (logged e r s).inbox = s.inbox := rfl
@[simp] theorem logged_due (e : Event) (r : Reply) (s : State) : (logged e r s).due = s.due := rfl
@[simp] theorem logged_answers (e : Event) (r : Reply) (s : State) : (logged e r s).answers = s.answers := rfl
@[simp] theorem logged_free (e : Event) (r : Reply) (s : State) : (logged e r s).free = s.free + 1 := rfl

/-! ### `delay` -/

@[simp] theorem delay_cfg (ms : Nat) (s : State) : (delay ms s).cfg = s.cfg := rfl
@[simp] theorem delay_drvState (ms : Nat) (s : State) : (delay ms s).drvState = s.drvState := rfl
@[simp] theorem delay_curRotation (ms : Nat) (s : State) : (delay ms s).curRotation = s.curRotation := rfl
@[simp] theorem delay_lastError (ms : Nat) (s : State) : (delay ms s).lastError = s.lastError := rfl
@[simp] theorem delay_lastFlushTiles (ms : Nat) (s : State) : (delay ms s).lastFlushTiles = s.lastFlushTiles := rfl
@[simp] theorem delay_lastFlushBytes (ms : Nat) (s : State) : (delay ms s).lastFlushBytes = s.lastFlushBytes := rfl
@[simp] theorem delay_hSpi (ms : Nat) (s : State) : (delay ms s).hSpi = s.hSpi := rfl
@[simp] theorem delay_hDc (ms : Nat) (s : State) : (delay ms s).hDc = s.hDc := rfl
@[simp] theorem delay_hRst (ms : Nat) (s : State) : (delay ms s).hRst = s.hRst := rfl
@[simp] theorem delay_hBl (ms : Nat) (s : State) : (delay ms s).hBl = s.hBl := rfl
@[simp] theorem delay_dcLevel (ms : Nat) (s : State) : (delay ms s).dcLevel = s.dcLevel := rfl
@[simp] theorem delay_rstLevel (ms : Nat) (s : State) : (delay ms s).rstLevel = s.rstLevel := rfl
@[simp] theorem delay_blLevel (ms : Nat) (s : State) : (delay ms s).blLevel = s.blLevel := rfl
@[simp] theorem delay_dirty (ms : Nat) (s : State) : (delay ms s).dirty = s.dirty := rfl
@[simp] theorem delay_fb (ms : Nat) (s : State) : (delay ms s).fb = s.fb := rfl
@[simp] theorem delay_panel (ms : Nat) (s : State) : (delay ms s).panel = s.panel := rfl
@[simp] theorem delay_events (ms : Nat) (s : State) : (delay ms s).events = s.events ++ [⟨.delay ms, .none⟩] := rfl
@[simp] theorem delay_results (ms : Nat) (s : State) : (delay ms s).results = s.results := rfl
@[simp] theorem delay_inbox (ms : Nat) (s : State) : (delay ms s).inbox = s.inbox := rfl
@[simp] theorem delay_due (ms : Nat) (s : State) : (delay ms s).due = s.due := rfl
@[simp] theorem delay_answers (ms : Nat) (s : State) : (delay ms s).answers = s.answers := rfl
@[simp] theorem delay_free (ms : Nat) (s : State) : (delay ms s).free = s.free + 1 := rfl

/-! ### `panelTakes` -/

@[simp] theorem panelTakes_cfg (bs : List Byte) (s : State) : (panelTakes bs s).cfg = s.cfg := rfl
@[simp] theorem panelTakes_drvState (bs : List Byte) (s : State) : (panelTakes bs s).drvState = s.drvState := rfl
@[simp] theorem panelTakes_curRotation (bs : List Byte) (s : State) : (panelTakes bs s).curRotation = s.curRotation := rfl
@[simp] theorem panelTakes_lastError (bs : List Byte) (s : State) : (panelTakes bs s).lastError = s.lastError := rfl
@[simp] theorem panelTakes_lastFlushTiles (bs : List Byte) (s : State) : (panelTakes bs s).lastFlushTiles = s.lastFlushTiles := rfl
@[simp] theorem panelTakes_lastFlushBytes (bs : List Byte) (s : State) : (panelTakes bs s).lastFlushBytes = s.lastFlushBytes := rfl
@[simp] theorem panelTakes_hSpi (bs : List Byte) (s : State) : (panelTakes bs s).hSpi = s.hSpi := rfl
@[simp] theorem panelTakes_hDc (bs : List Byte) (s : State) : (panelTakes bs s).hDc = s.hDc := rfl
@[simp] theorem panelTakes_hRst (bs : List Byte) (s : State) : (panelTakes bs s).hRst = s.hRst := rfl
@[simp] theorem panelTakes_hBl (bs : List Byte) (s : State) : (panelTakes bs s).hBl = s.hBl := rfl
@[simp] theorem panelTakes_dcLevel (bs : List Byte) (s : State) : (panelTakes bs s).dcLevel = s.dcLevel := rfl
@[simp] theorem panelTakes_rstLevel (bs : List Byte) (s : State) : (panelTakes bs s).rstLevel = s.rstLevel := rfl
@[simp] theorem panelTakes_blLevel (bs : List Byte) (s : State) : (panelTakes bs s).blLevel = s.blLevel := rfl
@[simp] theorem panelTakes_dirty (bs : List Byte) (s : State) : (panelTakes bs s).dirty = s.dirty := rfl
@[simp] theorem panelTakes_fb (bs : List Byte) (s : State) : (panelTakes bs s).fb = s.fb := rfl
@[simp] theorem panelTakes_panel (bs : List Byte) (s : State) : (panelTakes bs s).panel = panelTransaction s.cfg s.free s.dcLevel bs s.panel := rfl
@[simp] theorem panelTakes_events (bs : List Byte) (s : State) : (panelTakes bs s).events = s.events := rfl
@[simp] theorem panelTakes_results (bs : List Byte) (s : State) : (panelTakes bs s).results = s.results := rfl
@[simp] theorem panelTakes_inbox (bs : List Byte) (s : State) : (panelTakes bs s).inbox = s.inbox := rfl
@[simp] theorem panelTakes_due (bs : List Byte) (s : State) : (panelTakes bs s).due = s.due := rfl
@[simp] theorem panelTakes_answers (bs : List Byte) (s : State) : (panelTakes bs s).answers = s.answers := rfl
@[simp] theorem panelTakes_free (bs : List Byte) (s : State) : (panelTakes bs s).free = s.free := rfl

/-! ### `succeed` -/

@[simp] theorem succeed_cfg (v : Value) (s : State) : (succeed v s).cfg = s.cfg := rfl
@[simp] theorem succeed_drvState (v : Value) (s : State) : (succeed v s).drvState = s.drvState := rfl
@[simp] theorem succeed_curRotation (v : Value) (s : State) : (succeed v s).curRotation = s.curRotation := rfl
@[simp] theorem succeed_lastError (v : Value) (s : State) : (succeed v s).lastError = 0 := rfl
@[simp] theorem succeed_lastFlushTiles (v : Value) (s : State) : (succeed v s).lastFlushTiles = s.lastFlushTiles := rfl
@[simp] theorem succeed_lastFlushBytes (v : Value) (s : State) : (succeed v s).lastFlushBytes = s.lastFlushBytes := rfl
@[simp] theorem succeed_hSpi (v : Value) (s : State) : (succeed v s).hSpi = s.hSpi := rfl
@[simp] theorem succeed_hDc (v : Value) (s : State) : (succeed v s).hDc = s.hDc := rfl
@[simp] theorem succeed_hRst (v : Value) (s : State) : (succeed v s).hRst = s.hRst := rfl
@[simp] theorem succeed_hBl (v : Value) (s : State) : (succeed v s).hBl = s.hBl := rfl
@[simp] theorem succeed_dcLevel (v : Value) (s : State) : (succeed v s).dcLevel = s.dcLevel := rfl
@[simp] theorem succeed_rstLevel (v : Value) (s : State) : (succeed v s).rstLevel = s.rstLevel := rfl
@[simp] theorem succeed_blLevel (v : Value) (s : State) : (succeed v s).blLevel = s.blLevel := rfl
@[simp] theorem succeed_dirty (v : Value) (s : State) : (succeed v s).dirty = s.dirty := rfl
@[simp] theorem succeed_fb (v : Value) (s : State) : (succeed v s).fb = s.fb := rfl
@[simp] theorem succeed_panel (v : Value) (s : State) : (succeed v s).panel = s.panel := rfl
@[simp] theorem succeed_events (v : Value) (s : State) : (succeed v s).events = s.events := rfl
@[simp] theorem succeed_results (v : Value) (s : State) : (succeed v s).results = s.results ++ [.ok v] := rfl
@[simp] theorem succeed_inbox (v : Value) (s : State) : (succeed v s).inbox = s.inbox := rfl
@[simp] theorem succeed_due (v : Value) (s : State) : (succeed v s).due = s.due := rfl
@[simp] theorem succeed_answers (v : Value) (s : State) : (succeed v s).answers = s.answers := rfl
@[simp] theorem succeed_free (v : Value) (s : State) : (succeed v s).free = s.free := rfl

/-! ### `tileServiced` -/

@[simp] theorem tileServiced_cfg (n : Nat) (r : Rect) (s : State) : (tileServiced n r s).cfg = s.cfg := rfl
@[simp] theorem tileServiced_drvState (n : Nat) (r : Rect) (s : State) : (tileServiced n r s).drvState = s.drvState := rfl
@[simp] theorem tileServiced_curRotation (n : Nat) (r : Rect) (s : State) : (tileServiced n r s).curRotation = s.curRotation := rfl
@[simp] theorem tileServiced_lastError (n : Nat) (r : Rect) (s : State) : (tileServiced n r s).lastError = s.lastError := rfl
@[simp] theorem tileServiced_lastFlushTiles (n : Nat) (r : Rect) (s : State) : (tileServiced n r s).lastFlushTiles = s.lastFlushTiles + 1 := rfl
@[simp] theorem tileServiced_lastFlushBytes (n : Nat) (r : Rect) (s : State) : (tileServiced n r s).lastFlushBytes = s.lastFlushBytes + BitVec.ofNat 64 (r.w * r.h * 2) := rfl
@[simp] theorem tileServiced_hSpi (n : Nat) (r : Rect) (s : State) : (tileServiced n r s).hSpi = s.hSpi := rfl
@[simp] theorem tileServiced_hDc (n : Nat) (r : Rect) (s : State) : (tileServiced n r s).hDc = s.hDc := rfl
@[simp] theorem tileServiced_hRst (n : Nat) (r : Rect) (s : State) : (tileServiced n r s).hRst = s.hRst := rfl
@[simp] theorem tileServiced_hBl (n : Nat) (r : Rect) (s : State) : (tileServiced n r s).hBl = s.hBl := rfl
@[simp] theorem tileServiced_dcLevel (n : Nat) (r : Rect) (s : State) : (tileServiced n r s).dcLevel = s.dcLevel := rfl
@[simp] theorem tileServiced_rstLevel (n : Nat) (r : Rect) (s : State) : (tileServiced n r s).rstLevel = s.rstLevel := rfl
@[simp] theorem tileServiced_blLevel (n : Nat) (r : Rect) (s : State) : (tileServiced n r s).blLevel = s.blLevel := rfl
@[simp] theorem tileServiced_dirty (n : Nat) (r : Rect) (s : State) : (tileServiced n r s).dirty = clearFlag s.dirty n := rfl
@[simp] theorem tileServiced_fb (n : Nat) (r : Rect) (s : State) : (tileServiced n r s).fb = s.fb := rfl
@[simp] theorem tileServiced_panel (n : Nat) (r : Rect) (s : State) : (tileServiced n r s).panel = s.panel := rfl
@[simp] theorem tileServiced_events (n : Nat) (r : Rect) (s : State) : (tileServiced n r s).events = s.events := rfl
@[simp] theorem tileServiced_results (n : Nat) (r : Rect) (s : State) : (tileServiced n r s).results = s.results := rfl
@[simp] theorem tileServiced_inbox (n : Nat) (r : Rect) (s : State) : (tileServiced n r s).inbox = s.inbox := rfl
@[simp] theorem tileServiced_due (n : Nat) (r : Rect) (s : State) : (tileServiced n r s).due = s.due := rfl
@[simp] theorem tileServiced_answers (n : Nat) (r : Rect) (s : State) : (tileServiced n r s).answers = s.answers := rfl
@[simp] theorem tileServiced_free (n : Nat) (r : Rect) (s : State) : (tileServiced n r s).free = s.free := rfl

/-! ### `flushStart` -/

@[simp] theorem flushStart_cfg (s : State) : (flushStart s).cfg = s.cfg := rfl
@[simp] theorem flushStart_drvState (s : State) : (flushStart s).drvState = s.drvState := rfl
@[simp] theorem flushStart_curRotation (s : State) : (flushStart s).curRotation = s.curRotation := rfl
@[simp] theorem flushStart_lastError (s : State) : (flushStart s).lastError = s.lastError := rfl
@[simp] theorem flushStart_lastFlushTiles (s : State) : (flushStart s).lastFlushTiles = 0 := rfl
@[simp] theorem flushStart_lastFlushBytes (s : State) : (flushStart s).lastFlushBytes = 0 := rfl
@[simp] theorem flushStart_hSpi (s : State) : (flushStart s).hSpi = s.hSpi := rfl
@[simp] theorem flushStart_hDc (s : State) : (flushStart s).hDc = s.hDc := rfl
@[simp] theorem flushStart_hRst (s : State) : (flushStart s).hRst = s.hRst := rfl
@[simp] theorem flushStart_hBl (s : State) : (flushStart s).hBl = s.hBl := rfl
@[simp] theorem flushStart_dcLevel (s : State) : (flushStart s).dcLevel = s.dcLevel := rfl
@[simp] theorem flushStart_rstLevel (s : State) : (flushStart s).rstLevel = s.rstLevel := rfl
@[simp] theorem flushStart_blLevel (s : State) : (flushStart s).blLevel = s.blLevel := rfl
@[simp] theorem flushStart_dirty (s : State) : (flushStart s).dirty = s.dirty := rfl
@[simp] theorem flushStart_fb (s : State) : (flushStart s).fb = s.fb := rfl
@[simp] theorem flushStart_panel (s : State) : (flushStart s).panel = s.panel := rfl
@[simp] theorem flushStart_events (s : State) : (flushStart s).events = s.events := rfl
@[simp] theorem flushStart_results (s : State) : (flushStart s).results = s.results := rfl
@[simp] theorem flushStart_inbox (s : State) : (flushStart s).inbox = s.inbox := rfl
@[simp] theorem flushStart_due (s : State) : (flushStart s).due = s.due := rfl
@[simp] theorem flushStart_answers (s : State) : (flushStart s).answers = s.answers := rfl
@[simp] theorem flushStart_free (s : State) : (flushStart s).free = s.free := rfl

/-! ### `resetBlock` -/

@[simp] theorem resetBlock_cfg (s : State) : (resetBlock s).cfg = s.cfg := rfl
@[simp] theorem resetBlock_drvState (s : State) : (resetBlock s).drvState = .uninit := rfl
@[simp] theorem resetBlock_curRotation (s : State) : (resetBlock s).curRotation = none := rfl
@[simp] theorem resetBlock_lastError (s : State) : (resetBlock s).lastError = 0 := rfl
@[simp] theorem resetBlock_lastFlushTiles (s : State) : (resetBlock s).lastFlushTiles = 0 := rfl
@[simp] theorem resetBlock_lastFlushBytes (s : State) : (resetBlock s).lastFlushBytes = 0 := rfl
@[simp] theorem resetBlock_hSpi (s : State) : (resetBlock s).hSpi = none := rfl
@[simp] theorem resetBlock_hDc (s : State) : (resetBlock s).hDc = none := rfl
@[simp] theorem resetBlock_hRst (s : State) : (resetBlock s).hRst = none := rfl
@[simp] theorem resetBlock_hBl (s : State) : (resetBlock s).hBl = none := rfl
@[simp] theorem resetBlock_dcLevel (s : State) : (resetBlock s).dcLevel = none := rfl
@[simp] theorem resetBlock_rstLevel (s : State) : (resetBlock s).rstLevel = none := rfl
@[simp] theorem resetBlock_blLevel (s : State) : (resetBlock s).blLevel = none := rfl
@[simp] theorem resetBlock_dirty (s : State) : (resetBlock s).dirty = List.replicate (tileCount s.cfg) false := rfl
@[simp] theorem resetBlock_fb (s : State) : (resetBlock s).fb = s.fb := rfl
@[simp] theorem resetBlock_panel (s : State) : (resetBlock s).panel = s.panel := rfl
@[simp] theorem resetBlock_events (s : State) : (resetBlock s).events = s.events := rfl
@[simp] theorem resetBlock_results (s : State) : (resetBlock s).results = s.results := rfl
@[simp] theorem resetBlock_inbox (s : State) : (resetBlock s).inbox = s.inbox := rfl
@[simp] theorem resetBlock_due (s : State) : (resetBlock s).due = none := rfl
@[simp] theorem resetBlock_answers (s : State) : (resetBlock s).answers = s.answers := rfl
@[simp] theorem resetBlock_free (s : State) : (resetBlock s).free = s.free := rfl

/-! ### `setLevel` -/

@[simp] theorem setLevel_cfg (L : Line) (l : Option Bit) (s : State) : (setLevel L l s).cfg = s.cfg := by cases L <;> rfl
@[simp] theorem setLevel_drvState (L : Line) (l : Option Bit) (s : State) : (setLevel L l s).drvState = s.drvState := by cases L <;> rfl
@[simp] theorem setLevel_curRotation (L : Line) (l : Option Bit) (s : State) : (setLevel L l s).curRotation = s.curRotation := by cases L <;> rfl
@[simp] theorem setLevel_lastError (L : Line) (l : Option Bit) (s : State) : (setLevel L l s).lastError = s.lastError := by cases L <;> rfl
@[simp] theorem setLevel_lastFlushTiles (L : Line) (l : Option Bit) (s : State) : (setLevel L l s).lastFlushTiles = s.lastFlushTiles := by cases L <;> rfl
@[simp] theorem setLevel_lastFlushBytes (L : Line) (l : Option Bit) (s : State) : (setLevel L l s).lastFlushBytes = s.lastFlushBytes := by cases L <;> rfl
@[simp] theorem setLevel_hSpi (L : Line) (l : Option Bit) (s : State) : (setLevel L l s).hSpi = s.hSpi := by cases L <;> rfl
@[simp] theorem setLevel_hDc (L : Line) (l : Option Bit) (s : State) : (setLevel L l s).hDc = s.hDc := by cases L <;> rfl
@[simp] theorem setLevel_hRst (L : Line) (l : Option Bit) (s : State) : (setLevel L l s).hRst = s.hRst := by cases L <;> rfl
@[simp] theorem setLevel_hBl (L : Line) (l : Option Bit) (s : State) : (setLevel L l s).hBl = s.hBl := by cases L <;> rfl
@[simp] theorem setLevel_dirty (L : Line) (l : Option Bit) (s : State) : (setLevel L l s).dirty = s.dirty := by cases L <;> rfl
@[simp] theorem setLevel_fb (L : Line) (l : Option Bit) (s : State) : (setLevel L l s).fb = s.fb := by cases L <;> rfl
@[simp] theorem setLevel_panel (L : Line) (l : Option Bit) (s : State) : (setLevel L l s).panel = s.panel := by cases L <;> rfl
@[simp] theorem setLevel_events (L : Line) (l : Option Bit) (s : State) : (setLevel L l s).events = s.events := by cases L <;> rfl
@[simp] theorem setLevel_results (L : Line) (l : Option Bit) (s : State) : (setLevel L l s).results = s.results := by cases L <;> rfl
@[simp] theorem setLevel_inbox (L : Line) (l : Option Bit) (s : State) : (setLevel L l s).inbox = s.inbox := by cases L <;> rfl
@[simp] theorem setLevel_due (L : Line) (l : Option Bit) (s : State) : (setLevel L l s).due = s.due := by cases L <;> rfl
@[simp] theorem setLevel_answers (L : Line) (l : Option Bit) (s : State) : (setLevel L l s).answers = s.answers := by cases L <;> rfl
@[simp] theorem setLevel_free (L : Line) (l : Option Bit) (s : State) : (setLevel L l s).free = s.free := by cases L <;> rfl

/-! ### `setHandle` -/

@[simp] theorem setHandle_cfg (L : Line) (h : Option Nat) (s : State) : (setHandle L h s).cfg = s.cfg := by cases L <;> rfl
@[simp] theorem setHandle_drvState (L : Line) (h : Option Nat) (s : State) : (setHandle L h s).drvState = s.drvState := by cases L <;> rfl
@[simp] theorem setHandle_curRotation (L : Line) (h : Option Nat) (s : State) : (setHandle L h s).curRotation = s.curRotation := by cases L <;> rfl
@[simp] theorem setHandle_lastError (L : Line) (h : Option Nat) (s : State) : (setHandle L h s).lastError = s.lastError := by cases L <;> rfl
@[simp] theorem setHandle_lastFlushTiles (L : Line) (h : Option Nat) (s : State) : (setHandle L h s).lastFlushTiles = s.lastFlushTiles := by cases L <;> rfl
@[simp] theorem setHandle_lastFlushBytes (L : Line) (h : Option Nat) (s : State) : (setHandle L h s).lastFlushBytes = s.lastFlushBytes := by cases L <;> rfl
@[simp] theorem setHandle_hSpi (L : Line) (h : Option Nat) (s : State) : (setHandle L h s).hSpi = s.hSpi := by cases L <;> rfl
@[simp] theorem setHandle_dcLevel (L : Line) (h : Option Nat) (s : State) : (setHandle L h s).dcLevel = s.dcLevel := by cases L <;> rfl
@[simp] theorem setHandle_rstLevel (L : Line) (h : Option Nat) (s : State) : (setHandle L h s).rstLevel = s.rstLevel := by cases L <;> rfl
@[simp] theorem setHandle_blLevel (L : Line) (h : Option Nat) (s : State) : (setHandle L h s).blLevel = s.blLevel := by cases L <;> rfl
@[simp] theorem setHandle_dirty (L : Line) (h : Option Nat) (s : State) : (setHandle L h s).dirty = s.dirty := by cases L <;> rfl
@[simp] theorem setHandle_fb (L : Line) (h : Option Nat) (s : State) : (setHandle L h s).fb = s.fb := by cases L <;> rfl
@[simp] theorem setHandle_panel (L : Line) (h : Option Nat) (s : State) : (setHandle L h s).panel = s.panel := by cases L <;> rfl
@[simp] theorem setHandle_events (L : Line) (h : Option Nat) (s : State) : (setHandle L h s).events = s.events := by cases L <;> rfl
@[simp] theorem setHandle_results (L : Line) (h : Option Nat) (s : State) : (setHandle L h s).results = s.results := by cases L <;> rfl
@[simp] theorem setHandle_inbox (L : Line) (h : Option Nat) (s : State) : (setHandle L h s).inbox = s.inbox := by cases L <;> rfl
@[simp] theorem setHandle_due (L : Line) (h : Option Nat) (s : State) : (setHandle L h s).due = s.due := by cases L <;> rfl
@[simp] theorem setHandle_answers (L : Line) (h : Option Nat) (s : State) : (setHandle L h s).answers = s.answers := by cases L <;> rfl
@[simp] theorem setHandle_free (L : Line) (h : Option Nat) (s : State) : (setHandle L h s).free = s.free := by cases L <;> rfl

/-! ### A line's own fields -/

@[simp] theorem setLevel_dc_dcLevel (l : Option Bit) (s : State) : (setLevel .dc l s).dcLevel = l := rfl
@[simp] theorem setLevel_dc_rstLevel (l : Option Bit) (s : State) : (setLevel .dc l s).rstLevel = s.rstLevel := rfl
@[simp] theorem setLevel_dc_blLevel (l : Option Bit) (s : State) : (setLevel .dc l s).blLevel = s.blLevel := rfl
@[simp] theorem setLevel_rst_dcLevel (l : Option Bit) (s : State) : (setLevel .rst l s).dcLevel = s.dcLevel := rfl
@[simp] theorem setLevel_rst_rstLevel (l : Option Bit) (s : State) : (setLevel .rst l s).rstLevel = l := rfl
@[simp] theorem setLevel_rst_blLevel (l : Option Bit) (s : State) : (setLevel .rst l s).blLevel = s.blLevel := rfl
@[simp] theorem setLevel_bl_dcLevel (l : Option Bit) (s : State) : (setLevel .bl l s).dcLevel = s.dcLevel := rfl
@[simp] theorem setLevel_bl_rstLevel (l : Option Bit) (s : State) : (setLevel .bl l s).rstLevel = s.rstLevel := rfl
@[simp] theorem setLevel_bl_blLevel (l : Option Bit) (s : State) : (setLevel .bl l s).blLevel = l := rfl
@[simp] theorem setHandle_dc_hDc (h : Option Nat) (s : State) : (setHandle .dc h s).hDc = h := rfl
@[simp] theorem setHandle_dc_hRst (h : Option Nat) (s : State) : (setHandle .dc h s).hRst = s.hRst := rfl
@[simp] theorem setHandle_dc_hBl (h : Option Nat) (s : State) : (setHandle .dc h s).hBl = s.hBl := rfl
@[simp] theorem setHandle_rst_hDc (h : Option Nat) (s : State) : (setHandle .rst h s).hDc = s.hDc := rfl
@[simp] theorem setHandle_rst_hRst (h : Option Nat) (s : State) : (setHandle .rst h s).hRst = h := rfl
@[simp] theorem setHandle_rst_hBl (h : Option Nat) (s : State) : (setHandle .rst h s).hBl = s.hBl := rfl
@[simp] theorem setHandle_bl_hDc (h : Option Nat) (s : State) : (setHandle .bl h s).hDc = s.hDc := rfl
@[simp] theorem setHandle_bl_hRst (h : Option Nat) (s : State) : (setHandle .bl h s).hRst = s.hRst := rfl
@[simp] theorem setHandle_bl_hBl (h : Option Nat) (s : State) : (setHandle .bl h s).hBl = h := rfl

@[simp] theorem lineHandle_dc (s : State) : lineHandle s .dc = s.hDc := rfl
@[simp] theorem lineHandle_rst (s : State) : lineHandle s .rst = s.hRst := rfl
@[simp] theorem lineHandle_bl (s : State) : lineHandle s .bl = s.hBl := rfl
@[simp] theorem lineLevel_dc (s : State) : lineLevel s .dc = s.dcLevel := rfl
@[simp] theorem lineLevel_rst (s : State) : lineLevel s .rst = s.rstLevel := rfl
@[simp] theorem lineLevel_bl (s : State) : lineLevel s .bl = s.blLevel := rfl

/-! ### `takeError` -/

@[simp] theorem takeError_cfg (b : Bool) (e : OpError) (s : State) : (takeError b e s).cfg = s.cfg := by unfold takeError; split <;> rfl
@[simp] theorem takeError_curRotation (b : Bool) (e : OpError) (s : State) : (takeError b e s).curRotation = s.curRotation := by unfold takeError; split <;> rfl
@[simp] theorem takeError_lastError (b : Bool) (e : OpError) (s : State) : (takeError b e s).lastError = errorCode e := by unfold takeError; split <;> rfl
@[simp] theorem takeError_lastFlushTiles (b : Bool) (e : OpError) (s : State) : (takeError b e s).lastFlushTiles = s.lastFlushTiles := by unfold takeError; split <;> rfl
@[simp] theorem takeError_lastFlushBytes (b : Bool) (e : OpError) (s : State) : (takeError b e s).lastFlushBytes = s.lastFlushBytes := by unfold takeError; split <;> rfl
@[simp] theorem takeError_hSpi (b : Bool) (e : OpError) (s : State) : (takeError b e s).hSpi = s.hSpi := by unfold takeError; split <;> rfl
@[simp] theorem takeError_hDc (b : Bool) (e : OpError) (s : State) : (takeError b e s).hDc = s.hDc := by unfold takeError; split <;> rfl
@[simp] theorem takeError_hRst (b : Bool) (e : OpError) (s : State) : (takeError b e s).hRst = s.hRst := by unfold takeError; split <;> rfl
@[simp] theorem takeError_hBl (b : Bool) (e : OpError) (s : State) : (takeError b e s).hBl = s.hBl := by unfold takeError; split <;> rfl
@[simp] theorem takeError_dcLevel (b : Bool) (e : OpError) (s : State) : (takeError b e s).dcLevel = s.dcLevel := by unfold takeError; split <;> rfl
@[simp] theorem takeError_rstLevel (b : Bool) (e : OpError) (s : State) : (takeError b e s).rstLevel = s.rstLevel := by unfold takeError; split <;> rfl
@[simp] theorem takeError_blLevel (b : Bool) (e : OpError) (s : State) : (takeError b e s).blLevel = s.blLevel := by unfold takeError; split <;> rfl
@[simp] theorem takeError_dirty (b : Bool) (e : OpError) (s : State) : (takeError b e s).dirty = s.dirty := by unfold takeError; split <;> rfl
@[simp] theorem takeError_fb (b : Bool) (e : OpError) (s : State) : (takeError b e s).fb = s.fb := by unfold takeError; split <;> rfl
@[simp] theorem takeError_events (b : Bool) (e : OpError) (s : State) : (takeError b e s).events = s.events := by unfold takeError; split <;> rfl
@[simp] theorem takeError_results (b : Bool) (e : OpError) (s : State) : (takeError b e s).results = s.results ++ [.err e] := by unfold takeError; split <;> rfl
@[simp] theorem takeError_inbox (b : Bool) (e : OpError) (s : State) : (takeError b e s).inbox = s.inbox := by unfold takeError; split <;> rfl
@[simp] theorem takeError_due (b : Bool) (e : OpError) (s : State) : (takeError b e s).due = s.due := by unfold takeError; split <;> rfl
@[simp] theorem takeError_answers (b : Bool) (e : OpError) (s : State) : (takeError b e s).answers = s.answers := by unfold takeError; split <;> rfl
@[simp] theorem takeError_drvState (b : Bool) (e : OpError) (s : State) :
    (takeError b e s).drvState = if b || errorFatal e then .failed else s.drvState := by
  unfold takeError; split <;> rfl
@[simp] theorem takeError_panel (b : Bool) (e : OpError) (s : State) :
    (takeError b e s).panel = if b || errorFatal e then unknownPanel s.free else s.panel := by
  unfold takeError; split <;> rfl
@[simp] theorem takeError_free (b : Bool) (e : OpError) (s : State) :
    (takeError b e s).free = if b || errorFatal e then s.free + 1 else s.free := by
  unfold takeError; split <;> rfl

end Sys2Proof.Machine
end

