-- ==== Sys2Proof/Laws/Chunks.lean ====
section
/-! SUPPORT. What the greedy cut of a data phase gives (spec/42_framer.md R92). -/

namespace Sys2Proof.Machine

@[simp] theorem chunksFuel_nil (m fuel : Nat) : chunksFuel m fuel [] = [] := by
  cases fuel <;> rfl

@[simp] theorem chunks_nil (m : Nat) : chunks m [] = [] := rfl

/-- More fuel than bytes changes nothing. -/
theorem chunksFuel_stable (m : Nat) (hm : 1 ≤ m) :
    ∀ (fuel : Nat) (bs : List Byte), bs.length ≤ fuel → chunksFuel m fuel bs = chunks m bs := by
  have key : ∀ (n f g : Nat) (bs : List Byte), bs.length ≤ n → bs.length ≤ f → bs.length ≤ g →
      chunksFuel m f bs = chunksFuel m g bs := by
    intro n
    induction n with
    | zero =>
      intro f g bs h _ _
      have : bs = [] := List.length_eq_zero_iff.mp (Nat.le_zero.mp h)
      simp [this]
    | succ n ih =>
      intro f g bs h hf hg
      cases bs with
      | nil => simp
      | cons b bs =>
        cases f with
        | zero => simp at hf
        | succ f =>
          cases g with
          | zero => simp at hg
          | succ g =>
            simp only [chunksFuel]
            congr 1
            apply ih <;> (simp only [List.length_drop, List.length_cons] at *; omega)
  intro fuel bs h
  exact key bs.length fuel bs.length bs (Nat.le_refl _) h (Nat.le_refl _)

/-- One chunk, then the rest. -/
theorem chunks_cons (m : Nat) (hm : 1 ≤ m) (b : Byte) (bs : List Byte) :
    chunks m (b :: bs) = (b :: bs).take m :: chunks m ((b :: bs).drop m) := by
  conv_lhs => rw [chunks, List.length_cons, chunksFuel]
  rw [chunksFuel_stable m hm]
  simp only [List.length_drop, List.length_cons]
  omega

/-- Induction along the chunks of a byte list. -/
theorem chunks_induction (m : Nat) (hm : 1 ≤ m) {P : List Byte → Prop} (nil : P [])
    (cons : ∀ b bs, P ((b :: bs).drop m) → P (b :: bs)) : ∀ bs, P bs := by
  have key : ∀ n bs, bs.length ≤ n → P bs := by
    intro n
    induction n with
    | zero => intro bs h; rw [List.length_eq_zero_iff.mp (Nat.le_zero.mp h)]; exact nil
    | succ n ih =>
      intro bs h
      cases bs with
      | nil => exact nil
      | cons b bs =>
        apply cons
        apply ih
        simp only [List.length_drop, List.length_cons] at *
        omega
  exact fun bs => key bs.length bs (Nat.le_refl _)

/-- Every chunk is non-empty and no longer than the limit. -/
theorem length_of_mem_chunks (m : Nat) (hm : 1 ≤ m) (bs : List Byte) :
    ∀ c ∈ chunks m bs, 1 ≤ c.length ∧ c.length ≤ m := by
  induction bs using chunks_induction m hm with
  | nil => simp
  | cons b bs ih =>
    rw [chunks_cons m hm]
    intro c hc
    rcases List.mem_cons.mp hc with rfl | hc
    · simp only [List.length_take, List.length_cons]
      omega
    · exact ih c hc

/-- One step of a ceiling division. -/
theorem ceilDiv_step (n m : Nat) (hm : 1 ≤ m) (hn : 1 ≤ n) : ceilDiv n m = ceilDiv (n - m) m + 1 := by
  unfold ceilDiv
  by_cases h : n ≤ m
  · rw [Nat.sub_eq_zero_of_le h]
    rw [show n + m - 1 = (n - 1) + m by omega, Nat.add_div_right _ hm, Nat.div_eq_of_lt (by omega), Nat.div_eq_of_lt (by omega)]
  · rw [show n + m - 1 = (n - m + m - 1) + m by omega, Nat.add_div_right _ hm]

theorem ceilDiv_zero (m : Nat) (hm : 1 ≤ m) : ceilDiv 0 m = 0 := by
  unfold ceilDiv; exact Nat.div_eq_of_lt (by omega)

/-- The chunks put together are the bytes. -/
theorem chunks_flatten (m : Nat) (hm : 1 ≤ m) (bs : List Byte) : (chunks m bs).flatten = bs := by
  induction bs using chunks_induction m hm with
  | nil => rfl
  | cons b bs ih => rw [chunks_cons m hm, List.flatten_cons, ih, List.take_append_drop]

/-- R93: how many chunks there are. -/
theorem chunks_length (m : Nat) (hm : 1 ≤ m) (bs : List Byte) : (chunks m bs).length = ceilDiv bs.length m := by
  induction bs using chunks_induction m hm with
  | nil => exact (ceilDiv_zero m hm).symm
  | cons b bs ih =>
    rw [chunks_cons m hm, List.length_cons, ih, List.length_drop, ← ceilDiv_step _ m hm (by simp)]

/-- R92: every chunk but the last is full. -/
theorem chunks_full (m : Nat) (hm : 1 ≤ m) (bs : List Byte) :
    ∀ k, k + 1 < (chunks m bs).length → ((chunks m bs)[k]?.map List.length) = some m := by
  induction bs using chunks_induction m hm with
  | nil => intro k h; simp at h
  | cons b bs ih =>
    intro k h
    rw [chunks_cons m hm] at h ⊢
    cases k with
    | zero =>
      simp only [List.getElem?_cons_zero, Option.map_some, List.length_take, Option.some.injEq]
      rw [List.length_cons, chunks_length m hm, List.length_drop] at h
      by_cases hb : m ≤ (b :: bs).length
      · omega
      · rw [Nat.sub_eq_zero_of_le (by omega), ceilDiv_zero m hm] at h; omega
    | succ k =>
      rw [List.getElem?_cons_succ]
      exact ih k (by simpa using h)

/-- R93: an even limit cuts an even stream between pixels. -/
theorem chunks_even (m : Nat) (hm : 1 ≤ m) (he : m % 2 = 0) (bs : List Byte) :
    bs.length % 2 = 0 → ∀ c ∈ chunks m bs, c.length % 2 = 0 := by
  induction bs using chunks_induction m hm with
  | nil => simp
  | cons b bs ih =>
    intro h c hc
    rw [chunks_cons m hm] at hc
    rcases List.mem_cons.mp hc with rfl | hc
    · rw [List.length_take]; omega
    · exact ih (by rw [List.length_drop]; omega) c hc

/-- A single byte is a single chunk. -/
theorem chunks_single (m : Nat) (hm : 1 ≤ m) (b : Byte) : chunks m [b] = [[b]] := by
  rw [chunks_cons m hm, List.take_of_length_le (by simpa using hm), List.drop_eq_nil_of_le (by simpa using hm), chunks_nil]

end Sys2Proof.Machine
end

