-- ==== Sys2Proof/Laws/Dispatch.lean ====
section
/-! SUPPORT. Each arm of the dispatch as an equation, so that no proof unfolds the whole match. -/

namespace Sys2Proof.Machine
@[simp] theorem exec_init (s : State) :
    exec .init s = execInit s := rfl
@[simp] theorem exec_pushRect (x y w h : Word) (pixels : List Word) (s : State) :
    exec (.pushRect x y w h pixels) s = execPushRect x y w h pixels s := rfl
@[simp] theorem exec_pushRectSolid (x y w h color : Word) (s : State) :
    exec (.pushRectSolid x y w h color) s = execPushRectSolid x y w h color s := rfl
@[simp] theorem exec_setRotation (r : BitVec 2) (s : State) :
    exec (.setRotation r) s = execSetRotation r s := rfl
@[simp] theorem exec_setBacklight (on : Bool) (s : State) :
    exec (.setBacklight on) s = execSetBacklight on s := rfl
@[simp] theorem exec_dispose (s : State) :
    exec .dispose s = execDispose s := rfl
@[simp] theorem exec_markDirtyRect (x y w h : BitVec 32) (s : State) :
    exec (.markDirtyRect x y w h) s = execMarkDirtyRect x y w h s := rfl
@[simp] theorem exec_markAll (s : State) :
    exec .markAll s = execMarkAll s := rfl
@[simp] theorem exec_flush (s : State) :
    exec .flush s = execFlush s := rfl
@[simp] theorem exec_pack565 (r g b : Byte) (s : State) :
    exec (.pack565 r g b) s = execPack565 r g b s := rfl
@[simp] theorem exec_pack565a (r g b a : Byte) (s : State) :
    exec (.pack565a r g b a) s = execPack565a r g b a s := rfl
@[simp] theorem exec_unpack565 (c : Word) (s : State) :
    exec (.unpack565 c) s = execUnpack565 c s := rfl
@[simp] theorem exec_blend565 (src dst : Word) (alpha : Byte) (s : State) :
    exec (.blend565 src dst alpha) s = execBlend565 src dst alpha s := rfl
@[simp] theorem exec_modulate565 (a b : Word) (s : State) :
    exec (.modulate565 a b) s = execModulate565 a b s := rfl
@[simp] theorem exec_reservedE (s : State) :
    exec .reservedE s = execReservedE s := rfl
@[simp] theorem exec_reservedF (s : State) :
    exec .reservedF s = execReservedF s := rfl
@[simp] theorem exec_swreset (s : State) :
    exec .swreset s = execSwreset s := rfl
@[simp] theorem exec_slpout (s : State) :
    exec .slpout s = execSlpout s := rfl
@[simp] theorem exec_colmod (s : State) :
    exec .colmod s = execColmod s := rfl
@[simp] theorem exec_caset (xs xe : Word) (s : State) :
    exec (.caset xs xe) s = execCaset xs xe s := rfl
@[simp] theorem exec_raset (ys ye : Word) (s : State) :
    exec (.raset ys ye) s = execRaset ys ye s := rfl
@[simp] theorem exec_madctl (r : BitVec 2) (s : State) :
    exec (.madctl r) s = execMadctl r s := rfl
@[simp] theorem exec_ramwr (pixels : List Word) (s : State) :
    exec (.ramwr pixels) s = execRamwr pixels s := rfl
@[simp] theorem exec_invon (s : State) :
    exec .invon s = execInvon s := rfl
@[simp] theorem exec_invoff (s : State) :
    exec .invoff s = execInvoff s := rfl
@[simp] theorem exec_dispon (s : State) :
    exec .dispon s = execDispon s := rfl
@[simp] theorem exec_panelCmd (op : Byte) (payload : List Byte) (delayMs : Nat) (s : State) :
    exec (.panelCmd op payload delayMs) s = execPanelCmd op payload delayMs s := rfl

end Sys2Proof.Machine
end

