-- ==== Sys2Proof/Laws/Due.lean ====
section
/-! SUPPORT. An operation that comes to a wire command sends exactly that command: `perform` is its `send`, which neither
reads nor writes `due`. So every operation of the sequencer and the framer has the equation of its pseudocode. -/

namespace Sys2Proof.Machine

/-- A sequence that neither reads nor writes `due`. -/
def IgnoresDue (f : State → Ctl) : Prop := ∀ (d : Option Instr) (s : State), f { s with due := d } = (f s).withDue d

theorem Ctl.withDue_withDue (x : Ctl) (a b : Option Instr) : (x.withDue a).withDue b = x.withDue b := by
  cases x <;> rfl

theorem IgnoresDue.bind {f g : State → Ctl} (hf : IgnoresDue f) (hg : IgnoresDue g) :
    IgnoresDue fun s => (f s).bind g := by
  intro d s
  show (f { s with due := d }).bind g = ((f s).bind g).withDue d
  rw [hf d s]
  cases f s with
  | go t => exact hg d t
  | raise e t => rfl

/-- What a sequence that ignores `due` leaves in it. -/
theorem IgnoresDue.kept {f : State → Ctl} (h : IgnoresDue f) (s : State) : (f s).withDue s.due = f s := (h s.due s).symm

/-- The one thing `perform` does. -/
theorem perform_eq {f : State → Ctl} (h : IgnoresDue f) (i : Instr) (op : Byte) (s : State) : perform i op f s = f s := by
  have hs : sendDue i op f { s with due := some i } = (f s).withDue none := by
    unfold sendDue
    exact (if_pos rfl).trans (h none s)
  rw [perform, hs, Ctl.withDue_withDue, h.kept]

theorem ignoresDue_setLine (L : Line) (l : Bit) : IgnoresDue (setLine L l) := by
  intro d s
  have hn : nextAnswer { s with due := d } = nextAnswer s := rfl
  unfold setLine
  rw [hn]
  split <;> cases L <;> rfl

theorem ignoresDue_tx (bytes : List Byte) : IgnoresDue (tx bytes) := by
  intro d s
  have hn : nextAnswer { s with due := d } = nextAnswer s := rfl
  unfold tx
  rw [hn]
  split
  · split <;> rfl
  · rfl

theorem ignoresDue_txAll (cs : List (List Byte)) : IgnoresDue (txAll cs) := by
  induction cs with
  | nil => exact fun _ _ => rfl
  | cons c cs ih => exact (ignoresDue_tx c).bind ih

theorem ignoresDue_command (op : Byte) (payload : List Byte) : IgnoresDue (command op payload) := by
  have hd : IgnoresDue (commandData payload) := by
    intro d s
    cases payload with
    | nil => rfl
    | cons b bs =>
      refine IgnoresDue.bind (ignoresDue_setLine .dc (dcDataLevel s.cfg)) (g := dataPhase (b :: bs)) ?_ d s
      exact fun d t => ignoresDue_txAll (chunks t.cfg.maxXfer (b :: bs)) d t
  exact fun d s => IgnoresDue.bind ((ignoresDue_setLine .dc s.cfg.dcCmdLevel).bind (ignoresDue_tx [op])) hd d s

theorem ignoresDue_delayIfPos (ms : Cfg → Nat) : IgnoresDue fun s => .go (delayIfPos (ms s.cfg) s) := by
  intro d s
  show Ctl.go (delayIfPos (ms s.cfg) { s with due := d }) = (Ctl.go (delayIfPos (ms s.cfg) s)).withDue d
  unfold delayIfPos
  split <;> rfl

theorem ignoresDue_swreset : IgnoresDue sendSwreset := (ignoresDue_command 0x01 []).bind (ignoresDue_delayIfPos (·.tSwresetMs))
theorem ignoresDue_slpout : IgnoresDue sendSlpout := (ignoresDue_command 0x11 []).bind (ignoresDue_delayIfPos (·.tSlpoutMs))
theorem ignoresDue_colmod : IgnoresDue sendColmod := fun d s => ignoresDue_command 0x3A [s.cfg.colmodValue] d s
theorem ignoresDue_caset (xs xe : Word) : IgnoresDue (sendCaset xs xe) := ignoresDue_command _ _
theorem ignoresDue_raset (ys ye : Word) : IgnoresDue (sendRaset ys ye) := ignoresDue_command _ _
theorem ignoresDue_madctl (r : BitVec 2) : IgnoresDue (sendMadctl r) := fun d s =>
  (ignoresDue_command 0x36 [madctlByte s.cfg r]).bind (g := fun s => .go { s with curRotation := some r }) (fun _ _ => rfl) d s
theorem ignoresDue_ramwr (ps : List Word) : IgnoresDue (sendRamwr ps) := ignoresDue_command _ _
theorem ignoresDue_invon : IgnoresDue sendInvon := ignoresDue_command _ _
theorem ignoresDue_invoff : IgnoresDue sendInvoff := ignoresDue_command _ _
theorem ignoresDue_dispon : IgnoresDue sendDispon := (ignoresDue_command 0x29 []).bind (ignoresDue_delayIfPos (·.tDisponMs))
theorem ignoresDue_panelCmd (op : Byte) (payload : List Byte) (ms : Nat) : IgnoresDue (sendPanelCmd op payload ms) :=
  (ignoresDue_command op payload).bind (ignoresDue_delayIfPos fun _ => ms)

/-! ### The operations, as their pseudocode has them -/

/-- R95. -/
theorem setWindow_eq (x y w h : Nat) (s : State) : setWindow x y w h s =
    (sendCaset (BitVec.ofNat 16 (absXs s.cfg x)) (BitVec.ofNat 16 (absXe s.cfg x w)) s).bind
      (sendRaset (BitVec.ofNat 16 (absYs s.cfg y)) (BitVec.ofNat 16 (absYe s.cfg y h))) := by
  unfold setWindow
  dsimp only
  rw [perform_eq (ignoresDue_caset _ _), funext (perform_eq (ignoresDue_raset _ _) _ _)]

/-- R107. -/
theorem pushRectBody_eq (tag : OpTag) (x y w h : Nat) (src : List Word) (s : State) : pushRectBody tag x y w h src s =
    if s.drvState ≠ .ready then .raise (.invalidState s.drvState tag) s
    else if w = 0 ∨ h = 0 then .go s
    else if windowFits s.cfg x y w h then (setWindow x y w h s).bind (sendRamwr src)
    else .raise (.invalidArgument .windowRange) s := by
  unfold pushRectBody
  rw [funext (perform_eq (ignoresDue_ramwr src) _ _)]

/-- R116, step 7. -/
theorem sendInversion_eq (s : State) : sendInversion s = if s.cfg.invert then sendInvon s else sendInvoff s := by
  unfold sendInversion
  rw [perform_eq ignoresDue_invon, perform_eq ignoresDue_invoff]

/-- R116, step 6. -/
theorem sendTable_cons (e : PanelEntry) (es : List PanelEntry) (s : State) :
    sendTable (e :: es) s = (sendPanelCmd e.op e.payload e.delayMs s).bind (sendTable es) := by
  rw [sendTable, perform_eq (ignoresDue_panelCmd _ _ _)]

/-- R116, steps 2 to 9. -/
theorem bringUp_eq (s : State) : bringUp s =
    (((((((resetPulse s).bind sendSwreset).bind sendSlpout).bind sendColmod).bind
      fun s => sendTable s.cfg.panelInitTable s).bind sendInversion).bind fun s => sendMadctl s.cfg.rotation s).bind
      sendDispon := by
  have hr : sendRotation = fun s => sendMadctl s.cfg.rotation s :=
    funext fun s => perform_eq (ignoresDue_madctl s.cfg.rotation) _ _ s
  unfold bringUp
  rw [funext (perform_eq ignoresDue_swreset _ _), funext (perform_eq ignoresDue_slpout _ _),
    funext (perform_eq ignoresDue_colmod _ _), funext (perform_eq ignoresDue_dispon _ _), hr]

/-- R119. -/
theorem execSetRotation_eq (r : BitVec 2) (s : State) : execSetRotation r s = whenReady (.host 0x3) (sendMadctl r) s := by
  unfold execSetRotation
  rw [funext (perform_eq (ignoresDue_madctl r) _ _)]

end Sys2Proof.Machine
end

