-- ==== Sys2Proof/Laws/Ops.lean ====
section
/-! SUPPORT. Everything the shared operations can do, said once. `Ctl.Ends` says what holds where a sequence goes
on and where it has raised; `Move` lists what one primitive can do to the state; each framing operation is shown
to be a chain of moves, so that an invariant is proved by looking at the moves. -/

namespace Sys2Proof.Machine

open Sys2Proof.Safety

/-! ### Sequences -/

@[simp] theorem Ctl.bind_go (s : State) (k : State → Ctl) : (Ctl.go s).bind k = k s := rfl
@[simp] theorem Ctl.bind_raise (e : OpError) (s : State) (k : State → Ctl) :
    (Ctl.raise e s).bind k = .raise e s := rfl

/-- `G` holds of the state where the sequence goes on, `B` of the error and the state where it has raised. -/
def Ctl.Ends (G : State → Prop) (B : OpError → State → Prop) : Ctl → Prop
  | .go s => G s
  | .raise e s => B e s

@[simp] theorem Ctl.ends_go (G : State → Prop) (B : OpError → State → Prop) (s : State) :
    (Ctl.go s).Ends G B = G s := rfl
@[simp] theorem Ctl.ends_raise (G : State → Prop) (B : OpError → State → Prop) (e : OpError) (s : State) :
    (Ctl.raise e s).Ends G B = B e s := rfl

theorem Ctl.Ends.mono {G G' : State → Prop} {B B' : OpError → State → Prop} {x : Ctl}
    (h : x.Ends G B) (hg : ∀ s, G s → G' s) (hb : ∀ e s, B e s → B' e s) : x.Ends G' B' := by
  cases x with
  | go s => exact hg s h
  | raise e s => exact hb e s h

theorem Ctl.Ends.bind {G G' : State → Prop} {B B' : OpError → State → Prop} {x : Ctl} {k : State → Ctl}
    (h : x.Ends G B) (hg : ∀ s, G s → (k s).Ends G' B') (hb : ∀ e s, B e s → B' e s) :
    (x.bind k).Ends G' B' := by
  cases x with
  | go s => exact hg s h
  | raise e s => exact hb e s h

/-! ### Errors of the transport -/

/-- The errors that framing primitives raise. -/
def isTransport : OpError → Bool
  | .transportWrite _ _ => true
  | .transportLine _ => true
  | .configuration _ => false
  | .invalidState _ _ => false
  | .invalidArgument _ => false
  | .illegalOperation _ => false

theorem errorFatal_of_isTransport {e : OpError} (h : isTransport e = true) : errorFatal e = true := by
  cases e <;> simp_all [isTransport, errorFatal]

theorem errorCode_of_isTransport {e : OpError} (h : isTransport e = true) : errorCode e = 2 := by
  cases e <;> simp_all [isTransport, errorCode]

/-! ### What one primitive can do -/

/-- What a transaction must look like (R56, R57, R151). -/
def Framed (s : State) (bytes : List Byte) : Prop :=
  (1 ≤ bytes.length ∧ bytes.length ≤ s.cfg.maxXfer) ∧
    ((s.dcLevel = some s.cfg.dcCmdLevel ∧ bytes.length = 1) ∨ s.dcLevel = some (dcDataLevel s.cfg))

/-- One move of the block inside an operation. -/
inductive Move (s : State) : State → Prop where
  | wrote (bytes : List Byte) (held : s.hSpi.isSome = true) (framed : Framed s bytes) :
      Move s (logged (.spiWrite s.hSpi bytes) (.count bytes.length) (panelTakes bytes (drawn s)))
  | writeFailed (bytes : List Byte) (r : Reply) (held : s.hSpi.isSome = true) (framed : Framed s bytes)
      (short : r = .err ∨ ∃ n, n < bytes.length ∧ r = .count n) :
      Move s (logged (.spiWrite s.hSpi bytes) r (drawn s))
  | lineSet (L : Line) (l : Bit) (held : (lineHandle s L).isSome = true) :
      Move s (setLevel L (some l) (logged (.gpioSet L (lineHandle s L) l) .ok (drawn s)))
  | lineFailed (L : Line) (l : Bit) (held : (lineHandle s L).isSome = true) :
      Move s (setLevel L none (logged (.gpioSet L (lineHandle s L) l) .err (drawn s)))
  | waited (ms : Nat) : Move s (delay ms s)
  | rotated (r : BitVec 2) : Move s { s with curRotation := some r }

/-- A chain of moves. -/
abbrev Moves : State → State → Prop := Relation.ReflTransGen fun a b => Move a b

theorem Moves.one {s t : State} (h : Move s t) : Moves s t := Relation.ReflTransGen.single h

/-- What no move changes. -/
def Steady (s t : State) : Prop :=
  t = { s with
    curRotation := t.curRotation
    dcLevel := t.dcLevel
    rstLevel := t.rstLevel
    blLevel := t.blLevel
    panel := t.panel
    events := t.events
    answers := t.answers
    free := t.free }

theorem Steady.refl (s : State) : Steady s s := rfl

theorem Steady.trans {s t u : State} (h : Steady s t) (k : Steady t u) : Steady s u := by
  unfold Steady at *
  rw [k, h]

theorem Steady.cfg {s t : State} (h : Steady s t) : t.cfg = s.cfg := by rw [h]
theorem Steady.drvState {s t : State} (h : Steady s t) : t.drvState = s.drvState := by rw [h]
theorem Steady.lastError {s t : State} (h : Steady s t) : t.lastError = s.lastError := by rw [h]
theorem Steady.lastFlushTiles {s t : State} (h : Steady s t) : t.lastFlushTiles = s.lastFlushTiles := by
  rw [h]
theorem Steady.lastFlushBytes {s t : State} (h : Steady s t) : t.lastFlushBytes = s.lastFlushBytes := by
  rw [h]
theorem Steady.hSpi {s t : State} (h : Steady s t) : t.hSpi = s.hSpi := by rw [h]
theorem Steady.hDc {s t : State} (h : Steady s t) : t.hDc = s.hDc := by rw [h]
theorem Steady.hRst {s t : State} (h : Steady s t) : t.hRst = s.hRst := by rw [h]
theorem Steady.hBl {s t : State} (h : Steady s t) : t.hBl = s.hBl := by rw [h]
theorem Steady.dirty {s t : State} (h : Steady s t) : t.dirty = s.dirty := by rw [h]
theorem Steady.fb {s t : State} (h : Steady s t) : t.fb = s.fb := by rw [h]
theorem Steady.results {s t : State} (h : Steady s t) : t.results = s.results := by rw [h]
theorem Steady.due {s t : State} (h : Steady s t) : t.due = s.due := by rw [h]
theorem Steady.inbox {s t : State} (h : Steady s t) : t.inbox = s.inbox := by rw [h]
theorem Steady.lineHandle {s t : State} (h : Steady s t) (L : Line) : lineHandle t L = lineHandle s L := by
  rw [h]; cases L <;> rfl

theorem Move.steady {s t : State} (h : Move s t) : Steady s t := by
  cases h with
  | wrote => rfl
  | writeFailed => rfl
  | lineSet L => cases L <;> rfl
  | lineFailed L => cases L <;> rfl
  | waited => rfl
  | rotated => rfl

theorem Moves.steady {s t : State} (h : Moves s t) : Steady s t := by
  induction h with
  | refl => exact Steady.refl s
  | tail _ m ih => exact ih.trans m.steady

/-! ### The framing primitives -/

/-- R91: everything `SETLINE` can do. -/
theorem setLine_ends (L : Line) (l : Bit) (s : State) (h : (lineHandle s L).isSome = true) :
    (setLine L l s).Ends
      (fun t => Move s t ∧ lineLevel t L = some l ∧
        t = setLevel L (some l) (logged (.gpioSet L (lineHandle s L) l) .ok (drawn s)))
      (fun e t => Move s t ∧ e = .transportLine L) := by
  unfold setLine
  split
  · exact ⟨.lineSet L l h, by cases L <;> rfl, rfl⟩
  · exact ⟨.lineFailed L l h, rfl⟩

/-- R90: everything `TX` can do. -/
theorem tx_ends (bytes : List Byte) (s : State) (h : s.hSpi.isSome = true) (f : Framed s bytes) :
    (tx bytes s).Ends
      (fun t => Move s t ∧
        t = logged (.spiWrite s.hSpi bytes) (.count bytes.length) (panelTakes bytes (drawn s)))
      (fun e t => Move s t ∧ isTransport e = true) := by
  unfold tx
  have hn : ∀ n, writtenCount bytes.length (nextAnswer s) = some n → n ≤ bytes.length := by
    intro n hw
    cases ha : nextAnswer s with
    | good v =>
      rw [ha] at hw
      have : bytes.length = n := by simpa [writtenCount] using hw
      omega
    | short k =>
      rw [ha] at hw
      have : min k bytes.length = n := by simpa [writtenCount] using hw
      omega
    | bad => rw [ha] at hw; simp [writtenCount] at hw
  split
  · rename_i n hw
    split
    · rename_i heq
      subst heq
      exact ⟨.wrote bytes h f, rfl⟩
    · rename_i hne
      exact ⟨.writeFailed bytes _ h f (.inr ⟨n, Nat.lt_of_le_of_ne (hn n hw) hne, rfl⟩), rfl⟩
  · exact ⟨.writeFailed bytes _ h f (.inl rfl), rfl⟩

/-- R92: everything a run of transactions at the data level can do. -/
theorem txAll_ends (cs : List (List Byte)) :
    ∀ s : State, s.hSpi.isSome = true → s.dcLevel = some (dcDataLevel s.cfg) →
      (∀ c ∈ cs, 1 ≤ c.length ∧ c.length ≤ s.cfg.maxXfer) →
      (txAll cs s).Ends (fun t => Moves s t ∧ t.dcLevel = s.dcLevel)
        (fun e t => Moves s t ∧ isTransport e = true) := by
  induction cs with
  | nil => exact fun s _ _ _ => ⟨.refl, rfl⟩
  | cons c cs ih =>
    intro s h hd hc
    refine (tx_ends c s h ⟨hc c List.mem_cons_self, .inr hd⟩).bind ?_ (fun e t k => ⟨Moves.one k.1, k.2⟩)
    rintro t ⟨m, ht⟩
    have st := m.steady
    have hdt : t.dcLevel = s.dcLevel := by rw [ht]; rfl
    refine (ih t (by rw [st.hSpi, h]) (by rw [hdt, st.cfg, hd])
      (fun d hdm => st.cfg ▸ hc d (List.mem_cons_of_mem _ hdm))).mono ?_ ?_
    · exact fun u k => ⟨(Moves.one m).trans k.1, k.2.trans hdt⟩
    · exact fun e u k => ⟨(Moves.one m).trans k.1, k.2⟩

/-- R94: everything `Command` can do. -/
theorem command_ends (op : Byte) (payload : List Byte) (s : State) (hs : s.hSpi.isSome = true)
    (hd : s.hDc.isSome = true) (hm : 1 ≤ s.cfg.maxXfer) :
    (command op payload s).Ends (fun t => Moves s t) (fun e t => Moves s t ∧ isTransport e = true) := by
  unfold command
  refine Ctl.Ends.bind (G := fun t => Moves s t) (B := fun e t => Moves s t ∧ isTransport e = true) ?_ ?_
    (fun e t k => k)
  · refine (setLine_ends .dc s.cfg.dcCmdLevel s hd).bind ?_ (fun e t k => ⟨Moves.one k.1, by rw [k.2]; rfl⟩)
    rintro t ⟨m, hl, -⟩
    have st := m.steady
    refine (tx_ends [op] t (by rw [st.hSpi, hs])
      ⟨⟨Nat.le_refl _, by rw [st.cfg]; exact hm⟩, .inl ⟨by rw [st.cfg]; exact hl, rfl⟩⟩).mono ?_ ?_
    · exact fun u k => (Moves.one m).trans (Moves.one k.1)
    · exact fun e u k => ⟨(Moves.one m).trans (Moves.one k.1), k.2⟩
  · intro t m
    have st := m.steady
    cases payload with
    | nil => exact m
    | cons b bs =>
      refine (setLine_ends .dc (dcDataLevel t.cfg) t (by simpa [st.hDc] using hd)).bind ?_
        (fun e u k => ⟨m.trans (Moves.one k.1), by rw [k.2]; rfl⟩)
      rintro u ⟨m', hl, -⟩
      have st' := m'.steady
      have hm' : 1 ≤ u.cfg.maxXfer := by rw [st'.cfg, st.cfg]; exact hm
      refine (txAll_ends _ u (by rw [st'.hSpi, st.hSpi, hs]) (by rw [st'.cfg]; exact hl)
        (length_of_mem_chunks _ hm' _)).mono ?_ ?_
      · exact fun v k => (m.trans (Moves.one m')).trans k.1
      · exact fun e v k => ⟨(m.trans (Moves.one m')).trans k.1, k.2⟩

/-- What a framing sequence needs of the state it starts in. -/
structure CanSend (s : State) : Prop where
  spi  : s.hSpi.isSome = true
  dc   : s.hDc.isSome = true
  xfer : 1 ≤ s.cfg.maxXfer

theorem CanSend.of_steady {s t : State} (h : CanSend s) (st : Steady s t) : CanSend t :=
  ⟨by rw [st.hSpi]; exact h.spi, by rw [st.hDc]; exact h.dc, by rw [st.cfg]; exact h.xfer⟩

/-- A sequence that only makes moves, and raises only errors of the transport. -/
def Sends (s : State) (x : Ctl) : Prop :=
  x.Ends (fun t => Moves s t) (fun e t => Moves s t ∧ isTransport e = true)

theorem Sends.go (s : State) : Sends s (.go s) := .refl

theorem Sends.bind {s : State} {x : Ctl} {k : State → Ctl} (h : Sends s x)
    (hk : ∀ t, Moves s t → Sends t (k t)) : Sends s (x.bind k) :=
  Ctl.Ends.bind h
    (fun t m => (hk t m).mono (fun _ n => m.trans n) (fun _ _ n => ⟨m.trans n.1, n.2⟩))
    (fun _ _ b => b)

theorem Sends.one {s t : State} (m : Move s t) : Sends s (.go t) := Moves.one m

theorem sends_command (op : Byte) (payload : List Byte) {s : State} (h : CanSend s) :
    Sends s (command op payload s) := command_ends op payload s h.spi h.dc h.xfer

theorem sends_delayIfPos (ms : Nat) (s : State) : Sends s (.go (delayIfPos ms s)) := by
  unfold delayIfPos
  split
  · exact .one (.waited ms)
  · exact .go s

theorem sends_command_delay (op : Byte) (payload : List Byte) (ms : State → Nat) {s : State} (h : CanSend s) :
    Sends s ((command op payload s).bind fun t => .go (delayIfPos (ms t) t)) :=
  (sends_command op payload h).bind fun t _ => sends_delayIfPos (ms t) t

theorem sends_swreset {s : State} (h : CanSend s) : Sends s (sendSwreset s) :=
  sends_command_delay _ _ _ h

theorem sends_slpout {s : State} (h : CanSend s) : Sends s (sendSlpout s) :=
  sends_command_delay _ _ _ h

theorem sends_colmod {s : State} (h : CanSend s) : Sends s (sendColmod s) := sends_command _ _ h

theorem sends_caset (xs xe : Word) {s : State} (h : CanSend s) : Sends s (sendCaset xs xe s) :=
  sends_command _ _ h

theorem sends_raset (ys ye : Word) {s : State} (h : CanSend s) : Sends s (sendRaset ys ye s) :=
  sends_command _ _ h

theorem sends_madctl (r : BitVec 2) {s : State} (h : CanSend s) : Sends s (sendMadctl r s) :=
  (sends_command _ _ h).bind fun _ _ => .one (.rotated r)

theorem sends_ramwr (ps : List Word) {s : State} (h : CanSend s) : Sends s (sendRamwr ps s) :=
  sends_command _ _ h

theorem sends_invon {s : State} (h : CanSend s) : Sends s (sendInvon s) := sends_command _ _ h

theorem sends_invoff {s : State} (h : CanSend s) : Sends s (sendInvoff s) := sends_command _ _ h

theorem sends_dispon {s : State} (h : CanSend s) : Sends s (sendDispon s) :=
  sends_command_delay _ _ _ h

theorem sends_panelCmd (op : Byte) (payload : List Byte) (ms : Nat) {s : State} (h : CanSend s) :
    Sends s (sendPanelCmd op payload ms s) := sends_command_delay _ _ _ h

theorem sends_setWindow (x y w h : Nat) {s : State} (c : CanSend s) : Sends s (setWindow x y w h s) := by
  rw [setWindow_eq]
  exact (sends_caset _ _ c).bind fun _ m => sends_raset _ _ (c.of_steady m.steady)

/-- R107: everything `PUSH_RECT_BODY` can do. -/
theorem pushRectBody_ends (tag : OpTag) (x y w h : Nat) (src : List Word) (s : State)
    (c : s.drvState = .ready → CanSend s) :
    (pushRectBody tag x y w h src s).Ends (fun t => Moves s t)
      (fun e t => Moves s t ∧
        ((e = .invalidState s.drvState tag ∧ s.drvState ≠ .ready ∧ t = s) ∨
         (e = .invalidArgument .windowRange ∧ s.drvState = .ready ∧ t = s) ∨
         (isTransport e = true ∧ s.drvState = .ready))) := by
  rw [pushRectBody_eq]
  split
  · rename_i hne
    exact ⟨.refl, .inl ⟨rfl, hne, rfl⟩⟩
  · rename_i hr
    have hr : s.drvState = .ready := Decidable.not_not.mp hr
    split
    · exact .refl
    · split
      · exact ((sends_setWindow x y w h (c hr)).bind fun _ m =>
          sends_ramwr _ ((c hr).of_steady m.steady)).mono (fun _ m => m)
            (fun e t k => ⟨k.1, .inr (.inr ⟨k.2, hr⟩)⟩)
      · exact ⟨.refl, .inr (.inl ⟨rfl, hr, rfl⟩)⟩

/-! ### Success: an environment that answers well -/

theorem answersGood_succ {k : Nat} {s : State} (h : AnswersGood (k + 1) s) :
    ∃ v rest, s.answers = .good v :: rest ∧ k ≤ rest.length ∧ ∀ a ∈ rest.take k, ∃ v, a = .good v := by
  obtain ⟨hl, ha⟩ := h
  cases hs : s.answers with
  | nil => rw [hs] at hl; simp at hl
  | cons a rest =>
    rw [hs] at hl ha
    obtain ⟨v, rfl⟩ := ha a (by simp)
    exact ⟨v, rest, rfl, by simpa using hl, fun b hb => ha b (by simp [hb])⟩

/-- Fewer answers are needed than there are. -/
theorem answersGood_weaken {j k : Nat} {s : State} (h : AnswersGood k s) (hj : j ≤ k) : AnswersGood j s :=
  ⟨Nat.le_trans hj h.1, fun a ha => h.2 a (List.take_subset_take_left _ hj ha)⟩

/-- After `j` answers are drawn the others are still good. -/
theorem answersGood_after {j k : Nat} {s t : State} (h : AnswersGood (j + k) s)
    (ht : t.answers = s.answers.drop j) : AnswersGood k t := by
  refine ⟨by rw [ht, List.length_drop]; have := h.1; omega, fun a ha => h.2 a ?_⟩
  rw [ht] at ha
  rw [List.take_add]
  exact List.mem_append_right _ ha

theorem setLine_good (L : Line) (l : Bit) {s : State} (h : AnswersGood 1 s) :
    setLine L l s = .go (setLevel L (some l) (logged (.gpioSet L (lineHandle s L) l) .ok (drawn s))) := by
  obtain ⟨v, rest, ha, -⟩ := answersGood_succ h
  simp [setLine, nextAnswer, ha, settingOk]

theorem tx_good (bytes : List Byte) {s : State} (h : AnswersGood 1 s) :
    tx bytes s =
      .go (logged (.spiWrite s.hSpi bytes) (.count bytes.length) (panelTakes bytes (drawn s))) := by
  obtain ⟨v, rest, ha, -⟩ := answersGood_succ h
  unfold tx
  simp only [nextAnswer, ha, writtenCount, if_pos]

end Sys2Proof.Machine
end

