-- ==== Sys2Proof/Laws/Exec.lean ====
section
/-! SUPPORT. What a whole instruction can do: `Act` adds to the moves of the framing what the sequencer and the tile
detector do, and `exec_acts` says that every instruction is a chain of acts. -/

namespace Sys2Proof.Machine

open Sys2Proof.Safety

/-- One act of the block: a move of the framing, an open or a release of a resource, a change of `DRV_STATE`,
the flag file or the counters, or the end of an operation. -/
inductive Act (s : State) : State → Prop where
  | move {t : State} (m : Move s t) : Act s t
  | spiOpened (e : Event) (h : Nat) (free : s.hSpi = none)
      (ev : e = .spiOpen s.cfg.spiPath s.cfg.spiMode s.cfg.spiBits s.cfg.spiSpeedHz) :
      Act s { logged e (.handle h) (drawn s) with hSpi := some h }
  | spiOpenFailed (e : Event)
      (ev : e = .spiOpen s.cfg.spiPath s.cfg.spiMode s.cfg.spiBits s.cfg.spiSpeedHz) :
      Act s (logged e .err (drawn s))
  | lineOpened (L : Line) (e : Event) (h : Nat) (free : lineHandle s L = none)
      (ev : e = .gpioOpen L s.cfg.gpioChip (lineNumber s.cfg L) (lineLabel s.cfg L)) :
      Act s (setHandle L (some h) (logged e (.handle h) (drawn s)))
  | lineOpenFailed (L : Line) (e : Event)
      (ev : e = .gpioOpen L s.cfg.gpioChip (lineNumber s.cfg L) (lineLabel s.cfg L)) :
      Act s (logged e .err (drawn s))
  | spiClosed (h : Nat) (held : s.hSpi = some h) :
      Act s { logged (.spiClose h) .ignored (drawn s) with hSpi := none }
  | lineReleased (L : Line) (h : Nat) (held : lineHandle s L = some h) :
      Act s (setLevel L none (setHandle L none (logged (.gpioRelease L h) .ignored (drawn s))))
  | readied : Act s { s with drvState := .ready }
  | disposed : Act s { s with drvState := .disposed }
  | marked (flags : List Bool) (len : flags.length = s.dirty.length) : Act s { s with dirty := flags }
  | counted : Act s (flushStart s)
  | serviced (n : Nat) (r : Rect) : Act s (tileServiced n r s)
  | succeeded (v : Value) : Act s (succeed v s)
  | erred (b : Bool) (e : OpError) : Act s (takeError b e s)

/-- A chain of acts. -/
abbrev Acts : State → State → Prop := Relation.ReflTransGen fun a b => Act a b

theorem Acts.one {s t : State} (a : Act s t) : Acts s t := Relation.ReflTransGen.single a

theorem Moves.acts {s t : State} (h : Moves s t) : Acts s t := by
  induction h with
  | refl => exact .refl
  | tail _ m ih => exact ih.tail (.move m)

/-- A property that every act keeps is kept by a chain of acts. -/
theorem Acts.keeps {P : State → Prop} (h : ∀ s t, Act s t → P s → P t) {s t : State} (a : Acts s t)
    (hp : P s) : P t := by
  induction a with
  | refl => exact hp
  | tail _ a ih => exact h _ _ a ih

@[simp] theorem orFlagsFrom_length (hit : Nat → Bool) (fs : List Bool) :
    ∀ n, (orFlagsFrom hit n fs).length = fs.length := by
  induction fs with
  | nil => exact fun _ => rfl
  | cons f fs ih => exact fun n => by simp [orFlagsFrom, ih]

@[simp] theorem markedFlags_length (c : Cfg) (x y w h : BitVec 32) (fs : List Bool) :
    (markedFlags c x y w h fs).length = fs.length := by
  simp [markedFlags]

@[simp] theorem allFlags_length (fs : List Bool) : (allFlags fs).length = fs.length := by
  simp [allFlags]

@[simp] theorem clearFlag_length (fs : List Bool) (n : Nat) : (clearFlag fs n).length = fs.length := by
  simp [clearFlag]

/-- The flag at an index after a marking. -/
theorem orFlagsFrom_getElem? (hit : Nat → Bool) (fs : List Bool) :
    ∀ n i, (orFlagsFrom hit n fs)[i]? = (fs[i]?).map fun f => f || hit (n + i) := by
  induction fs with
  | nil => intro n i; simp [orFlagsFrom]
  | cons f fs ih =>
    intro n i
    cases i with
    | zero => simp [orFlagsFrom]
    | succ i =>
      simp only [orFlagsFrom, List.getElem?_cons_succ, ih]
      rw [Nat.add_right_comm, Nat.add_assoc]

theorem flagAt_markedFlags (c : Cfg) (x y w h : BitVec 32) (fs : List Bool) (n : Nat) (hn : n < fs.length) :
    flagAt (markedFlags c x y w h fs) n =
      (flagAt fs n || markHits c x y w h (n % tilesX c) (n / tilesX c)) := by
  have hf : fs[n]? = some fs[n] := List.getElem?_eq_getElem hn
  simp [flagAt, markedFlags, List.getD_eq_getElem?_getD, orFlagsFrom_getElem?, hf]

theorem flagAt_allFlags (fs : List Bool) (n : Nat) (hn : n < fs.length) : flagAt (allFlags fs) n = true := by
  simp [flagAt, allFlags, List.getD_eq_getElem?_getD, hn]

theorem flagAt_clearFlag_same (fs : List Bool) (n : Nat) : flagAt (clearFlag fs n) n = false := by
  by_cases h : n < fs.length
  · simp [flagAt, clearFlag, List.getD_eq_getElem?_getD, h]
  · simp [flagAt, clearFlag, List.getD_eq_getElem?_getD, h]

theorem flagAt_clearFlag_other (fs : List Bool) (n m : Nat) (h : m ≠ n) :
    flagAt (clearFlag fs n) m = flagAt fs m := by
  simp [flagAt, clearFlag, List.getD_eq_getElem?_getD, List.getElem?_set_ne (Ne.symm h)]

/-! ### Ends of operations -/

theorem finish_eq (b : Bool) (v : State → Value) (x : Ctl) :
    ∃ t, finish b v x = .next t := by
  cases x with
  | go s => exact ⟨_, rfl⟩
  | raise e s => exact ⟨_, rfl⟩

theorem finish_acts {s t : State} {b : Bool} {v : State → Value} {x : Ctl}
    (h : x.Ends (fun u => Acts s u) (fun _ u => Acts s u)) (ht : finish b v x = .next t) : Acts s t := by
  cases x with
  | go u =>
    obtain rfl : succeed (v u) u = t := by simpa [finish] using ht
    exact Relation.ReflTransGen.tail h (.succeeded _)
  | raise e u =>
    obtain rfl : takeError b e u = t := by simpa [finish] using ht
    exact Relation.ReflTransGen.tail h (.erred b e)

theorem Sends.acts {s : State} {x : Ctl} (h : Sends s x) :
    x.Ends (fun u => Acts s u) (fun _ u => Acts s u) :=
  h.mono (fun _ m => m.acts) (fun _ _ m => m.1.acts)

theorem whenReady_acts {s t : State} {tag : OpTag} {body : State → Ctl}
    (h : s.drvState = .ready → (body s).Ends (fun u => Acts s u) (fun _ u => Acts s u))
    (ht : whenReady tag body s = .next t) : Acts s t := by
  unfold whenReady at ht
  split at ht
  · exact finish_acts (h ‹_›) ht
  · obtain rfl : takeError false (.invalidState s.drvState tag) s = t := by simpa using ht
    exact .one (.erred _ _)

/-- In READY the block can send. -/
theorem canSend_of_ready {s : State} (h : HandlesOwned s) (hm : 1 ≤ s.cfg.maxXfer) :
    s.drvState = .ready → CanSend s := fun hr =>
  ⟨(h.2 hr).1, (h.2 hr).2.1, hm⟩

/-! ### INIT -/

/-- What one open can do. -/
theorem openSpi_ends (s : State) (h : s.hSpi = none) :
    (openSpi s).Ends (fun t => Act s t ∧ ∃ v, t = { t with hSpi := some v } ∧
        t = { s with hSpi := t.hSpi, events := t.events, free := t.free, answers := t.answers })
      (fun e t => Act s t ∧ e = .configuration .spi ∧
        t = { s with events := t.events, free := t.free, answers := t.answers }) := by
  unfold openSpi
  dsimp only
  split
  · exact ⟨.spiOpened _ _ h rfl, _, rfl, rfl⟩
  · exact ⟨.spiOpenFailed _ rfl, rfl, rfl⟩

theorem openLine_ends (L : Line) (s : State) (h : lineHandle s L = none) :
    (openLine L s).Ends (fun t => Act s t ∧ ∃ v, t = setHandle L (some v) { s with
          events := t.events, free := t.free, answers := t.answers })
      (fun e t => Act s t ∧ e = .configuration (.gpio L) ∧
        t = { s with events := t.events, free := t.free, answers := t.answers }) := by
  unfold openLine
  dsimp only
  split
  · exact ⟨.lineOpened L _ _ h rfl, _, by cases L <;> rfl⟩
  · exact ⟨.lineOpenFailed L _ rfl, rfl, rfl⟩

/-- The parts of the state that acquiring the resources leaves alone. -/
def AcquireFrame (s t : State) : Prop :=
  t = { s with
    hSpi := t.hSpi, hDc := t.hDc, hRst := t.hRst, hBl := t.hBl
    events := t.events, free := t.free, answers := t.answers }

/-- Step 1 of INIT: every resource is held afterwards, or a ConfigurationError has been raised. -/
theorem acquire_ends (s : State) (h : s.hSpi = none ∧ s.hDc = none ∧ s.hRst = none ∧ s.hBl = none) :
    (acquire s).Ends
      (fun t => Acts s t ∧ AcquireFrame s t ∧ t.hSpi.isSome = true ∧ t.hDc.isSome = true ∧
        t.hRst.isSome = true ∧ t.hBl.isSome = hasBl s.cfg)
      (fun e t => Acts s t ∧ AcquireFrame s t ∧ ∃ r, e = .configuration r) := by
  obtain ⟨h1, h2, h3, h4⟩ := h
  unfold acquire
  refine Ctl.Ends.bind (G := fun t => Acts s t ∧ AcquireFrame s t ∧ t.hSpi.isSome = true ∧
      t.hDc.isSome = true ∧ t.hRst.isSome = true ∧ t.hBl = none)
    (B := fun e t => Acts s t ∧ AcquireFrame s t ∧ ∃ r, e = .configuration r) ?_ ?_ (fun e t k => k)
  · refine Ctl.Ends.bind (G := fun t => Acts s t ∧ AcquireFrame s t ∧ t.hSpi.isSome = true ∧
        t.hDc.isSome = true ∧ t.hRst = none ∧ t.hBl = none)
      (B := fun e t => Acts s t ∧ AcquireFrame s t ∧ ∃ r, e = .configuration r) ?_ ?_ (fun e t k => k)
    · refine (openSpi_ends s h1).bind (G' := fun t => Acts s t ∧ AcquireFrame s t ∧ t.hSpi.isSome = true ∧
          t.hDc.isSome = true ∧ t.hRst = none ∧ t.hBl = none) ?_ ?_
      · rintro t ⟨a, v, hv, ht⟩
        have hs : t.hSpi.isSome = true := by rw [hv]; rfl
        have k2 : t.hDc = none := by rw [ht]; exact h2
        have k3 : t.hRst = none := by rw [ht]; exact h3
        have k4 : t.hBl = none := by rw [ht]; exact h4
        refine (openLine_ends .dc t k2).mono ?_ ?_
        · rintro u ⟨b, w, hw⟩
          refine ⟨(Acts.one a).trans (Acts.one b), ?_, ?_, ?_, ?_, ?_⟩
          · unfold AcquireFrame; rw [hw, ht]; rfl
          all_goals (rw [hw]; first | exact hs | exact k3 | exact k4 | rfl)
        · rintro e u ⟨b, he, hu⟩
          exact ⟨(Acts.one a).trans (Acts.one b), by unfold AcquireFrame; rw [hu, ht], _, he⟩
      · rintro e t ⟨a, he, ht⟩
        exact ⟨.one a, by unfold AcquireFrame; rw [ht], _, he⟩
    · rintro t ⟨a, fr, k1, k2, k3, k4⟩
      refine (openLine_ends .rst t k3).mono ?_ ?_
      · rintro u ⟨b, w, hw⟩
        refine ⟨a.trans (Acts.one b), ?_, ?_, ?_, ?_, ?_⟩
        · unfold AcquireFrame at *; rw [hw, fr]; rfl
        all_goals (rw [hw]; first | exact k1 | exact k2 | exact k4 | rfl)
      · rintro e u ⟨b, he, hu⟩
        exact ⟨a.trans (Acts.one b), by unfold AcquireFrame at *; rw [hu, fr], _, he⟩
  · rintro t ⟨a, fr, k1, k2, k3, k4⟩
    have hc : t.cfg = s.cfg := by rw [fr]
    by_cases hb : hasBl s.cfg = true
    · rw [if_pos (by rw [hc]; exact hb)]
      refine (openLine_ends .bl t k4).mono ?_ ?_
      · rintro u ⟨b, w, hw⟩
        refine ⟨a.trans (Acts.one b), ?_, ?_, ?_, ?_, ?_⟩
        · unfold AcquireFrame at *; rw [hw, fr]; rfl
        all_goals (rw [hw]; first | exact k1 | exact k2 | exact k3 | exact hb.symm)
      · rintro e u ⟨b, he, hu⟩
        exact ⟨a.trans (Acts.one b), by unfold AcquireFrame at *; rw [hu, fr], _, he⟩
    · rw [if_neg (by rw [hc]; exact hb)]
      exact ⟨a, fr, k1, k2, k3, by rw [k4]; simp at hb ⊢; exact hb⟩

theorem sends_pulse (l : Bit) (ms : Nat) (s : State) (h : s.hRst.isSome = true) :
    Sends s (pulse l ms s) := by
  unfold pulse
  refine Sends.bind ?_ (fun t _ => .one (.waited ms))
  exact (setLine_ends .rst l s h).mono (fun _ k => .one k.1) (fun _ _ k => ⟨.one k.1, by rw [k.2]; rfl⟩)

theorem sends_resetPulse (s : State) (h : s.hRst.isSome = true) : Sends s (resetPulse s) := by
  unfold resetPulse
  exact ((sends_pulse 1 _ s h).bind fun t m => sends_pulse 0 _ t (by rw [m.steady.hRst]; exact h)).bind
    fun t m => sends_pulse 1 _ t (by rw [m.steady.hRst]; exact h)

theorem sends_table (es : List PanelEntry) : ∀ {s : State}, CanSend s → Sends s (sendTable es s) := by
  induction es with
  | nil => exact fun _ => .go _
  | cons e es ih =>
    intro s c
    rw [sendTable_cons]
    exact (sends_panelCmd _ _ _ c).bind fun t m => ih (c.of_steady m.steady)

theorem sends_inversion {s : State} (c : CanSend s) : Sends s (sendInversion s) := by
  rw [sendInversion_eq]
  split
  · exact sends_invon c
  · exact sends_invoff c

/-- Steps 2 to 9 of INIT only make moves. -/
theorem sends_bringUp {s : State} (c : CanSend s) (h : s.hRst.isSome = true) : Sends s (bringUp s) := by
  rw [bringUp_eq]
  exact (((((((sends_resetPulse s h).bind fun t m => sends_swreset (c.of_steady m.steady)).bind
    fun t m => sends_slpout (c.of_steady m.steady)).bind
    fun t m => sends_colmod (c.of_steady m.steady)).bind
    fun t m => sends_table _ (c.of_steady m.steady)).bind
    fun t m => sends_inversion (c.of_steady m.steady)).bind
    fun t m => sends_madctl _ (c.of_steady m.steady)).bind
    fun t m => sends_dispon (c.of_steady m.steady)

/-- The whole of INIT after its state check. -/
theorem initBody_ends (s : State) (h : s.hSpi = none ∧ s.hDc = none ∧ s.hRst = none ∧ s.hBl = none)
    (hm : 1 ≤ s.cfg.maxXfer) :
    (initBody s).Ends (fun t => Acts s t ∧ ∃ u v, Acts s u ∧ AcquireFrame s u ∧ u.hSpi.isSome = true ∧
        u.hDc.isSome = true ∧ u.hRst.isSome = true ∧ u.hBl.isSome = hasBl s.cfg ∧ Moves u v ∧
        Moves { v with drvState := .ready } t)
      (fun e t => Acts s t ∧ ((∃ r, e = .configuration r) ∨ e = .invalidArgument .windowRange ∨
        isTransport e = true)) := by
  unfold initBody
  refine Ctl.Ends.bind (G := fun t => Acts s t ∧ ∃ u, Acts s u ∧ AcquireFrame s u ∧ u.hSpi.isSome = true ∧
        u.hDc.isSome = true ∧ u.hRst.isSome = true ∧ u.hBl.isSome = hasBl s.cfg ∧ Moves u t)
    (B := fun e t => Acts s t ∧ ((∃ r, e = .configuration r) ∨ e = .invalidArgument .windowRange ∨
      isTransport e = true)) ?_ ?_ (fun e t k => k)
  · refine (acquire_ends s h).bind ?_ (fun e t k => ⟨k.1, .inl k.2.2⟩)
    rintro t ⟨a, fr, k1, k2, k3, k4⟩
    have hc : t.cfg = s.cfg := by rw [fr]
    refine (sends_bringUp ⟨k1, k2, by rw [hc]; exact hm⟩ k3).mono ?_ ?_
    · exact fun u m => ⟨a.trans m.acts, t, a, fr, k1, k2, k3, k4, m⟩
    · exact fun e u m => ⟨a.trans m.1.acts, .inr (.inr m.2)⟩
  · rintro t ⟨a, u, au, fr, k1, k2, k3, k4, m⟩
    have hc : t.cfg = s.cfg := by rw [m.steady.cfg, fr]
    have cs : CanSend { t with drvState := .ready } :=
      ⟨by simpa [m.steady.hSpi] using k1, by simpa [m.steady.hDc] using k2, by simpa [hc] using hm⟩
    have ar : Acts s { t with drvState := .ready } := a.trans (Acts.one .readied)
    refine (pushRectBody_ends _ _ _ _ _ _ _ (fun _ => cs)).mono ?_ ?_
    · exact fun v n => ⟨ar.trans n.acts, u, t, au, fr, k1, k2, k3, k4, m, n⟩
    · rintro e v ⟨n, ⟨-, hne, -⟩ | ⟨he, -, -⟩ | ⟨he, -⟩⟩
      · exact absurd rfl hne
      · exact ⟨ar.trans n.acts, .inr (.inl he)⟩
      · exact ⟨ar.trans n.acts, .inr (.inr he)⟩

/-! ### DISPOSE -/

theorem closeSpi_acts (s : State) : Acts s (closeSpi s) := by
  unfold closeSpi
  split
  · exact .one (.spiClosed _ ‹_›)
  · exact .refl

theorem releaseLine_acts (L : Line) (s : State) : Acts s (releaseLine L s) := by
  unfold releaseLine
  split
  · exact .one (.lineReleased L _ ‹_›)
  · exact .refl

theorem releaseAll_acts (s : State) : Acts s (releaseAll s) :=
  (((closeSpi_acts s).trans (releaseLine_acts .dc _)).trans (releaseLine_acts .rst _)).trans
    (releaseLine_acts .bl _)

/-! ### FLUSH -/

/-- What every act of FLUSH keeps, so that the next tile can be sent. -/
def FlushFrame (s t : State) : Prop :=
  t.cfg = s.cfg ∧ t.drvState = s.drvState ∧ t.hSpi = s.hSpi ∧ t.hDc = s.hDc

theorem flushTile_ends (n : Nat) (s : State) (c : s.drvState = .ready → CanSend s) :
    (flushTile n s).Ends (fun t => Acts s t ∧ FlushFrame s t)
      (fun e t => Acts s t ∧ FlushFrame s t ∧
        (e = .invalidState s.drvState (.host 0x8) ∨ e = .invalidArgument .windowRange ∨
          isTransport e = true)) := by
  unfold flushTile
  split
  · refine (pushRectBody_ends _ _ _ _ _ _ s c).bind ?_ ?_
    · exact fun t m => ⟨m.acts.trans (Acts.one (.serviced _ _)), m.steady.cfg, m.steady.drvState,
        m.steady.hSpi, m.steady.hDc⟩
    · rintro e t ⟨m, k⟩
      refine ⟨m.acts, ⟨m.steady.cfg, m.steady.drvState, m.steady.hSpi, m.steady.hDc⟩, ?_⟩
      rcases k with ⟨he, -, -⟩ | ⟨he, -, -⟩ | ⟨he, -⟩
      · exact .inl he
      · exact .inr (.inl he)
      · exact .inr (.inr he)
  · exact ⟨.refl, rfl, rfl, rfl, rfl⟩

theorem flushTiles_ends (ns : List Nat) :
    ∀ s : State, (s.drvState = .ready → CanSend s) →
      (flushTiles ns s).Ends (fun t => Acts s t ∧ FlushFrame s t)
        (fun e t => Acts s t ∧ FlushFrame s t ∧
          (e = .invalidState s.drvState (.host 0x8) ∨ e = .invalidArgument .windowRange ∨
            isTransport e = true)) := by
  induction ns with
  | nil => exact fun s _ => ⟨.refl, rfl, rfl, rfl, rfl⟩
  | cons n ns ih =>
    intro s c
    refine (flushTile_ends n s c).bind ?_ (fun e t k => k)
    rintro t ⟨a, h1, h2, h3, h4⟩
    have c' : t.drvState = .ready → CanSend t := fun hr =>
      have k := c (h2 ▸ hr)
      ⟨by rw [h3]; exact k.spi, by rw [h4]; exact k.dc, by rw [h1]; exact k.xfer⟩
    refine (ih t c').mono ?_ ?_
    · rintro u ⟨b, k1, k2, k3, k4⟩
      exact ⟨a.trans b, k1.trans h1, k2.trans h2, k3.trans h3, k4.trans h4⟩
    · rintro e u ⟨b, ⟨k1, k2, k3, k4⟩, k5⟩
      exact ⟨a.trans b, ⟨k1.trans h1, k2.trans h2, k3.trans h3, k4.trans h4⟩, h2 ▸ k5⟩

/-! ### Every instruction -/

/-- A wire command that no operation has come to is turned away. -/
theorem row_acts {i : Instr} {op : Byte} {send : State → Ctl} {s t : State} (hd : s.due ≠ some i)
    (ht : endRow (sendDue i op send s) = .next t) : Acts s t := by
  rw [sendDue, if_neg hd] at ht
  obtain rfl : takeError false (.invalidState s.drvState (.wire op)) s = t := Host.Outcome.next.inj ht
  exact .one (.erred _ _)

/-- Between operations every instruction is a chain of acts, from a state that holds what its driver state says. -/
theorem exec_acts (i : Instr) {s t : State} (h : HandlesOwned s) (hd : NothingDue s) (hm : 1 ≤ s.cfg.maxXfer)
    (ht : exec i s = .next t) : Acts s t := by
  have c := canSend_of_ready h hm
  have nd : ∀ j : Instr, s.due ≠ some j := fun j k => by rw [show s.due = none from hd] at k; cases k
  have codec : ∀ v : Value, Host.Outcome.next (succeed v s) = (.next t : Host.Outcome State Fault Refusal) →
      Acts s t := fun v hv => by
    obtain rfl : succeed v s = t := by simpa using hv
    exact .one (.succeeded v)
  have rect : ∀ tag x y w h src, s.drvState = .ready →
      (pushRectBody tag x y w h src s).Ends (fun u => Acts s u) (fun _ u => Acts s u) :=
    fun tag x y w h src _ =>
      (pushRectBody_ends tag x y w h src s c).mono (fun _ m => m.acts) (fun _ _ m => m.1.acts)
  cases i with
  | init =>
    simp only [exec, execInit] at ht
    split at ht
    · rename_i hu
      exact finish_acts ((initBody_ends s (h.1 (.inl hu)) hm).mono (fun _ k => k.1) (fun _ _ k => k.1)) ht
    · obtain rfl := by simpa using ht
      exact .one (.erred _ _)
  | pushRect x y w h ps =>
    simp only [exec, execPushRect] at ht
    refine whenReady_acts (fun hr => ?_) ht
    split
    · exact rect _ _ _ _ _ _ hr
    · exact .refl
  | pushRectSolid x y w h col => exact whenReady_acts (fun hr => rect _ _ _ _ _ _ hr) ht
  | setRotation r =>
    rw [exec_setRotation, execSetRotation_eq] at ht
    exact whenReady_acts (fun hr => (sends_madctl r (c hr)).acts) ht
  | setBacklight on =>
    simp only [exec, execSetBacklight] at ht
    refine whenReady_acts (fun hr => ?_) ht
    split
    · rename_i hb
      have : (lineHandle s .bl).isSome = true := by simpa [hb] using (h.2 hr).2.2.2
      exact (setLine_ends .bl _ s this).mono (fun _ k => .one (.move k.1)) (fun _ _ k => .one (.move k.1))
    · exact .refl
  | dispose =>
    simp only [exec, execDispose] at ht
    split at ht
    · exact codec _ ht
    · obtain rfl := by simpa using ht
      exact ((releaseAll_acts s).trans (Acts.one .disposed)).trans (Acts.one (.succeeded _))
  | markDirtyRect x y w h =>
    obtain rfl := by simpa [exec, execMarkDirtyRect] using ht
    exact (Acts.one (.marked (markedFlags s.cfg x y w h s.dirty) (by simp))).trans (Acts.one (.succeeded _))
  | markAll =>
    obtain rfl := by simpa [exec, execMarkAll] using ht
    exact (Acts.one (.marked (allFlags s.dirty) (by simp))).trans (Acts.one (.succeeded _))
  | flush =>
    refine finish_acts ?_ ht
    exact (flushTiles_ends _ (flushStart s) (fun hr => ⟨(c hr).spi, (c hr).dc, (c hr).xfer⟩)).mono
      (fun _ k => (Acts.one .counted).trans k.1) (fun _ _ k => (Acts.one .counted).trans k.1)
  | pack565 r g b => exact codec _ ht
  | pack565a r g b a => exact codec _ ht
  | unpack565 col => exact codec _ ht
  | blend565 src dst alpha => exact codec _ ht
  | modulate565 a b => exact codec _ ht
  | reservedE =>
    obtain rfl := by simpa [exec, execReservedE] using ht
    exact .one (.erred _ _)
  | reservedF =>
    obtain rfl := by simpa [exec, execReservedF] using ht
    exact .one (.erred _ _)
  | swreset => exact row_acts (nd _) ht
  | slpout => exact row_acts (nd _) ht
  | colmod => exact row_acts (nd _) ht
  | caset xs xe => exact row_acts (nd _) ht
  | raset ys ye => exact row_acts (nd _) ht
  | madctl r => exact row_acts (nd _) ht
  | ramwr ps => exact row_acts (nd _) ht
  | invon => exact row_acts (nd _) ht
  | invoff => exact row_acts (nd _) ht
  | dispon => exact row_acts (nd _) ht
  | panelCmd op payload ms => exact row_acts (nd _) ht

end Sys2Proof.Machine
end

