-- ==== Sys2Proof/Laws/Prims.lean ====
section
/-! SUPPORT. Every framing sequence as a list of primitives. A property of a whole transfer (what it logs when the
environment answers well, where it stops when it does not, what it leaves alone) is then an induction over that
list, done once here. -/

namespace Sys2Proof.Machine

open Sys2Proof.Safety

/-- A primitive of the framing: a line setting, a transaction, a wait, or the note of a rotation written. -/
inductive Prim where
  | set (L : Line) (l : Bit)
  | write (bytes : List Byte)
  | wait (ms : Nat)
  | rotate (r : BitVec 2)
  deriving DecidableEq

/-- One primitive. -/
def runPrim (p : Prim) (s : State) : Ctl :=
  match p with
  | .set L l => setLine L l s
  | .write bytes => tx bytes s
  | .wait ms => .go (delay ms s)
  | .rotate r => .go { s with curRotation := some r }

/-- A list of primitives, in order. -/
def runPrims : List Prim → State → Ctl
  | [], s => .go s
  | p :: ps, s => (runPrim p s).bind (runPrims ps)

@[simp] theorem runPrims_nil (s : State) : runPrims [] s = .go s := rfl
@[simp] theorem runPrims_cons (p : Prim) (ps : List Prim) (s : State) :
    runPrims (p :: ps) s = (runPrim p s).bind (runPrims ps) := rfl

theorem Ctl.bind_assoc (x : Ctl) (f g : State → Ctl) :
    (x.bind f).bind g = x.bind fun s => (f s).bind g := by
  cases x <;> rfl

theorem Ctl.bind_congr {x : Ctl} {f g : State → Ctl} {P : State → Prop} {B : OpError → State → Prop}
    (h : x.Ends P B) (k : ∀ s, P s → f s = g s) : x.bind f = x.bind g := by
  cases x with
  | go s => exact k s h
  | raise e s => rfl

theorem runPrims_append (ps qs : List Prim) :
    ∀ s : State, runPrims (ps ++ qs) s = (runPrims ps s).bind (runPrims qs) := by
  induction ps with
  | nil => exact fun _ => rfl
  | cons p ps ih =>
    intro s
    simp only [List.cons_append, runPrims_cons, Ctl.bind_assoc]
    congr 1
    exact funext ih

/-! ### What primitives leave alone, whatever the environment answers -/

theorem setLine_steady (L : Line) (l : Bit) (s : State) :
    (setLine L l s).Ends (Steady s) (fun e t => Steady s t ∧ isTransport e = true) := by
  unfold setLine
  split
  · cases L <;> rfl
  · exact ⟨by cases L <;> rfl, rfl⟩

theorem tx_steady (bytes : List Byte) (s : State) :
    (tx bytes s).Ends (Steady s) (fun e t => Steady s t ∧ isTransport e = true) := by
  unfold tx
  split
  · split
    · rfl
    · exact ⟨rfl, rfl⟩
  · exact ⟨rfl, rfl⟩

theorem runPrim_steady (p : Prim) (s : State) :
    (runPrim p s).Ends (Steady s) (fun e t => Steady s t ∧ isTransport e = true) := by
  cases p with
  | set L l => exact setLine_steady L l s
  | write bytes => exact tx_steady bytes s
  | wait ms => rfl
  | rotate r => rfl

theorem runPrims_steady (ps : List Prim) :
    ∀ s : State, (runPrims ps s).Ends (Steady s) (fun e t => Steady s t ∧ isTransport e = true) := by
  induction ps with
  | nil => exact fun s => Steady.refl s
  | cons p ps ih =>
    intro s
    refine (runPrim_steady p s).bind ?_ (fun _ _ k => k)
    exact fun t st => (ih t).mono (fun _ k => st.trans k) (fun _ _ k => ⟨st.trans k.1, k.2⟩)

/-- Events are only appended, by a primitive. -/
theorem runPrim_events (p : Prim) (s : State) :
    (runPrim p s).Ends (fun t => ∃ new, t.events = s.events ++ new)
      (fun _ t => ∃ new, t.events = s.events ++ new) := by
  cases p with
  | set L l =>
    simp only [runPrim, setLine]
    split
    · exact ⟨[⟨.gpioSet L (lineHandle s L) l, .ok⟩], by cases L <;> rfl⟩
    · exact ⟨[⟨.gpioSet L (lineHandle s L) l, .err⟩], by cases L <;> rfl⟩
  | write bytes =>
    simp only [runPrim, tx]
    split
    · split
      · exact ⟨[_], rfl⟩
      · exact ⟨[_], rfl⟩
    · exact ⟨[_], rfl⟩
  | wait ms => exact ⟨[_], rfl⟩
  | rotate r => exact ⟨[], by simp⟩

theorem runPrims_events (ps : List Prim) :
    ∀ s : State, (runPrims ps s).Ends (fun t => ∃ new, t.events = s.events ++ new)
      (fun _ t => ∃ new, t.events = s.events ++ new) := by
  induction ps with
  | nil => exact fun s => ⟨[], by simp⟩
  | cons p ps ih =>
    intro s
    refine (runPrim_events p s).bind ?_ (fun _ _ k => k)
    rintro t ⟨a, ha⟩
    refine (ih t).mono ?_ ?_
    · rintro u ⟨b, hb⟩
      exact ⟨a ++ b, by rw [hb, ha, List.append_assoc]⟩
    · rintro e u ⟨b, hb⟩
      exact ⟨a ++ b, by rw [hb, ha, List.append_assoc]⟩

/-! ### The framing sequences as lists -/

/-- R94: `Command(op, payload)`. -/
def commandPrims (c : Cfg) (op : Byte) (payload : List Byte) : List Prim :=
  [.set .dc c.dcCmdLevel, .write [op]] ++
    if payload = [] then [] else .set .dc (dcDataLevel c) :: (chunks c.maxXfer payload).map .write

/-- A wait that is a parameter. -/
def waitPrims (ms : Nat) : List Prim := if ms > 0 then [.wait ms] else []

theorem txAll_prims (cs : List (List Byte)) : ∀ s : State, txAll cs s = runPrims (cs.map .write) s := by
  induction cs with
  | nil => exact fun _ => rfl
  | cons c cs ih =>
    intro s
    simp only [txAll, List.map_cons, runPrims_cons, runPrim]
    congr 1
    exact funext ih

theorem command_prims (op : Byte) (payload : List Byte) (s : State) :
    command op payload s = runPrims (commandPrims s.cfg op payload) s := by
  unfold command commandPrims
  rw [runPrims_append]
  have h2 : (setLine .dc s.cfg.dcCmdLevel s).bind (tx [op]) =
      runPrims [.set .dc s.cfg.dcCmdLevel, .write [op]] s := by
    simp only [runPrims_cons, runPrim]
    congr 1
    funext t
    simp only [runPrims_cons, runPrim]
    cases tx [op] t <;> rfl
  rw [h2]
  refine Ctl.bind_congr (runPrims_steady _ s) ?_
  intro t st
  unfold commandData
  cases payload with
  | nil => rfl
  | cons b bs =>
    simp only [reduceCtorEq, if_false, runPrims_cons, runPrim, st.cfg]
    refine Ctl.bind_congr (setLine_steady _ _ t) ?_
    intro u st'
    unfold dataPhase
    rw [txAll_prims, st'.cfg, st.cfg]

theorem delayIfPos_prims (ms : Nat) (s : State) : Ctl.go (delayIfPos ms s) = runPrims (waitPrims ms) s := by
  unfold delayIfPos waitPrims
  split <;> rfl

theorem command_delay_prims (op : Byte) (payload : List Byte) (f : Cfg → Nat) (s : State) :
    ((command op payload s).bind fun t => .go (delayIfPos (f t.cfg) t)) =
      runPrims (commandPrims s.cfg op payload ++ waitPrims (f s.cfg)) s := by
  rw [runPrims_append, command_prims]
  exact Ctl.bind_congr (runPrims_steady _ s) fun t st => by rw [delayIfPos_prims, st.cfg]

/-- R95: `SetWindow` for absolute starts and ends. -/
def windowPrims (c : Cfg) (x y w h : Nat) : List Prim :=
  commandPrims c 0x2A (be16 (BitVec.ofNat 16 (absXs c x)) ++ be16 (BitVec.ofNat 16 (absXe c x w))) ++
  commandPrims c 0x2B (be16 (BitVec.ofNat 16 (absYs c y)) ++ be16 (BitVec.ofNat 16 (absYe c y h)))

theorem setWindow_prims (x y w h : Nat) (s : State) :
    setWindow x y w h s = runPrims (windowPrims s.cfg x y w h) s := by
  rw [setWindow_eq]
  unfold windowPrims sendCaset sendRaset
  rw [runPrims_append, command_prims]
  exact Ctl.bind_congr (runPrims_steady _ s) fun t st => by rw [command_prims, st.cfg]

/-- R107: a whole rectangle. -/
def rectPrims (c : Cfg) (x y w h : Nat) (src : List Word) : List Prim :=
  windowPrims c x y w h ++ commandPrims c 0x2C (be16Stream src)

theorem rect_prims (x y w h : Nat) (src : List Word) (s : State) :
    (setWindow x y w h s).bind (sendRamwr src) = runPrims (rectPrims s.cfg x y w h src) s := by
  unfold rectPrims sendRamwr
  rw [runPrims_append, setWindow_prims]
  exact Ctl.bind_congr (runPrims_steady _ s) fun t st => by rw [command_prims, st.cfg]

/-- R107, as one list. -/
theorem pushRectBody_prims (tag : OpTag) (x y w h : Nat) (src : List Word) (s : State) :
    pushRectBody tag x y w h src s =
      if s.drvState ≠ .ready then .raise (.invalidState s.drvState tag) s
      else if w = 0 ∨ h = 0 then .go s
      else if windowFits s.cfg x y w h then runPrims (rectPrims s.cfg x y w h src) s
      else .raise (.invalidArgument .windowRange) s := by
  rw [pushRectBody_eq, rect_prims]

/-- R107: what a rectangle leaves alone, whatever the environment answers. -/
theorem pushRectBody_steady (tag : OpTag) (x y w h : Nat) (src : List Word) (s : State) :
    (pushRectBody tag x y w h src s).Ends (Steady s) (fun _ t => Steady s t) := by
  rw [pushRectBody_prims]
  split
  · exact Steady.refl s
  · split
    · exact Steady.refl s
    · split
      · exact (runPrims_steady _ s).mono (fun _ k => k) (fun _ _ k => k.1)
      · exact Steady.refl s

theorem sendMadctl_prims (r : BitVec 2) (s : State) :
    sendMadctl r s = runPrims (commandPrims s.cfg 0x36 [madctlByte s.cfg r] ++ [.rotate r]) s := by
  unfold sendMadctl
  rw [runPrims_append, command_prims]
  rfl

/-! ### Success -/

/-- The state after a primitive that the environment answers well. -/
def afterPrim (s : State) (p : Prim) : State :=
  match p with
  | .set L l => setLevel L (some l) (logged (.gpioSet L (lineHandle s L) l) .ok (drawn s))
  | .write bytes => logged (.spiWrite s.hSpi bytes) (.count bytes.length) (panelTakes bytes (drawn s))
  | .wait ms => delay ms s
  | .rotate r => { s with curRotation := some r }

/-- How many answers a primitive draws. -/
def Prim.draws : Prim → Nat
  | .set _ _ => 1
  | .write _ => 1
  | .wait _ => 0
  | .rotate _ => 0

/-- How many answers a list draws. -/
def drawsOf (ps : List Prim) : Nat := (ps.map Prim.draws).sum

/-- The entries a list logs when the environment answers well. -/
def entriesOf (s : State) (ps : List Prim) : List Entry :=
  ps.filterMap fun p =>
    match p with
    | .set L l => some ⟨.gpioSet L (lineHandle s L) l, .ok⟩
    | .write bytes => some ⟨.spiWrite s.hSpi bytes, .count bytes.length⟩
    | .wait ms => some ⟨.delay ms, .none⟩
    | .rotate _ => none

theorem runPrim_good (p : Prim) {s : State} (h : AnswersGood p.draws s) :
    runPrim p s = .go (afterPrim s p) := by
  cases p with
  | set L l => exact setLine_good L l h
  | write bytes => exact tx_good bytes h
  | wait ms => rfl
  | rotate r => rfl

theorem afterPrim_answers (s : State) (p : Prim) :
    (afterPrim s p).answers = s.answers.drop p.draws := by
  cases p with
  | set L l => simp [afterPrim, Prim.draws]
  | write bytes => simp [afterPrim, Prim.draws]
  | wait ms => rfl
  | rotate r => rfl

theorem afterPrim_steady (s : State) (p : Prim) : Steady s (afterPrim s p) := by
  cases p with
  | set L l => cases L <;> rfl
  | write bytes => rfl
  | wait ms => rfl
  | rotate r => rfl

theorem entriesOf_congr {s t : State} (h : Steady s t) (ps : List Prim) : entriesOf t ps = entriesOf s ps := by
  unfold entriesOf
  congr 1
  funext p
  cases p <;> simp [h.hSpi, h.lineHandle]

@[simp] theorem entriesOf_append (s : State) (ps qs : List Prim) :
    entriesOf s (ps ++ qs) = entriesOf s ps ++ entriesOf s qs := by
  simp [entriesOf]

@[simp] theorem drawsOf_append (ps qs : List Prim) : drawsOf (ps ++ qs) = drawsOf ps + drawsOf qs := by
  simp [drawsOf]

@[simp] theorem drawsOf_cons (p : Prim) (ps : List Prim) : drawsOf (p :: ps) = p.draws + drawsOf ps := by
  simp [drawsOf]

/-- A list of primitives that the environment answers well goes through. -/
theorem runPrims_good (ps : List Prim) :
    ∀ {s : State}, AnswersGood (drawsOf ps) s → runPrims ps s = .go (ps.foldl afterPrim s) := by
  induction ps with
  | nil => exact fun _ => rfl
  | cons p ps ih =>
    intro s h
    rw [drawsOf_cons] at h
    rw [runPrims_cons, runPrim_good p (answersGood_weaken h (Nat.le_add_right _ _)), Ctl.bind_go,
      List.foldl_cons]
    exact ih (answersGood_after h (afterPrim_answers s p))

theorem foldl_afterPrim_steady (ps : List Prim) : ∀ s : State, Steady s (ps.foldl afterPrim s) := by
  induction ps with
  | nil => exact Steady.refl
  | cons p ps ih => exact fun s => (afterPrim_steady s p).trans (ih _)

theorem foldl_afterPrim_answers (ps : List Prim) :
    ∀ s : State, (ps.foldl afterPrim s).answers = s.answers.drop (drawsOf ps) := by
  induction ps with
  | nil => exact fun _ => rfl
  | cons p ps ih =>
    intro s
    rw [List.foldl_cons, ih, afterPrim_answers, List.drop_drop, drawsOf_cons]

theorem afterPrim_events (s : State) (p : Prim) :
    (afterPrim s p).events = s.events ++ entriesOf s [p] := by
  cases p with
  | set L l => cases L <;> rfl
  | write bytes => rfl
  | wait ms => rfl
  | rotate r => simp [afterPrim, entriesOf]

theorem foldl_afterPrim_events (ps : List Prim) :
    ∀ s : State, (ps.foldl afterPrim s).events = s.events ++ entriesOf s ps := by
  induction ps with
  | nil => exact fun s => by simp [entriesOf]
  | cons p ps ih =>
    intro s
    rw [List.foldl_cons, ih, afterPrim_events, entriesOf_congr (afterPrim_steady s p), List.append_assoc,
      ← entriesOf_append]
    rfl

theorem afterPrim_free (s : State) (p : Prim) :
    (afterPrim s p).free = s.free + (entriesOf s [p]).length := by
  cases p with
  | set L l => cases L <;> rfl
  | write bytes => rfl
  | wait ms => rfl
  | rotate r => rfl

theorem foldl_afterPrim_free (ps : List Prim) :
    ∀ s : State, (ps.foldl afterPrim s).free = s.free + (entriesOf s ps).length := by
  induction ps with
  | nil => exact fun s => rfl
  | cons p ps ih =>
    intro s
    rw [List.foldl_cons, ih, afterPrim_free, entriesOf_congr (afterPrim_steady s p), Nat.add_assoc,
      ← List.length_append, ← entriesOf_append]
    rfl

/-- The level of a line after one primitive. -/
def levelStep (L : Line) (l : Option Bit) (p : Prim) : Option Bit :=
  match p with
  | .set L' b => if L' = L then some b else l
  | .write _ => l
  | .wait _ => l
  | .rotate _ => l

theorem afterPrim_level (L : Line) (s : State) (p : Prim) :
    lineLevel (afterPrim s p) L = levelStep L (lineLevel s L) p := by
  cases p with
  | set L' b => cases L' <;> cases L <;> rfl
  | write bytes => cases L <;> rfl
  | wait ms => cases L <;> rfl
  | rotate r => cases L <;> rfl

theorem foldl_afterPrim_level (L : Line) (ps : List Prim) :
    ∀ s : State, lineLevel (ps.foldl afterPrim s) L = ps.foldl (levelStep L) (lineLevel s L) := by
  induction ps with
  | nil => exact fun _ => rfl
  | cons p ps ih => intro s; rw [List.foldl_cons, ih, afterPrim_level, List.foldl_cons]

theorem foldl_levelStep_writes (L : Line) (cs : List (List Byte)) (l : Option Bit) :
    (cs.map Prim.write).foldl (levelStep L) l = l := by
  induction cs with
  | nil => rfl
  | cons c cs ih => simpa [levelStep] using ih

/-- The rotation on record after one primitive. -/
def rotationStep (r : Option (BitVec 2)) (p : Prim) : Option (BitVec 2) :=
  match p with
  | .set _ _ => r
  | .write _ => r
  | .wait _ => r
  | .rotate q => some q

theorem afterPrim_rotation (s : State) (p : Prim) :
    (afterPrim s p).curRotation = rotationStep s.curRotation p := by
  cases p with
  | set L l => cases L <;> rfl
  | write bytes => rfl
  | wait ms => rfl
  | rotate r => rfl

theorem foldl_afterPrim_rotation (ps : List Prim) :
    ∀ s : State, (ps.foldl afterPrim s).curRotation = ps.foldl rotationStep s.curRotation := by
  induction ps with
  | nil => exact fun _ => rfl
  | cons p ps ih => intro s; rw [List.foldl_cons, ih, afterPrim_rotation, List.foldl_cons]

/-- What a transaction does to the panel, and what nothing else does. -/
theorem afterPrim_panel (s : State) (p : Prim) :
    (afterPrim s p).panel =
      match p with
      | .write bytes => panelTransaction s.cfg s.free s.dcLevel bytes s.panel
      | _ => s.panel := by
  cases p with
  | set L l => cases L <;> rfl
  | write bytes => rfl
  | wait ms => rfl
  | rotate r => rfl

/-! ### Going on, whatever the answers were -/

/-- A primitive that goes on has been answered well. -/
theorem runPrim_go (p : Prim) {s t : State} (h : runPrim p s = .go t) : t = afterPrim s p := by
  cases p with
  | set L l =>
    simp only [runPrim, setLine] at h
    split at h
    · exact (Ctl.go.inj h).symm
    · cases h
  | write bytes =>
    simp only [runPrim, tx] at h
    split at h
    · split at h
      · rename_i n _ hn; subst hn; exact (Ctl.go.inj h).symm
      · cases h
    · cases h
  | wait ms => exact (Ctl.go.inj h).symm
  | rotate r => exact (Ctl.go.inj h).symm

/-- A list that goes on ends where its primitives lead. -/
theorem runPrims_go (ps : List Prim) : ∀ {s t : State}, runPrims ps s = .go t → t = ps.foldl afterPrim s := by
  induction ps with
  | nil => exact fun h => (Ctl.go.inj h).symm
  | cons p ps ih =>
    intro s t h
    rw [runPrims_cons] at h
    cases hp : runPrim p s with
    | go u => rw [hp] at h; rw [List.foldl_cons, ← runPrim_go p hp]; exact ih h
    | raise e u => rw [hp] at h; cases h

/-- The whole state after a list of primitives. -/
theorem foldl_afterPrim_eq (ps : List Prim) (s : State) :
    ps.foldl afterPrim s = { s with
      curRotation := ps.foldl rotationStep s.curRotation
      dcLevel := ps.foldl (levelStep .dc) s.dcLevel
      rstLevel := ps.foldl (levelStep .rst) s.rstLevel
      blLevel := ps.foldl (levelStep .bl) s.blLevel
      panel := (ps.foldl afterPrim s).panel
      events := s.events ++ entriesOf s ps
      answers := s.answers.drop (drawsOf ps)
      free := s.free + (entriesOf s ps).length } := by
  conv_lhs => rw [foldl_afterPrim_steady ps s]
  rw [foldl_afterPrim_rotation, foldl_afterPrim_events, foldl_afterPrim_answers, foldl_afterPrim_free]
  have h1 := foldl_afterPrim_level .dc ps s
  have h2 := foldl_afterPrim_level .rst ps s
  have h3 := foldl_afterPrim_level .bl ps s
  simp only [lineLevel] at h1 h2 h3
  rw [h1, h2, h3]

/-- The DC level a command leaves. -/
def dcAfterCommand (c : Cfg) (payload : List Byte) : Bit :=
  if payload = [] then c.dcCmdLevel else dcDataLevel c

theorem foldl_rotationStep_writes (cs : List (List Byte)) (r : Option (BitVec 2)) :
    (cs.map Prim.write).foldl rotationStep r = r := by
  induction cs with
  | nil => rfl
  | cons c cs ih => simpa [rotationStep] using ih

theorem commandPrims_dc (c : Cfg) (op : Byte) (payload : List Byte) (l : Option Bit) :
    (commandPrims c op payload).foldl (levelStep .dc) l = some (dcAfterCommand c payload) := by
  unfold commandPrims dcAfterCommand
  split
  · rfl
  · simp [levelStep, foldl_levelStep_writes]

theorem commandPrims_line (L : Line) (hL : L ≠ .dc) (c : Cfg) (op : Byte) (payload : List Byte) (l : Option Bit) :
    (commandPrims c op payload).foldl (levelStep L) l = l := by
  unfold commandPrims
  split
  · simp [levelStep, Ne.symm hL]
  · simp [levelStep, foldl_levelStep_writes, Ne.symm hL]

theorem commandPrims_rotation (c : Cfg) (op : Byte) (payload : List Byte) (r : Option (BitVec 2)) :
    (commandPrims c op payload).foldl rotationStep r = r := by
  unfold commandPrims
  split
  · rfl
  · simp [rotationStep, foldl_rotationStep_writes]

theorem waitPrims_level (L : Line) (ms : Nat) (l : Option Bit) : (waitPrims ms).foldl (levelStep L) l = l := by
  unfold waitPrims; split <;> rfl
theorem waitPrims_rotation (ms : Nat) (r : Option (BitVec 2)) : (waitPrims ms).foldl rotationStep r = r := by
  unfold waitPrims; split <;> rfl
theorem drawsOf_waitPrims (ms : Nat) : drawsOf (waitPrims ms) = 0 := by
  unfold waitPrims; split <;> rfl

theorem drawsOf_writes (cs : List (List Byte)) : drawsOf (cs.map Prim.write) = cs.length := by
  induction cs with
  | nil => rfl
  | cons c cs ih => rw [List.map_cons, drawsOf_cons, ih]; simp [Prim.draws]; omega

end Sys2Proof.Machine
end

