-- ==== Sys2Proof/Laws/Claims.lean ====
section
/-! SUPPORT. The lists of primitives of the framing in the words of the statements: what a command and a rectangle log,
how many answers they draw, where they leave the levels. -/

namespace Sys2Proof.Machine

open Sys2Proof.Safety Sys2Proof.Claims

theorem entriesOf_writes (s : State) (cs : List (List Byte)) : entriesOf s (cs.map Prim.write) = cs.map (writeEntry s) := by
  induction cs with
  | nil => rfl
  | cons c cs ih => rw [List.map_cons, List.map_cons, ← ih]; rfl

@[simp] theorem entriesOf_nil (s : State) : entriesOf s [] = [] := rfl
theorem entriesOf_set (s : State) (L : Line) (l : Bit) (ps : List Prim) :
    entriesOf s (.set L l :: ps) = setEntry s L l :: entriesOf s ps := rfl
theorem entriesOf_write (s : State) (b : List Byte) (ps : List Prim) :
    entriesOf s (.write b :: ps) = writeEntry s b :: entriesOf s ps := rfl
theorem entriesOf_wait (s : State) (ms : Nat) (ps : List Prim) :
    entriesOf s (.wait ms :: ps) = ⟨.delay ms, .none⟩ :: entriesOf s ps := rfl
theorem entriesOf_rotate (s : State) (r : BitVec 2) (ps : List Prim) :
    entriesOf s (.rotate r :: ps) = entriesOf s ps := rfl

/-- R94: what a command logs. -/
theorem entriesOf_command (s : State) (op : Byte) (payload : List Byte) :
    entriesOf s (commandPrims s.cfg op payload) = commandEntries s op payload := by
  unfold commandPrims commandEntries dataEntries
  rw [entriesOf_append]
  congr 1
  split
  · rfl
  · rw [entriesOf_set, entriesOf_writes]

theorem entriesOf_waitPrims (s : State) (ms : Nat) : entriesOf s (waitPrims ms) = delayEntries ms := by
  unfold waitPrims delayEntries
  split
  · rw [if_neg (by omega)]; rfl
  · rw [if_pos (by omega)]; rfl

theorem drawsOf_command (c : Cfg) (hm : 1 ≤ c.maxXfer) (op : Byte) (payload : List Byte) :
    drawsOf (commandPrims c op payload) = commandDraws c payload.length := by
  unfold commandPrims commandDraws
  rw [drawsOf_append]
  cases payload with
  | nil => rfl
  | cons b bs =>
    rw [if_neg (by simp), if_neg (by simp), drawsOf_cons, drawsOf_cons, drawsOf_cons, drawsOf_writes, chunks_length _ hm]
    simp only [Prim.draws, drawsOf, List.map_nil, List.sum_nil]; omega

theorem entriesOf_rect (s : State) (x y w h : Nat) (src : List Word) :
    entriesOf s (rectPrims s.cfg x y w h src) = rectEntries s x y w h src := by
  unfold rectPrims windowPrims rectEntries
  rw [entriesOf_append, entriesOf_append, entriesOf_command, entriesOf_command, entriesOf_command]
  rfl

theorem be16_length (v : Word) : (be16 v).length = 2 := rfl
theorem be16Stream_length (ps : List Word) : (be16Stream ps).length = 2 * ps.length := by
  unfold be16Stream; rw [List.length_flatMap]; simp [be16_length, Nat.mul_comm]

theorem drawsOf_rect (c : Cfg) (hm : 1 ≤ c.maxXfer) (x y w h : Nat) (src : List Word) :
    drawsOf (rectPrims c x y w h src) = rectDraws c src.length := by
  unfold rectPrims windowPrims rectDraws
  rw [drawsOf_append, drawsOf_append, drawsOf_command c hm, drawsOf_command c hm, drawsOf_command c hm,
    be16Stream_length]
  rfl

theorem be16Stream_ne_nil (ps : List Word) (h : 1 ≤ ps.length) : be16Stream ps ≠ [] := by
  intro k
  have := be16Stream_length ps
  rw [k, List.length_nil] at this; omega

theorem rectPrims_dc (c : Cfg) (x y w h : Nat) (src : List Word) (hs : 1 ≤ src.length) (l : Option Bit) :
    (rectPrims c x y w h src).foldl (levelStep .dc) l = some (dcDataLevel c) := by
  unfold rectPrims
  rw [List.foldl_append, commandPrims_dc, dcAfterCommand, if_neg (be16Stream_ne_nil _ hs)]
theorem rectPrims_line (L : Line) (hL : L ≠ .dc) (c : Cfg) (x y w h : Nat) (src : List Word) (l : Option Bit) :
    (rectPrims c x y w h src).foldl (levelStep L) l = l := by
  unfold rectPrims windowPrims
  rw [List.foldl_append, List.foldl_append, commandPrims_line L hL, commandPrims_line L hL, commandPrims_line L hL]
theorem rectPrims_rotation (c : Cfg) (x y w h : Nat) (src : List Word) (r : Option (BitVec 2)) :
    (rectPrims c x y w h src).foldl rotationStep r = r := by
  unfold rectPrims windowPrims
  rw [List.foldl_append, List.foldl_append, commandPrims_rotation, commandPrims_rotation, commandPrims_rotation]

/-- The whole state after a rectangle. -/
theorem rectPrims_state (s : State) (x y w h : Nat) (src : List Word) (hm : 1 ≤ s.cfg.maxXfer) (hs : 1 ≤ src.length) :
    (rectPrims s.cfg x y w h src).foldl afterPrim s = { s with
      dcLevel := some (dcDataLevel s.cfg)
      panel := ((rectPrims s.cfg x y w h src).foldl afterPrim s).panel
      events := s.events ++ rectEntries s x y w h src
      answers := s.answers.drop (rectDraws s.cfg src.length)
      free := s.free + (rectEntries s x y w h src).length } := by
  conv_lhs => rw [foldl_afterPrim_eq]
  rw [rectPrims_dc _ _ _ _ _ _ hs, rectPrims_line .rst (by decide), rectPrims_line .bl (by decide),
    rectPrims_rotation, entriesOf_rect, drawsOf_rect _ hm]

theorem windowFits_iff (c : Cfg) (x y w h : Nat) : windowFits c x y w h = true ↔ fits c x y w h := by
  unfold windowFits fits absXe absYe
  simp

/-- In READY the name of the operation does not matter. -/
theorem pushRectBody_ready (tag tag' : OpTag) (x y w h : Nat) (src : List Word) (s : State) (hr : s.drvState = .ready) :
    pushRectBody tag x y w h src s = pushRectBody tag' x y w h src s := by
  rw [pushRectBody_eq, pushRectBody_eq]; simp [hr]

/-- R107: a rectangle that the environment answers well goes through. -/
theorem body_good (tag : OpTag) (x y w h : Nat) (src : List Word) (s : State) (hr : s.drvState = .ready)
    (hw : w ≠ 0) (hh : h ≠ 0) (hf : fits s.cfg x y w h) (hm : 1 ≤ s.cfg.maxXfer)
    (ha : AnswersGood (rectDraws s.cfg src.length) s) :
    pushRectBody tag x y w h src s = .go ((rectPrims s.cfg x y w h src).foldl afterPrim s) := by
  rw [pushRectBody_prims, if_neg (by simpa using hr), if_neg (by omega), if_pos ((windowFits_iff _ _ _ _ _).mpr hf)]
  exact runPrims_good _ (by rw [drawsOf_rect _ hm]; exact ha)

/-- R107: where a rectangle that went through has led. -/
theorem body_go (tag : OpTag) (x y w h : Nat) (src : List Word) (s t : State)
    (hw : w ≠ 0) (hh : h ≠ 0) (hg : pushRectBody tag x y w h src s = .go t) :
    t = (rectPrims s.cfg x y w h src).foldl afterPrim s ∧ s.drvState = .ready ∧ fits s.cfg x y w h := by
  rw [pushRectBody_prims] at hg
  split at hg
  · cases hg
  · rename_i hr
    rw [if_neg (by omega)] at hg
    split at hg
    · rename_i hf
      exact ⟨runPrims_go _ hg, by simpa using hr, (windowFits_iff _ _ _ _ _).mp hf⟩
    · cases hg
end Sys2Proof.Machine
end

