-- ==== Sys2Proof/Laws/Codec.lean ====
section
/-! SUPPORT. The three lanes of a colour word as numbers (spec/40_codec.md R72), and what each codec computation does to
them. -/

namespace Sys2Proof.Machine

open Sys2Proof.Claims

theorem compose_toNat (r : BitVec 5) (g : BitVec 6) (b : BitVec 5) :
    (compose r g b).toNat = r.toNat * 2048 + g.toNat * 32 + b.toNat := by
  unfold compose
  rw [BitVec.toNat_append, BitVec.toNat_append, Nat.shiftLeft_eq, Nat.shiftLeft_eq]
  have hb := b.isLt
  have hg := g.isLt
  rw [← Nat.shiftLeft_eq, ← Nat.shiftLeft_add_eq_or_of_lt hb, ← Nat.shiftLeft_eq,
    ← Nat.shiftLeft_add_eq_or_of_lt hg, Nat.shiftLeft_eq, Nat.shiftLeft_eq]
  omega
theorem red_compose (r : BitVec 5) (g : BitVec 6) (b : BitVec 5) : red (compose r g b) = r.toNat := by
  have := compose_toNat r g b; have hb := b.isLt; have hg := g.isLt; unfold red; omega
theorem green_compose (r : BitVec 5) (g : BitVec 6) (b : BitVec 5) : green (compose r g b) = g.toNat := by
  have := compose_toNat r g b; have hb := b.isLt; have hg := g.isLt; unfold green; omega
theorem blue_compose (r : BitVec 5) (g : BitVec 6) (b : BitVec 5) : blue (compose r g b) = b.toNat := by
  have := compose_toNat r g b; have hb := b.isLt; have hg := g.isLt; unfold blue; omega
theorem r5_toNat (c : Word) : (r5 c).toNat = red c := by
  unfold r5 red; rw [BitVec.extractLsb'_toNat, Nat.shiftRight_eq_div_pow]; have := c.isLt; omega
theorem g6_toNat (c : Word) : (g6 c).toNat = green c := by
  unfold g6 green; rw [BitVec.extractLsb'_toNat, Nat.shiftRight_eq_div_pow]
theorem b5_toNat (c : Word) : (b5 c).toNat = blue c := by
  unfold b5 blue; rw [BitVec.extractLsb'_toNat, Nat.shiftRight_eq_div_pow]; omega
theorem red_lt (c : Word) : red c < 32 := by unfold red; have := c.isLt; omega
theorem green_lt (c : Word) : green c < 64 := by unfold green; omega
theorem blue_lt (c : Word) : blue c < 32 := by unfold blue; omega
theorem compose_lanes (c : Word) : compose (r5 c) (g6 c) (b5 c) = c := by
  apply BitVec.eq_of_toNat_eq; rw [compose_toNat, r5_toNat, g6_toNat, b5_toNat]; unfold red green blue; omega
theorem word_ext {c d : Word} (h1 : red c = red d) (h2 : green c = green d) (h3 : blue c = blue d) : c = d := by
  apply BitVec.eq_of_toNat_eq; unfold red green blue at *; omega

theorem pack_lanes (r g b : Byte) : red (pack r g b) = r.toNat >>> 3 ∧ green (pack r g b) = g.toNat >>> 2 ∧
    blue (pack r g b) = b.toNat >>> 3 := by
  unfold pack
  rw [red_compose, green_compose, blue_compose]
  simp only [BitVec.extractLsb'_toNat]
  have := r.isLt; have := g.isLt; have := b.isLt
  simp only [Nat.shiftRight_eq_div_pow]
  omega


theorem widen5_toNat : ∀ v : BitVec 5, (widen5 v).toNat = (v.toNat <<< 3) ||| (v.toNat >>> 2) := by decide
theorem widen6_toNat : ∀ v : BitVec 6, (widen6 v).toNat = (v.toNat <<< 2) ||| (v.toNat >>> 4) := by decide


theorem wid5 : ∀ v : BitVec 5, (widen5 v).extractLsb' 3 5 = v := by decide
theorem wid6 : ∀ v : BitVec 6, (widen6 v).extractLsb' 2 6 = v := by decide
theorem r5_compose (r : BitVec 5) (g : BitVec 6) (b : BitVec 5) : r5 (compose r g b) = r := by
  apply BitVec.eq_of_toNat_eq; rw [r5_toNat, red_compose]
theorem g6_compose (r : BitVec 5) (g : BitVec 6) (b : BitVec 5) : g6 (compose r g b) = g := by
  apply BitVec.eq_of_toNat_eq; rw [g6_toNat, green_compose]
theorem b5_compose (r : BitVec 5) (g : BitVec 6) (b : BitVec 5) : b5 (compose r g b) = b := by
  apply BitVec.eq_of_toNat_eq; rw [b5_toNat, blue_compose]


theorem blendLane_le (a s d : Nat) (h : a ≤ 255) : blendLane a s d ≤ max s d := by
  unfold blendLane
  have h1 : s * a ≤ max s d * a := Nat.mul_le_mul_right _ (le_max_left _ _)
  have h2 : d * (255 - a) ≤ max s d * (255 - a) := Nat.mul_le_mul_right _ (le_max_right _ _)
  have h3 : max s d * a + max s d * (255 - a) = max s d * 255 := by rw [← Nat.mul_add]; congr 1; omega
  generalize max s d * a = x at *
  generalize max s d * (255 - a) = y at *
  omega

theorem blend_lanes (s d : Word) (a : Byte) :
    red (blend s d a) = blendLane a.toNat (red s) (red d) ∧ green (blend s d a) = blendLane a.toNat (green s) (green d) ∧
    blue (blend s d a) = blendLane a.toNat (blue s) (blue d) := by
  unfold blend
  rw [red_compose, green_compose, blue_compose, r5_toNat, r5_toNat, g6_toNat, g6_toNat, b5_toNat, b5_toNat]
  simp only [BitVec.toNat_ofNat]
  have ha : a.toNat ≤ 255 := by have := a.isLt; omega
  have h1 := blendLane_le a.toNat (red s) (red d) ha
  have h2 := blendLane_le a.toNat (green s) (green d) ha
  have h3 := blendLane_le a.toNat (blue s) (blue d) ha
  have := red_lt s; have := red_lt d; have := green_lt s; have := green_lt d; have := blue_lt s; have := blue_lt d
  omega

theorem blendLane_self (a s : Nat) (h : a ≤ 255) : blendLane a s s = s := by
  unfold blendLane; rw [← Nat.mul_add]
  rw [show a + (255 - a) = 255 by omega]; omega


theorem mod_le (x y m : Nat) (hx : x ≤ m) (hy : y ≤ m) : x * y / m ≤ min x y := by
  rw [le_min_iff]
  constructor
  · exact Nat.div_le_of_le_mul (by rw [Nat.mul_comm m]; exact Nat.mul_le_mul_left _ hy)
  · exact Nat.div_le_of_le_mul (Nat.mul_le_mul_right _ hx)

theorem mod_lanes (a b : Word) : red (modulate a b) = red a * red b / 31 ∧ green (modulate a b) = green a * green b / 63 ∧
    blue (modulate a b) = blue a * blue b / 31 := by
  unfold modulate
  rw [red_compose, green_compose, blue_compose, r5_toNat, r5_toNat, g6_toNat, g6_toNat, b5_toNat, b5_toNat]
  simp only [BitVec.toNat_ofNat]
  have := red_lt a; have := red_lt b; have := green_lt a; have := green_lt b; have := blue_lt a; have := blue_lt b
  have h1 := mod_le (red a) (red b) 31 (by omega) (by omega)
  have h2 := mod_le (green a) (green b) 63 (by omega) (by omega)
  have h3 := mod_le (blue a) (blue b) 31 (by omega) (by omega)
  generalize red a * red b / 31 = x at *
  generalize green a * green b / 63 = y at *
  generalize blue a * blue b / 31 = z at *
  omega


end Sys2Proof.Machine
end

