-- ==== Sys2Proof/Laws/Tiles.lean ====
section
/-! SUPPORT. The arithmetic of the tile grid (spec/41_dirty_tiles.md R82 to R87) and of row-by-row lists. -/

namespace Sys2Proof.Machine

/-- R7: which tile indices there are. -/
theorem lt_ceilDiv {a b n : Nat} (hb : 1 ≤ b) : n < ceilDiv a b ↔ n * b < a := by
  unfold ceilDiv
  rw [Nat.lt_div_iff_mul_lt (by omega)]
  omega

/-- What a well-formed configuration says of sizes. -/
structure WfFacts (c : Cfg) : Prop where
  panelW : 1 ≤ c.panelW.toNat
  panelH : 1 ≤ c.panelH.toNat
  tileW : 1 ≤ c.tileW
  tileH : 1 ≤ c.tileH
  tileW_le : c.tileW ≤ 65535
  tileH_le : c.tileH ≤ 65535
  xfer : 1 ≤ c.maxXfer

theorem wfFacts {c : Cfg} (h : c.wf = true) : WfFacts c := by
  simp only [Cfg.wf, sizeLegal, Cfg.maxXferLegal, Bool.and_eq_true, decide_eq_true_eq] at h
  obtain ⟨⟨⟨⟨⟨⟨⟨⟨⟨⟨h1, h2⟩, h3⟩, h4⟩, -⟩, h5⟩, -⟩, -⟩, -⟩, -⟩, -⟩ := h
  exact ⟨h1.1, h2.1, h3.1, h4.1, h3.2, h4.2, h5⟩

/-- R82, R83: on one axis, a clipped span touches a tile exactly when the two share a pixel. -/
theorem span_iff (p len : BitVec 32) (size : Word) (T n : Nat) (hT : 1 ≤ T) (hn : n * T < size.toNat) :
    (clipLow p < clipHigh p len size ∧ spanHits (clipLow p) (clipHigh p len size) T n = true) ↔
    ∃ q : Nat, n * T ≤ q ∧ q < min ((n + 1) * T) size.toNat ∧ p.toInt ≤ q ∧ (q : Int) < p.toInt + len.toInt := by
  have hT' : (0 : Int) < T := by omega
  unfold spanHits
  simp only [Bool.and_eq_true, decide_eq_true_eq]
  have e1 : ∀ a : Int, a / T ≤ n ↔ a < (n + 1) * T := fun a => by
    rw [← Int.ediv_lt_iff_lt_mul hT']; omega
  have e2 : ∀ a : Int, (n : Int) ≤ a / T ↔ n * T ≤ a := fun a => Int.le_ediv_iff_mul_le hT'
  rw [e1, e2]
  unfold clipLow clipHigh
  have e3 : ((n : Int) + 1) * T = ((n + 1) * T : Nat) := by push_cast; ring
  have e4 : (n : Int) * T = (n * T : Nat) := by push_cast; ring
  rw [e3, e4]
  have e5 : (n + 1) * T = n * T + T := by ring
  rw [e5]
  generalize n * T = m at *
  constructor
  · rintro ⟨h1, h2, h3⟩
    refine ⟨max (max p.toInt 0).toNat m, ?_⟩
    omega
  · rintro ⟨q, h⟩
    omega

/-- R25: the flat index and back. -/
theorem flatIndex_mod {X tx ty : Nat} (h : tx < X) : (ty * X + tx) % X = tx := by
  rw [Nat.mul_comm, Nat.mul_add_mod, Nat.mod_eq_of_lt h]
theorem flatIndex_div {X tx ty : Nat} (h : tx < X) : (ty * X + tx) / X = ty := by
  rw [Nat.mul_comm, Nat.mul_add_div (by omega), Nat.div_eq_of_lt h, Nat.add_zero]
theorem flatIndex_lt {X Y tx ty : Nat} (h : tx < X) (k : ty < Y) : ty * X + tx < Y * X := by
  calc ty * X + tx < ty * X + X := by omega
    _ = (ty + 1) * X := by ring
    _ ≤ Y * X := Nat.mul_le_mul_right _ k

theorem allFlags_eq (fs : List Bool) : allFlags fs = List.replicate fs.length true := by
  unfold allFlags; simp

theorem grid_length {α : Type} (h w : Nat) (f : Nat → Nat → α) :
    ((List.range h).flatMap fun j => (List.range w).map fun i => f j i).length = w * h := by
  simp [List.length_flatMap, Nat.mul_comm]

theorem grid_getElem? {α : Type} (w : Nat) (f : Nat → Nat → α) (i : Nat) (hi : i < w) :
    ∀ (h j k : Nat), j < h → 
      ((List.range' k h).flatMap fun j => (List.range w).map fun i => f j i)[j * w + i]? = some (f (k + j) i) := by
  intro h
  induction h with
  | zero => intro j k hj; omega
  | succ h ih =>
    intro j k hj
    rw [List.range'_succ, List.flatMap_cons]
    cases j with
    | zero =>
      rw [List.getElem?_append_left (by simpa using hi)]
      simp [hi]
    | succ j =>
      rw [List.getElem?_append_right (by simp; nlinarith)]
      have e : (j + 1) * w + i - ((List.range w).map fun i => f k i).length = j * w + i := by
        simp [Nat.add_mul]; omega
      rw [e, ih j (k + 1) (by omega)]
      congr 2; omega

/-- A list made row by row, read at row `j` and column `i`. -/
theorem grid_getElem?' {α : Type} (w : Nat) (f : Nat → Nat → α) (i : Nat) (hi : i < w) (h j : Nat) (hj : j < h) :
      ((List.range h).flatMap fun j => (List.range w).map fun i => f j i)[j * w + i]? = some (f j i) := by
  have := grid_getElem? w f i hi h j 0 hj
  rwa [← List.range_eq_range', Nat.zero_add] at this

end Sys2Proof.Machine
end

