-- ==== Sys2Proof/Laws/Memory.lean ====
section
/-! SUPPORT. The laws of word-addressed memories: a read after a write to the same index gives the word written,
a write leaves every other index alone, and the canonical form is kept. -/

namespace Sys2Proof.Machine

@[simp] theorem Memory.read_nil (a : Nat) : Memory.read [] a = none := rfl

@[simp] theorem Memory.read_write_same (m : Memory) (a : Nat) (v : Word) :
    Memory.read (Memory.write m a v) a = some v := by
  induction m with
  | nil => simp [Memory.write, Memory.read]
  | cons e rest ih =>
    unfold Memory.write
    split
    · simp [Memory.read]
    · split
      · simp [Memory.read]
      · rename_i h1 h2
        simp [Memory.read, ih, Ne.symm h2]

theorem Memory.read_write_other (m : Memory) (a b : Nat) (v : Word) (h : b ≠ a) :
    Memory.read (Memory.write m a v) b = Memory.read m b := by
  induction m with
  | nil => simp [Memory.write, Memory.read, Ne.symm h]
  | cons e rest ih =>
    unfold Memory.write
    split
    · simp [Memory.read, Ne.symm h]
    · split
      · rename_i h1 h2
        subst h2
        simp [Memory.read, Ne.symm h]
      · simp [Memory.read, ih]

theorem Memory.mem_write (m : Memory) (a : Nat) (v : Word) (e : Nat × Word)
    (h : e ∈ Memory.write m a v) : e = (a, v) ∨ e ∈ m := by
  induction m with
  | nil => simpa [Memory.write] using h
  | cons d rest ih =>
    unfold Memory.write at h
    split at h
    · simpa using h
    · split at h
      · rcases List.mem_cons.mp h with h | h
        · exact .inl h
        · exact .inr (List.mem_cons_of_mem _ h)
      · rcases List.mem_cons.mp h with h | h
        · exact .inr (h ▸ List.mem_cons_self)
        · exact (ih h).imp_right (List.mem_cons_of_mem _)

theorem Memory.above_iff (a : Nat) (m : Memory) :
    Memory.above a m = true ↔ ∀ e ∈ m, a < e.1 := by
  simp [Memory.above]

theorem Memory.wf_write (m : Memory) (a : Nat) (v : Word) (h : Memory.wf m = true) :
    Memory.wf (Memory.write m a v) = true := by
  induction m with
  | nil => simp [Memory.write, Memory.wf, Memory.above]
  | cons e rest ih =>
    have hd : Memory.above e.1 rest = true ∧ Memory.wf rest = true := by
      simpa [Memory.wf] using h
    have habove := (Memory.above_iff _ _).mp hd.1
    unfold Memory.write
    split
    · rename_i hlt
      have : Memory.above a (e :: rest) = true := (Memory.above_iff _ _).mpr fun d hdm => by
        rcases List.mem_cons.mp hdm with rfl | hdm
        · exact hlt
        · exact Nat.lt_trans hlt (habove d hdm)
      rw [Memory.wf, this, h]
      rfl
    · split
      · rename_i heq
        simpa [Memory.wf, heq] using hd
      · rename_i h1 h2
        have : Memory.above e.1 (Memory.write rest a v) = true :=
          (Memory.above_iff _ _).mpr fun d hdm => by
            rcases Memory.mem_write _ _ _ _ hdm with rfl | hdm
            · simp only; omega
            · exact habove d hdm
        rw [Memory.wf, this, ih hd.2]
        rfl

theorem Memory.wf_foldl_write (l : List (Nat × Word)) :
    ∀ m : Memory, Memory.wf m = true →
      Memory.wf (l.foldl (fun m e => Memory.write m e.1 e.2) m) = true := by
  induction l with
  | nil => exact fun _ h => h
  | cons e l ih => exact fun m h => ih _ (Memory.wf_write m e.1 e.2 h)

theorem Memory.wf_ofList (l : List (Nat × Word)) : Memory.wf (Memory.ofList l) = true :=
  Memory.wf_foldl_write l [] rfl

theorem gramKey_inj {c r c' r' : Nat} (hc : c < 65536) (hc' : c' < 65536)
    (h : gramKey c r = gramKey c' r') : c = c' ∧ r = r' := by
  unfold gramKey at h
  omega

/-- `MemRead` sees a host write at its own index. -/
theorem memRead_write_same (s : State) (a : Nat) (v : Word) :
    memRead { s with fb := Memory.write s.fb a v } a = v := by
  simp [memRead]

/-- `MemRead` elsewhere does not see it. -/
theorem memRead_write_other (s : State) (a b : Nat) (v : Word) (h : b ≠ a) :
    memRead { s with fb := Memory.write s.fb a v } b = memRead s b := by
  simp [memRead, Memory.read_write_other _ _ _ _ h]

end Sys2Proof.Machine
end

