-- ==== Sys2Proof/Laws/Wire.lean ====
section
/-! SUPPORT. What a reader of the wire finds of a command (spec/30_encoding.md R58), and where a list of primitives stops
that the environment does not answer well (spec/60_exceptions.md R130, R131). -/

namespace Sys2Proof.Machine

open Sys2Proof.Safety Sys2Proof.Claims

theorem dcDataLevel_ne (c : Cfg) : dcDataLevel c ≠ c.dcCmdLevel := by
  unfold dcDataLevel
  generalize c.dcCmdLevel = b
  revert b; decide

theorem wireTraceFrom_writes (s : State) (l : Option Bit) (cs : List (List Byte)) (rest : List Entry) :
    wireTraceFrom l (cs.map (writeEntry s) ++ rest) = cs.map (fun b => (l, b)) ++ wireTraceFrom l rest := by
  induction cs with
  | nil => rfl
  | cons c cs ih =>
    rw [List.map_cons, List.map_cons, List.cons_append, List.cons_append, ← ih]
    conv_lhs => unfold wireTraceFrom
    simp [writeSucceeded, writeEntry, dcAfterEntry]

theorem wireTraceFrom_set (s : State) (l : Option Bit) (b : Bit) (rest : List Entry) :
    wireTraceFrom l (setEntry s .dc b :: rest) = wireTraceFrom (some b) rest := by
  conv_lhs => unfold wireTraceFrom
  simp [writeSucceeded, setEntry, dcAfterEntry]

theorem wireTraceFrom_delay (l : Option Bit) (ms : Nat) (rest : List Entry) :
    wireTraceFrom l (delayEntries ms ++ rest) = wireTraceFrom l rest := by
  unfold delayEntries
  split
  · rfl
  · rfl

theorem readCommandsFrom_data (c : Cfg) (op : Byte) (cs : List (List Byte)) (T : List (Option Bit × List Byte)) :
    ∀ pl, readCommandsFrom c (some (op, pl)) (cs.map (fun b => (some (dcDataLevel c), b)) ++ T) =
      readCommandsFrom c (some (op, pl ++ cs.flatten)) T := by
  induction cs with
  | nil => intro pl; simp
  | cons b cs ih =>
    intro pl
    rw [List.map_cons, List.cons_append]
    conv_lhs => unfold readCommandsFrom
    rw [if_neg (by simpa using dcDataLevel_ne c)]
    simp only [Option.map_some]
    rw [ih]
    simp

/-- R58: a reader of the wire finds a command. -/
theorem read_command (s : State) (hm : 1 ≤ s.cfg.maxXfer) (op : Byte) (pl : List Byte) (l : Option Bit)
    (cur : Option (Byte × List Byte)) (rest : List Entry) :
    readCommandsFrom s.cfg cur (wireTraceFrom l (commandEntries s op pl ++ rest)) =
      cur.toList ++ readCommandsFrom s.cfg (some (op, pl)) (wireTraceFrom (some (dcAfterCommand s.cfg pl)) rest) := by
  unfold commandEntries
  rw [List.append_assoc, List.cons_append, wireTraceFrom_set]
  have h1 := wireTraceFrom_writes s (some s.cfg.dcCmdLevel) [[op]] (dataEntries s pl ++ rest)
  simp only [List.map_cons, List.map_nil, List.cons_append, List.nil_append] at h1
  rw [List.cons_append, List.nil_append, h1]
  conv_lhs => unfold readCommandsFrom
  rw [if_pos rfl]
  simp only
  congr 1
  unfold dataEntries dcAfterCommand
  split
  · rename_i hp; subst hp; rfl
  · rw [List.cons_append, wireTraceFrom_set, wireTraceFrom_writes, readCommandsFrom_data, chunks_flatten _ hm]
    rfl

theorem columnBytes_length (c : Cfg) (x w : Nat) : (columnBytes c x w).length = 4 := rfl
theorem rowBytes_length (c : Cfg) (y h : Nat) : (rowBytes c y h).length = 4 := rfl

theorem commandEntries_cons (s : State) (op : Byte) (pl : List Byte) (hp : pl ≠ []) :
    commandEntries s op pl = [setEntry s .dc s.cfg.dcCmdLevel, writeEntry s [op], setEntry s .dc (dcDataLevel s.cfg)] ++
      (chunks s.cfg.maxXfer pl).map (writeEntry s) := by
  unfold commandEntries dataEntries
  rw [if_neg hp]; rfl
/-! ### A failing event -/

/-- A primitive of one command: a setting of the DC line or a transaction. -/
def isFraming : Prim → Bool
  | .set .dc _ => true
  | .set _ _ => false
  | .write _ => true
  | .wait _ => false
  | .rotate _ => false

theorem commandPrims_framing (c : Cfg) (op : Byte) (pl : List Byte) : ∀ p ∈ commandPrims c op pl, isFraming p = true := by
  unfold commandPrims
  intro p hp
  split at hp
  · simp at hp; rcases hp with rfl | rfl <;> rfl
  · simp at hp
    rcases hp with rfl | rfl | rfl | ⟨a, -, rfl⟩ <;> rfl

theorem rectPrims_framing (c : Cfg) (x y w h : Nat) (src : List Word) : ∀ p ∈ rectPrims c x y w h src, isFraming p = true := by
  unfold rectPrims windowPrims
  intro p hp
  simp only [List.mem_append] at hp
  rcases hp with (hp | hp) | hp
  all_goals exact commandPrims_framing _ _ _ _ hp

/-- What the primitives of commands leave alone, and how many events they are. -/
theorem framing_keeps (ps : List Prim) (hf : ∀ p ∈ ps, isFraming p = true) :
    (∀ l, ps.foldl (levelStep .rst) l = l) ∧ (∀ l, ps.foldl (levelStep .bl) l = l) ∧
    (∀ r, ps.foldl rotationStep r = r) ∧ drawsOf ps = ps.length ∧ ∀ s, (entriesOf s ps).length = ps.length := by
  induction ps with
  | nil => exact ⟨fun _ => rfl, fun _ => rfl, fun _ => rfl, rfl, fun _ => rfl⟩
  | cons p ps ih =>
    obtain ⟨a, b, c, d, e⟩ := ih (fun q hq => hf q (List.mem_cons_of_mem _ hq))
    have hp := hf p List.mem_cons_self
    cases p with
    | set L l =>
      cases L with
      | dc => exact ⟨a, b, c, by rw [drawsOf_cons, d, List.length_cons, Nat.add_comm]; rfl,
          fun s => by rw [entriesOf_set, List.length_cons, e, List.length_cons]⟩
      | rst => cases hp
      | bl => cases hp
    | write bs => exact ⟨a, b, c, by rw [drawsOf_cons, d, List.length_cons, Nat.add_comm]; rfl,
          fun s => by rw [entriesOf_write, List.length_cons, e, List.length_cons]⟩
    | wait ms => cases hp
    | rotate r => cases hp

/-- The DC level along the entries is the one along the primitives. -/
theorem entries_dc (s : State) (ps : List Prim) : ∀ l, (entriesOf s ps).foldl dcAfterEntry l = ps.foldl (levelStep .dc) l := by
  induction ps with
  | nil => exact fun _ => rfl
  | cons p ps ih =>
    intro l
    cases p with
    | set L b =>
      rw [entriesOf_set, List.foldl_cons, List.foldl_cons, ih]
      cases L <;> rfl
    | write b => rw [entriesOf_write, List.foldl_cons, List.foldl_cons, ih]; rfl
    | wait b => rw [entriesOf_wait, List.foldl_cons, List.foldl_cons, ih]; rfl
    | rotate b => rw [entriesOf_rotate, List.foldl_cons, ih]; rfl

/-- The state after a primitive that failed. -/
def failPrim (s : State) (p : Prim) (r : Reply) : State :=
  match p with
  | .set L l => setLevel L none (logged (.gpioSet L (lineHandle s L) l) r (drawn s))
  | .write bytes => logged (.spiWrite s.hSpi bytes) r (drawn s)
  | .wait _ => s
  | .rotate _ => s

theorem runPrim_fail (p : Prim) (s : State) (hf : isFraming p = true) (e : Entry) (r : Reply) (err : OpError)
    (he : entriesOf s [p] = [e]) (h : failsWith e (nextAnswer s) = some (r, err)) :
    runPrim p s = .raise err (failPrim s p r) := by
  cases p with
  | set L l =>
    have he : e = setEntry s L l := by rw [entriesOf_set] at he; simpa using he.symm
    subst he
    simp only [runPrim, setLine]
    cases hn : nextAnswer s with
    | good v => rw [hn] at h; simp [failsWith, setEntry] at h
    | short n =>
      rw [hn] at h
      simp only [failsWith, setEntry, Option.some.injEq, Prod.mk.injEq] at h
      obtain ⟨rfl, rfl⟩ := h; rfl
    | bad =>
      rw [hn] at h
      simp only [failsWith, setEntry, Option.some.injEq, Prod.mk.injEq] at h
      obtain ⟨rfl, rfl⟩ := h; rfl
  | write bytes =>
    have he : e = writeEntry s bytes := by rw [entriesOf_write] at he; simpa using he.symm
    subst he
    simp only [runPrim, tx]
    cases hn : nextAnswer s with
    | good v => rw [hn] at h; simp [failsWith, writeEntry] at h
    | short n =>
      rw [hn] at h
      simp only [failsWith, writeEntry] at h
      split at h
      · simp only [Option.some.injEq, Prod.mk.injEq] at h
        obtain ⟨rfl, rfl⟩ := h
        simp only [writtenCount]
        have : min n bytes.length = n := by omega
        rw [this, if_neg (by omega)]; rfl
      · cases h
    | bad =>
      rw [hn] at h
      simp only [failsWith, writeEntry, Option.some.injEq, Prod.mk.injEq] at h
      obtain ⟨rfl, rfl⟩ := h; rfl
  | wait ms => cases hf
  | rotate r => cases hf

theorem nextAnswer_of_get {s : State} {a : Answer} (h : s.answers[0]? = some a) : nextAnswer s = a := by
  unfold nextAnswer
  cases hs : s.answers with
  | nil => rw [hs] at h; cases h
  | cons b bs => rw [hs] at h; simpa using h

theorem entriesOf_get (s : State) (ps : List Prim) (hf : ∀ p ∈ ps, isFraming p = true) :
    ∀ j : Nat, ∀ e, (entriesOf s ps)[j]? = some e → ∃ p, ps[j]? = some p ∧ entriesOf s [p] = [e] ∧
      entriesOf s (ps.take j) = (entriesOf s ps).take j := by
  induction ps with
  | nil => intro j e h; simp at h
  | cons p ps ih =>
    intro j e h
    have hc : entriesOf s (p :: ps) = entriesOf s [p] ++ entriesOf s ps := entriesOf_append s [p] ps
    have h1 : (entriesOf s [p]).length = 1 := (framing_keeps [p] (by simpa using hf p List.mem_cons_self)).2.2.2.2 s
    obtain ⟨q, hq⟩ := List.length_eq_one_iff.mp h1
    rw [hc, hq] at h ⊢
    cases j with
    | zero =>
      simp at h
      exact ⟨p, by simp, by rw [hq, h], rfl⟩
    | succ j =>
      obtain ⟨p', h1, h2, h3⟩ := ih (fun q hq => hf q (List.mem_cons_of_mem _ hq)) j e (by simpa using h)
      refine ⟨p', by simpa using h1, h2, ?_⟩
      rw [List.take_succ_cons, show entriesOf s (p :: ps.take j) = entriesOf s [p] ++ entriesOf s (ps.take j) from entriesOf_append s [p] _, hq, h3]
      rfl

/-- R130, R131: a list that the environment answers well up to one primitive and not there stops there. -/
theorem runPrims_fail (ps : List Prim) (hf : ∀ p ∈ ps, isFraming p = true) (s : State) (j : Nat) (a : Answer)
    (e : Entry) (r : Reply) (err : OpError) (he : (entriesOf s ps)[j]? = some e) (hg : AnswersGood j s)
    (ha : s.answers[j]? = some a) (hx : failsWith e a = some (r, err)) :
    ∃ p, ps[j]? = some p ∧ entriesOf s [p] = [e] ∧ runPrims ps s = .raise err (failPrim ((ps.take j).foldl afterPrim s) p r) := by
  obtain ⟨p, hp, h1, h2⟩ := entriesOf_get s ps hf j e he
  refine ⟨p, hp, h1, ?_⟩
  obtain ⟨hlt, hpe⟩ := List.getElem?_eq_some_iff.mp hp
  have hsplit : ps = ps.take j ++ p :: ps.drop (j + 1) := by
    rw [← hpe]; simp
  have hft : ∀ q ∈ ps.take j, isFraming q = true := fun q hq => hf q (List.mem_of_mem_take hq)
  have hd : drawsOf (ps.take j) = j := by
    rw [(framing_keeps _ hft).2.2.2.1, List.length_take]; omega
  conv_lhs => rw [hsplit]
  rw [runPrims_append, runPrims_good _ (by rw [hd]; exact hg), Ctl.bind_go, runPrims_cons]
  have st := foldl_afterPrim_steady (ps.take j) s
  have hn : nextAnswer ((ps.take j).foldl afterPrim s) = a := by
    apply nextAnswer_of_get
    rw [foldl_afterPrim_answers, hd, List.getElem?_drop]; simpa using ha
  rw [runPrim_fail p _ (hf p (List.mem_of_getElem? hp)) e r err (by rw [entriesOf_congr st, h1]) (by rw [hn]; exact hx)]
  rfl
end Sys2Proof.Machine
end

