-- ==== Sys2Proof/Laws/Observer.lean ====
section
/-! SUPPORT. What commands and pixel streams do to the observer of the panel (spec/42_framer.md R112 to R114), whatever the
chunking. -/

namespace Sys2Proof.Machine

open Sys2Proof.Claims

/-- R114: the first byte of a pixel is only collected. -/
theorem panelDataByte_first (k : Nat) (p : Panel) (b : Byte) (hc : p.cur = some 0x2C) (ha : p.acc.length % 2 = 0) :
    panelDataByte k p b = { p with acc := p.acc ++ [b] } := by
  unfold panelDataByte
  simp [hc, ha]

/-- R114: the second byte of a pixel completes it. -/
theorem panelDataByte_second (k : Nat) (p : Panel) (hi b : Byte) (hc : p.cur = some 0x2C) (ha : p.acc.length % 2 = 1)
    (hl : p.acc.getLast? = some hi) :
    panelDataByte k p b = panelPixel k (word16 hi b) { p with acc := p.acc ++ [b] } := by
  unfold panelDataByte
  simp [hc, ha, hl]

theorem word16_toNat (hi lo : Byte) : (word16 hi lo).toNat = hi.toNat * 256 + lo.toNat := by
  unfold word16
  rw [BitVec.toNat_append, ← Nat.shiftLeft_add_eq_or_of_lt lo.isLt, Nat.shiftLeft_eq]

theorem word16_be16 (v : Word) : word16 (v.extractLsb' 8 8) (v.extractLsb' 0 8) = v := by
  apply BitVec.eq_of_toNat_eq
  rw [word16_toNat, BitVec.extractLsb'_toNat, BitVec.extractLsb'_toNat, Nat.shiftRight_eq_div_pow]
  have := v.isLt
  simp only [Nat.shiftRight_zero]; omega

theorem rangeOf_be16 (a b : Word) : rangeOf (be16 a ++ be16 b) = some (a.toNat, b.toNat) := by
  have ha := congrArg BitVec.toNat (word16_be16 a)
  have hb := congrArg BitVec.toNat (word16_be16 b)
  rw [word16_toNat] at ha hb
  simp [rangeOf, be16]
  constructor
  · simpa using ha
  · simpa using hb

/-- Outside RAMWR the number of the draw does not matter. -/
theorem panelDataByte_draw (k k' : Nat) (p : Panel) (b : Byte) (hc : p.cur ≠ some 0x2C) :
    panelDataByte k p b = panelDataByte k' p b ∧ (panelDataByte k p b).cur = p.cur := by
  unfold panelDataByte
  simp only [hc, if_false]
  refine ⟨trivial, ?_⟩
  split
  · split <;> rfl
  · split
    · split <;> rfl
    · rfl

theorem panelData_draw (k k' : Nat) (bs : List Byte) :
    ∀ p : Panel, p.cur ≠ some 0x2C → panelData k bs p = panelData k' bs p ∧ (panelData k bs p).cur = p.cur := by
  induction bs with
  | nil => exact fun p _ => ⟨rfl, rfl⟩
  | cons b bs ih =>
    intro p hc
    obtain ⟨h1, h2⟩ := panelDataByte_draw k k' p b hc
    have hc' : (panelDataByte k p b).cur ≠ some 0x2C := by rw [h2]; exact hc
    obtain ⟨h3, h4⟩ := ih _ hc'
    unfold panelData at *
    rw [List.foldl_cons, List.foldl_cons, ← h1]
    exact ⟨h3, h4.trans h2⟩

theorem panelTransaction_data (c : Cfg) (k : Nat) (bs : List Byte) (p : Panel) :
    panelTransaction c k (some (dcDataLevel c)) bs p = panelData k bs p := by
  unfold panelTransaction
  simp only [dcDataLevel_ne, if_false]

theorem panelTransaction_command (c : Cfg) (k : Nat) (b : Byte) (p : Panel) :
    panelTransaction c k (some c.dcCmdLevel) [b] p = panelCommand k b p := by
  unfold panelTransaction
  simp

/-- R114: chunk boundaries have no effect outside RAMWR. -/
theorem writes_panel (cs : List (List Byte)) :
    ∀ s : State, s.dcLevel = some (dcDataLevel s.cfg) → s.panel.cur ≠ some 0x2C →
      ((cs.map Prim.write).foldl afterPrim s).panel = panelData 0 cs.flatten s.panel := by
  induction cs with
  | nil => exact fun s _ _ => rfl
  | cons c cs ih =>
    intro s hd hc
    rw [List.map_cons, List.foldl_cons]
    have e : (afterPrim s (.write c)).panel = panelData 0 c s.panel := by
      rw [afterPrim_panel]; dsimp only; rw [hd, panelTransaction_data]
      exact (panelData_draw _ _ _ _ hc).1
    have hc' : (afterPrim s (.write c)).panel.cur ≠ some 0x2C := by
      rw [e, (panelData_draw 0 0 c _ hc).2]; exact hc
    rw [ih _ (by simpa [afterPrim] using hd) hc', e]
    unfold panelData
    rw [List.flatten_cons, List.foldl_append]

/-- The panel after a command byte. -/
theorem command_head (s : State) (c : Cfg) (hc : c = s.cfg) (op : Byte) :
    ([Prim.set .dc c.dcCmdLevel, .write [op]].foldl afterPrim s).panel = panelCommand s.free.succ op s.panel := by
  subst hc
  simp only [List.foldl_cons, List.foldl_nil]
  rw [afterPrim_panel]
  have h1 : (afterPrim s (.set .dc s.cfg.dcCmdLevel)).panel = s.panel := rfl
  have h2 : (afterPrim s (.set .dc s.cfg.dcCmdLevel)).dcLevel = some s.cfg.dcCmdLevel := rfl
  have h3 : (afterPrim s (.set .dc s.cfg.dcCmdLevel)).free = s.free + 1 := rfl
  have h4 : (afterPrim s (.set .dc s.cfg.dcCmdLevel)).cfg = s.cfg := rfl
  dsimp only
  rw [h1, h2, h3, h4, panelTransaction_command]

/-- The panel after a command that is not RAMWR. -/
theorem command_panel (op : Byte) (hop : op ≠ 0x2C) (pl : List Byte) (s : State) (hm : 1 ≤ s.cfg.maxXfer) :
    ((commandPrims s.cfg op pl).foldl afterPrim s).panel = panelData 0 pl (panelCommand 0 op s.panel) := by
  have hk : ∀ k, panelCommand k op s.panel = panelCommand 0 op s.panel := fun k => by
    unfold panelCommand; rw [if_neg hop, if_neg hop]
  unfold commandPrims
  rw [List.foldl_append]
  have hst := foldl_afterPrim_steady [Prim.set .dc s.cfg.dcCmdLevel, .write [op]] s
  have hp := command_head s s.cfg rfl op
  generalize [Prim.set Line.dc s.cfg.dcCmdLevel, Prim.write [op]].foldl afterPrim s = u at *
  rw [hk] at hp
  split
  · rename_i h; subst h; exact hp
  · rw [List.foldl_cons, ← hst.cfg, writes_panel, chunks_flatten _ (by rw [hst.cfg]; exact hm)]
    · have : (afterPrim u (.set .dc (dcDataLevel u.cfg))).panel = u.panel := rfl
      rw [this, hp]
    · rfl
    · have : (afterPrim u (.set .dc (dcDataLevel u.cfg))).panel = u.panel := rfl
      rw [this, hp]
      simpa [panelCommand] using hop

theorem caset_panel (a b : Word) (s : State) (hm : 1 ≤ s.cfg.maxXfer) :
    ((commandPrims s.cfg 0x2A (be16 a ++ be16 b)).foldl afterPrim s).panel =
      { s.panel with colRange := some (a.toNat, b.toNat), cur := some 0x2A, acc := be16 a ++ be16 b, ptr := none } := by
  rw [command_panel _ (by decide) _ _ hm]
  have h := rangeOf_be16 a b
  simp only [be16, List.cons_append, List.nil_append] at h ⊢
  simp [panelData, panelDataByte, panelCommand, h]

theorem raset_panel (a b : Word) (s : State) (hm : 1 ≤ s.cfg.maxXfer) :
    ((commandPrims s.cfg 0x2B (be16 a ++ be16 b)).foldl afterPrim s).panel =
      { s.panel with rowRange := some (a.toNat, b.toNat), cur := some 0x2B, acc := be16 a ++ be16 b, ptr := none } := by
  rw [command_panel _ (by decide) _ _ hm]
  have h := rangeOf_be16 a b
  simp only [be16, List.cons_append, List.nil_append] at h ⊢
  simp [panelData, panelDataByte, panelCommand, h]

/-! ### The pixel stream -/

/-- The panel with the first `n` bytes of the stream in. -/
structure Streamed (xs ys w h : Nat) (src : List Word) (p0 : Panel) (n : Nat) (p : Panel) : Prop where
  col : p.colRange = some (xs, xs + w - 1)
  row : p.rowRange = some (ys, ys + h - 1)
  cur : p.cur = some 0x2C
  acc : p.acc = (be16Stream src).take n
  ptr : p.ptr = some (xs + n / 2 % w, ys + n / 2 / w)
  here : ∀ c r, c < 65536 → Memory.read p.gram (gramKey c r) =
    if xs ≤ c ∧ c < xs + w ∧ ys ≤ r ∧ (r - ys) * w + (c - xs) < n / 2 then src[(r - ys) * w + (c - xs)]?
    else Memory.read p0.gram (gramKey c r)

/-- R65: where a pixel stands in the stream. -/
theorem be16Stream_get (src : List Word) : ∀ (m : Nat) (v : Word), src[m]? = some v →
    (be16Stream src)[2 * m]? = some (v.extractLsb' 8 8) ∧ (be16Stream src)[2 * m + 1]? = some (v.extractLsb' 0 8) := by
  induction src with
  | nil => intro m v h; simp at h
  | cons a src ih =>
    intro m v h
    cases m with
    | zero => simp at h; subst h; exact ⟨rfl, rfl⟩
    | succ m =>
      obtain ⟨h1, h2⟩ := ih m v (by simpa using h)
      have e : be16Stream (a :: src) = a.extractLsb' 8 8 :: a.extractLsb' 0 8 :: be16Stream src := rfl
      rw [e, show 2 * (m + 1) = 2 * m + 1 + 1 by omega]
      simpa using ⟨h1, h2⟩

/-- R114: one more byte of the stream. -/
theorem streamed_step (xs ys w h : Nat) (src : List Word) (p0 p : Panel) (n k : Nat) (b : Byte) (hw : 1 ≤ w)
    (hx : xs + w - 1 < 65536) (hl : src.length = w * h) (hp : Streamed xs ys w h src p0 n p)
    (hb : (be16Stream src)[n]? = some b) : Streamed xs ys w h src p0 (n + 1) (panelDataByte k p b) := by
  obtain ⟨c1, c2, c3, c4, c5, c6⟩ := hp
  obtain ⟨hn, hbe⟩ := List.getElem?_eq_some_iff.mp hb
  have hlen : p.acc.length = n := by rw [c4, List.length_take]; omega
  have hacc : p.acc ++ [b] = (be16Stream src).take (n + 1) := by
    rw [c4, List.take_add_one, hb]; rfl
  rcases Nat.mod_two_eq_zero_or_one n with he | ho
  · rw [panelDataByte_first k p b c3 (by rw [hlen]; exact he)]
    have e : (n + 1) / 2 = n / 2 := by omega
    exact ⟨c1, c2, c3, hacc, by rw [e]; exact c5, by rw [e]; exact c6⟩
  · have hsl := be16Stream_length src
    have hm : n / 2 < src.length := by omega
    obtain ⟨v, hv⟩ : ∃ v, src[n / 2]? = some v := ⟨src[n / 2], List.getElem?_eq_getElem hm⟩
    obtain ⟨g1, g2⟩ := be16Stream_get src (n / 2) v hv
    have hb2 : b = v.extractLsb' 0 8 := by
      rw [show 2 * (n / 2) + 1 = n by omega, hb] at g2; exact Option.some.inj g2
    have hlast : p.acc.getLast? = some (v.extractLsb' 8 8) := by
      rw [List.getLast?_eq_getElem?, hlen, c4, List.getElem?_take, if_pos (by omega), show n - 1 = 2 * (n / 2) by omega]
      exact g1
    rw [panelDataByte_second k p _ b c3 (by rw [hlen]; exact ho) hlast, hb2, word16_be16, ← hb2]
    have hrow : n / 2 / w < h := by rw [Nat.div_lt_iff_lt_mul hw, Nat.mul_comm, ← hl]; exact hm
    have hcol : n / 2 % w < w := Nat.mod_lt _ hw
    have hdm := Nat.div_add_mod (n / 2) w
    have e : (n + 1) / 2 = n / 2 + 1 := by omega
    unfold panelPixel
    simp only [c1, c2, c5]
    rw [if_pos (by omega)]
    refine ⟨rfl, rfl, c3, hacc, ?_, ?_⟩
    · dsimp only
      rw [e]
      generalize n / 2 = m at *
      have hs : (m + 1) / w = if m % w + 1 = w then m / w + 1 else m / w := by
        rw [Nat.succ_div]
        by_cases hq : m % w + 1 = w
        · rw [if_pos hq, if_pos]
          exact ⟨m / w + 1, by rw [Nat.mul_add]; omega⟩
        · rw [if_neg hq]
          refine (congrArg (m / w + ·) (if_neg ?_)).trans (Nat.add_zero _)
          intro hdvd
          obtain ⟨q, hq'⟩ := hdvd
          apply hq
          have : (m + 1) % w = 0 := by rw [hq']; simp
          rw [Nat.add_mod] at this
          by_cases h1 : w = 1
          · subst h1; omega
          · rw [Nat.mod_eq_of_lt (show 1 < w by omega)] at this
            by_cases h2 : m % w + 1 < w
            · rw [Nat.mod_eq_of_lt h2] at this; omega
            · omega
      have hmod : (m + 1) % w = if m % w + 1 = w then 0 else m % w + 1 := by
        have := Nat.div_add_mod (m + 1) w
        rw [hs] at this
        split at this
        · rename_i hq; rw [if_pos hq]; rw [Nat.mul_add] at this; omega
        · rename_i hq; rw [if_neg hq]; omega
      rw [hs, hmod]
      unfold advancePtr
      by_cases hq : m % w + 1 = w
      · rw [if_pos hq, if_pos hq, if_pos (by omega)]; simp; omega
      · rw [if_neg hq, if_neg hq, if_neg (by omega)]; simp; omega
    · intro c r hc
      dsimp only
      rw [e]
      generalize n / 2 = m at *
      by_cases hk : c = xs + m % w ∧ r = ys + m / w
      · obtain ⟨rfl, rfl⟩ := hk
        have e2 : (ys + m / w - ys) * w + (xs + m % w - xs) = m := by
          rw [Nat.add_sub_cancel_left, Nat.add_sub_cancel_left, Nat.mul_comm]; exact hdm
        rw [Memory.read_write_same, e2, if_pos ⟨Nat.le_add_right _ _, Nat.add_lt_add_left hcol _, Nat.le_add_right _ _, Nat.lt_succ_self _⟩, hv]
      · have hkey : gramKey c r ≠ gramKey (xs + m % w) (ys + m / w) := fun hg =>
          hk (gramKey_inj hc (by omega) hg)
        rw [Memory.read_write_other _ _ _ _ hkey, c6 c r hc]
        by_cases hin : xs ≤ c ∧ c < xs + w ∧ ys ≤ r ∧ (r - ys) * w + (c - xs) < m
        · rw [if_pos hin, if_pos ⟨hin.1, hin.2.1, hin.2.2.1, Nat.lt_succ_of_lt hin.2.2.2⟩]
        · rw [if_neg hin, if_neg]
          rintro ⟨i1, i2, i3, i4⟩
          apply hin
          refine ⟨i1, i2, i3, ?_⟩
          rcases Nat.lt_or_eq_of_le (Nat.le_of_lt_succ i4) with h | h
          · exact h
          · exfalso
            apply hk
            have a1 : m / w = r - ys := by
              rw [← h, Nat.mul_comm, Nat.mul_add_div (by omega), Nat.div_eq_of_lt (by omega), Nat.add_zero]
            have a2 : m % w = c - xs := by
              rw [← h, Nat.mul_comm, Nat.mul_add_mod, Nat.mod_eq_of_lt (by omega)]
            omega

theorem streamed_bytes (xs ys w h : Nat) (src : List Word) (p0 : Panel) (k : Nat) (hw : 1 ≤ w)
    (hx : xs + w - 1 < 65536) (hl : src.length = w * h) (bs : List Byte) :
    ∀ (n : Nat) (rest : List Byte) (p : Panel), Streamed xs ys w h src p0 n p →
      (be16Stream src).drop n = bs ++ rest → Streamed xs ys w h src p0 (n + bs.length) (panelData k bs p) := by
  induction bs with
  | nil => exact fun n rest p hp _ => hp
  | cons b bs ih =>
    intro n rest p hp hd
    have hb : (be16Stream src)[n]? = some b := by
      have := congrArg (fun l => l[0]?) hd
      simpa using this
    have := ih (n + 1) rest _ (streamed_step xs ys w h src p0 p n k b hw hx hl hp hb) (by
      rw [← List.tail_drop, hd]; rfl)
    rw [List.length_cons, show n + (bs.length + 1) = n + 1 + bs.length by omega]
    exact this

/-- R114: the stream in any chunks. -/
theorem streamed_writes (xs ys w h : Nat) (src : List Word) (p0 : Panel) (hw : 1 ≤ w)
    (hx : xs + w - 1 < 65536) (hl : src.length = w * h) (cs : List (List Byte)) :
    ∀ (n : Nat) (s : State), s.dcLevel = some (dcDataLevel s.cfg) → Streamed xs ys w h src p0 n s.panel →
      (be16Stream src).drop n = cs.flatten →
      Streamed xs ys w h src p0 (n + cs.flatten.length) ((cs.map Prim.write).foldl afterPrim s).panel := by
  induction cs with
  | nil => exact fun n s _ hp _ => hp
  | cons c cs ih =>
    intro n s hd hp hf
    rw [List.map_cons, List.foldl_cons]
    have e : (afterPrim s (.write c)).panel = panelData s.free c s.panel := by
      rw [afterPrim_panel]; dsimp only; rw [hd, panelTransaction_data]
    have h1 := streamed_bytes xs ys w h src p0 s.free hw hx hl c n cs.flatten s.panel hp (by rw [hf, List.flatten_cons])
    have h2 := ih (n + c.length) (afterPrim s (.write c)) (by simpa [afterPrim] using hd) (by rw [e]; exact h1) (by
      rw [← List.drop_drop, hf, List.flatten_cons, List.drop_left])
    rw [List.flatten_cons, List.length_append, ← Nat.add_assoc]
    exact h2

/-- The panel after RAMWR and a whole stream. -/
theorem ramwr_streamed (xs ys w h : Nat) (src : List Word) (s : State) (hw : 1 ≤ w)
    (hx : xs + w - 1 < 65536) (hl : src.length = w * h) (hs : 1 ≤ src.length) (hm : 1 ≤ s.cfg.maxXfer)
    (hc : s.panel.colRange = some (xs, xs + w - 1)) (hr : s.panel.rowRange = some (ys, ys + h - 1)) :
    Streamed xs ys w h src s.panel (2 * src.length) ((commandPrims s.cfg 0x2C (be16Stream src)).foldl afterPrim s).panel := by
  unfold commandPrims
  rw [List.foldl_append, if_neg (be16Stream_ne_nil _ hs)]
  have hst := foldl_afterPrim_steady [Prim.set .dc s.cfg.dcCmdLevel, .write [0x2C]] s
  have hp := command_head s s.cfg rfl 0x2C
  generalize [Prim.set Line.dc s.cfg.dcCmdLevel, Prim.write [0x2C]].foldl afterPrim s = u at *
  rw [List.foldl_cons, ← hst.cfg]
  have hup : (afterPrim u (.set .dc (dcDataLevel u.cfg))).panel = u.panel := rfl
  have h0 : Streamed xs ys w h src s.panel 0 u.panel := by
    rw [hp]
    refine ⟨hc, hr, rfl, rfl, ?_, ?_⟩
    · simp [panelCommand, openPtr, hc, hr]
    · intro c r _; rw [if_neg (by omega)]; rfl
  have := streamed_writes xs ys w h src s.panel hw hx hl (chunks u.cfg.maxXfer (be16Stream src)) 0
    (afterPrim u (.set .dc (dcDataLevel u.cfg))) rfl (by rw [hup]; exact h0) (by
      rw [chunks_flatten _ (by rw [hst.cfg]; exact hm)]; rfl)
  rw [chunks_flatten _ (by rw [hst.cfg]; exact hm), be16Stream_length, Nat.zero_add] at this
  exact this
end Sys2Proof.Machine
end

