-- ==== Sys2Proof/Laws/WireRows.lean ====
section
/-! SUPPORT. The wire commands as lists of primitives (spec/42_framer.md R96 to R106), and what the
primitives of commands leave alone. -/

namespace Sys2Proof.Machine

open Sys2Proof.Safety Sys2Proof.Claims

/-- The note of the rotation that MADCTL leaves. -/
def rotatePrims (i : Instr) : List Prim :=
  match i with
  | .madctl r => [.rotate r]
  | _ => []

theorem waitPrims_zero : waitPrims 0 = [] := rfl

/-- R96 to R106: what a wire command puts on the wire, as a list of primitives. -/
theorem wire_prims (i : Instr) (op : Byte) (pl : List Byte) (ms : Nat) (s : State)
    (h : wireCommand s.cfg i = some (op, pl, ms)) :
    exec i s = if s.due = some i then
        endRow (runPrims (commandPrims s.cfg op pl ++ waitPrims ms ++ rotatePrims i) { s with due := none })
      else .next (takeError false (.invalidState s.drvState (.wire op)) s) := by
  have key : ∀ f : State → Ctl, exec i s = endRow (sendDue i op f s) →
      f { s with due := none } = runPrims (commandPrims s.cfg op pl ++ waitPrims ms ++ rotatePrims i) { s with due := none } →
      exec i s = if s.due = some i then
          endRow (runPrims (commandPrims s.cfg op pl ++ waitPrims ms ++ rotatePrims i) { s with due := none })
        else .next (takeError false (.invalidState s.drvState (.wire op)) s) := by
    intro f hf hp
    rw [hf, ← hp, sendDue]
    split <;> rfl
  cases i <;> cases h <;> simp only [rotatePrims, List.append_nil, waitPrims_zero] at key ⊢
  · exact key sendSwreset rfl (by rw [sendSwreset, command_delay_prims _ _ (fun c => c.tSwresetMs)])
  · exact key sendSlpout rfl (by rw [sendSlpout, command_delay_prims _ _ (fun c => c.tSlpoutMs)])
  · exact key sendColmod rfl (by rw [sendColmod, command_prims])
  · exact key (sendCaset _ _) rfl (by rw [sendCaset, command_prims])
  · exact key (sendRaset _ _) rfl (by rw [sendRaset, command_prims])
  · exact key (sendMadctl _) rfl (by rw [sendMadctl_prims]; rfl)
  · exact key (sendRamwr _) rfl (by rw [sendRamwr, command_prims])
  · exact key sendInvon rfl (by rw [sendInvon, command_prims])
  · exact key sendInvoff rfl (by rw [sendInvoff, command_prims])
  · exact key sendDispon rfl (by rw [sendDispon, command_delay_prims _ _ (fun c => c.tDisponMs)])
  · exact key (sendPanelCmd _ _ _) rfl (by rw [sendPanelCmd, command_delay_prims _ _ (fun _ => _)])

/-- An operation whose list the environment answers well succeeds. -/
theorem finish_good (b : Bool) (ps : List Prim) {s : State} (h : AnswersGood (drawsOf ps) s) (v : State → Value) :
    finish b v (runPrims ps s) = .next (succeed (v (ps.foldl afterPrim s)) (ps.foldl afterPrim s)) := by
  rw [runPrims_good ps h]; rfl

theorem rotatePrims_level (i : Instr) (L : Line) (l : Option Bit) : (rotatePrims i).foldl (levelStep L) l = l := by
  unfold rotatePrims; split <;> rfl
theorem rotatePrims_rotation (i : Instr) (r : Option (BitVec 2)) : (rotatePrims i).foldl rotationStep r = rotationAfter i r := by
  cases i <;> rfl
theorem rotatePrims_draws (i : Instr) : drawsOf (rotatePrims i) = 0 := by
  unfold rotatePrims; split <;> rfl
theorem rotatePrims_entries (i : Instr) (s : State) : entriesOf s (rotatePrims i) = [] := by
  unfold rotatePrims; split <;> rfl

/-- What the primitives of commands leave alone, whatever the environment answers. -/
theorem framing_ends (ps : List Prim) (hf : ∀ p ∈ ps, isFraming p = true) :
    ∀ s : State, (runPrims ps s).Ends
      (fun t => t.curRotation = s.curRotation ∧ t.rstLevel = s.rstLevel ∧ t.blLevel = s.blLevel)
      (fun _ t => t.curRotation = s.curRotation ∧ t.rstLevel = s.rstLevel ∧ t.blLevel = s.blLevel) := by
  induction ps with
  | nil => exact fun s => ⟨rfl, rfl, rfl⟩
  | cons p ps ih =>
    intro s
    rw [runPrims_cons]
    have h1 : (runPrim p s).Ends
        (fun t => t.curRotation = s.curRotation ∧ t.rstLevel = s.rstLevel ∧ t.blLevel = s.blLevel)
        (fun _ t => t.curRotation = s.curRotation ∧ t.rstLevel = s.rstLevel ∧ t.blLevel = s.blLevel) := by
      have hp := hf p List.mem_cons_self
      cases p with
      | set L l =>
        cases L with
        | dc => simp only [runPrim, setLine]; split <;> exact ⟨rfl, rfl, rfl⟩
        | rst => cases hp
        | bl => cases hp
      | write b =>
        simp only [runPrim, tx]
        split
        · split <;> exact ⟨rfl, rfl, rfl⟩
        · exact ⟨rfl, rfl, rfl⟩
      | wait ms => cases hp
      | rotate r => cases hp
    refine h1.bind ?_ (fun _ _ k => k)
    rintro t ⟨a, b, c⟩
    exact (ih (fun q hq => hf q (List.mem_cons_of_mem _ hq)) t).mono (fun u k => ⟨k.1.trans a, k.2.1.trans b, k.2.2.trans c⟩)
      (fun _ u k => ⟨k.1.trans a, k.2.1.trans b, k.2.2.trans c⟩)

end Sys2Proof.Machine
end

