-- ==== Sys2Proof/Laws/Sequencer.lean ====
section
/-! SUPPORT. INIT in the words of the statements (spec/43_sequencer.md R116): its opens one by one, and steps 2 to 9 as one list
of primitives. -/

namespace Sys2Proof.Machine

open Sys2Proof.Safety Sys2Proof.Claims

/-- One open of INIT. -/
def openRes (r : Resource) (s : State) : Ctl :=
  match r with
  | .spi => openSpi s
  | .gpio L => openLine L s

/-- The state after the first `k` opens, answered with handles. -/
def opened (s : State) (k : Nat) : State :=
  { withHandles s k with
    events := s.events ++ openEntries s k
    answers := s.answers.drop k
    free := s.free + k }

/-- Before any open. -/
theorem opened_zero (s : State) : opened s 0 = s := by
  unfold opened withHandles openEntries
  simp

/-- One more open. -/
theorem openEntries_succ (s : State) (k : Nat) (r : Resource) (h : (openOrder s.cfg)[k]? = some r) :
    openEntries s (k + 1) = openEntries s k ++ [⟨openEvent s.cfg r, .handle (goodValue s k)⟩] := by
  unfold openEntries
  obtain ⟨hlt, -⟩ := List.getElem?_eq_some_iff.mp h
  have hl : ((openOrder s.cfg).take k).length = k := by rw [List.length_take]; omega
  rw [List.take_add_one, h]
  simp [List.zipIdx_append, hl]

/-- Which resource is opened when. -/
theorem openOrder_cases (c : Cfg) (k : Nat) (r : Resource) (h : (openOrder c)[k]? = some r) :
    (k = 0 ∧ r = .spi) ∨ (k = 1 ∧ r = .gpio .dc) ∨ (k = 2 ∧ r = .gpio .rst) ∨ (k = 3 ∧ r = .gpio .bl ∧ hasBl c = true) := by
  unfold openOrder at h
  match k with
  | 0 => simp at h; exact .inl ⟨rfl, h.symm⟩
  | 1 => simp at h; exact .inr (.inl ⟨rfl, h.symm⟩)
  | 2 => simp at h; exact .inr (.inr (.inl ⟨rfl, h.symm⟩))
  | k + 3 =>
    cases hb : hasBl c with
    | false => simp [hb] at h
    | true =>
      cases k with
      | zero => simp [hb] at h; exact .inr (.inr (.inr ⟨rfl, h.symm, rfl⟩))
      | succ k => simp [hb] at h

theorem opened_answer (s : State) (k : Nat) (a : Answer) (h : s.answers[k]? = some a) : nextAnswer (opened s k) = a := by
  apply nextAnswer_of_get
  show (s.answers.drop k)[0]? = some a
  rw [List.getElem?_drop]; simpa using h

/-- R116, step 1: an open that is answered with a handle. -/
theorem open_good (s : State) (k : Nat) (r : Resource) (v : Nat) (h : (openOrder s.cfg)[k]? = some r)
    (ha : s.answers[k]? = some (.good v)) : openRes r (opened s k) = .go (opened s (k + 1)) := by
  have hn := opened_answer s k _ ha
  have hv : goodValue s k = v := by unfold goodValue; rw [ha]
  have he := openEntries_succ s k r h
  have hd : (s.answers.drop k).tail = s.answers.drop (k + 1) := by rw [List.tail_drop]
  rcases openOrder_cases _ _ _ h with ⟨rfl, rfl⟩ | ⟨rfl, rfl⟩ | ⟨rfl, rfl⟩ | ⟨rfl, rfl, -⟩
  all_goals
    simp only [openRes, openSpi, openLine, hn, openedHandle]
    simp only [opened, he, ← hd, setHandle, logged, drawn, withHandles, ← List.append_assoc]
    simp [openEvent, hv]

/-- R116, step 1: an open that is answered with `Err`. -/
theorem open_bad (s : State) (k : Nat) (r : Resource) (a : Answer) (h : (openOrder s.cfg)[k]? = some r)
    (ha : s.answers[k]? = some a) (hb : ∀ v, a ≠ .good v) :
    openRes r (opened s k) = .raise (.configuration r) { withHandles s k with
      events := s.events ++ (openEntries s k ++ [⟨openEvent s.cfg r, .err⟩])
      answers := s.answers.drop (k + 1)
      free := s.free + k + 1 } := by
  have hn := opened_answer s k _ ha
  have hd : (s.answers.drop k).tail = s.answers.drop (k + 1) := by rw [List.tail_drop]
  have hop : openedHandle a = none := by
    cases a with
    | good v => exact absurd rfl (hb v)
    | short n => rfl
    | bad => rfl
  rcases openOrder_cases _ _ _ h with ⟨rfl, rfl⟩ | ⟨rfl, rfl⟩ | ⟨rfl, rfl⟩ | ⟨rfl, rfl, -⟩
  all_goals
    simp only [openRes, openSpi, openLine, hn, hop]
    simp only [opened, ← hd, logged, drawn, withHandles, ← List.append_assoc]
    rfl

theorem acquire_eq (s : State) : acquire s =
    (((openRes .spi s).bind (openRes (.gpio .dc))).bind (openRes (.gpio .rst))).bind fun t =>
      if hasBl t.cfg then openRes (.gpio .bl) t else .go t := rfl

theorem good_get {n i : Nat} {s : State} (h : AnswersGood n s) (hi : i < n) :
    s.answers[i]? = some (.good (goodValue s i)) := by
  obtain ⟨hl, hg⟩ := h
  have hlt : i < s.answers.length := by omega
  have he : s.answers[i]? = some s.answers[i] := List.getElem?_eq_getElem hlt
  obtain ⟨v, hv⟩ := hg s.answers[i] (List.mem_take_iff_getElem.mpr ⟨i, by omega, rfl⟩)
  have : goodValue s i = v := by unfold goodValue; rw [he, hv]
  rw [he, hv, this]

theorem order3 (c : Cfg) : (openOrder c)[0]? = some .spi ∧ (openOrder c)[1]? = some (.gpio .dc) ∧
    (openOrder c)[2]? = some (.gpio .rst) := by
  unfold openOrder; simp

/-- R116, step 1, answered well. -/
theorem acquire_good (s : State) (h : AnswersGood (openOrder s.cfg).length s) :
    acquire s = .go (opened s (openOrder s.cfg).length) := by
  obtain ⟨o1, o2, o3⟩ := order3 s.cfg
  have hc : (opened s 3).cfg = s.cfg := rfl
  have h3 : 3 ≤ (openOrder s.cfg).length := by simp [openOrder]
  rw [acquire_eq]
  conv_lhs => rw [← opened_zero s]
  rw [open_good s 0 _ _ o1 (good_get h (by omega)), Ctl.bind_go, open_good s 1 _ _ o2 (good_get h (by omega)), Ctl.bind_go,
    open_good s 2 _ _ o3 (good_get h (by omega)), Ctl.bind_go]
  cases hb : hasBl s.cfg with
  | false =>
    rw [hc, hb]
    simp [openOrder, hb]
  | true =>
    have h4 : (openOrder s.cfg).length = 4 := by simp [openOrder, hb]
    rw [hc, hb, if_pos rfl, open_good s 3 _ _ (by simp [openOrder, hb]) (good_get h (by omega)), h4]

/-- R116, step 1, where open number `k` fails. -/
theorem acquire_bad (s : State) (k : Nat) (r : Resource) (a : Answer) (h : (openOrder s.cfg)[k]? = some r)
    (hg : AnswersGood k s) (ha : s.answers[k]? = some a) (hb : ∀ v, a ≠ .good v) :
    acquire s = .raise (.configuration r) { withHandles s k with
      events := s.events ++ (openEntries s k ++ [⟨openEvent s.cfg r, .err⟩])
      answers := s.answers.drop (k + 1)
      free := s.free + k + 1 } := by
  obtain ⟨o1, o2, o3⟩ := order3 s.cfg
  have hc : (opened s 3).cfg = s.cfg := rfl
  have key := open_bad s k r a h ha hb
  rw [acquire_eq]
  conv_lhs => rw [← opened_zero s]
  rcases openOrder_cases _ _ _ h with ⟨rfl, rfl⟩ | ⟨rfl, rfl⟩ | ⟨rfl, rfl⟩ | ⟨rfl, rfl, hbl⟩
  · rw [key]; rfl
  · rw [open_good s 0 _ _ o1 (good_get hg (by omega)), Ctl.bind_go, key]; rfl
  · rw [open_good s 0 _ _ o1 (good_get hg (by omega)), Ctl.bind_go, open_good s 1 _ _ o2 (good_get hg (by omega)), Ctl.bind_go, key]; rfl
  · rw [open_good s 0 _ _ o1 (good_get hg (by omega)), Ctl.bind_go, open_good s 1 _ _ o2 (good_get hg (by omega)), Ctl.bind_go,
      open_good s 2 _ _ o3 (good_get hg (by omega)), Ctl.bind_go, hc, if_pos hbl, key]

/-- Step 2. -/
def pulsePrims : List Prim := [.set .rst 1, .wait 10, .set .rst 0, .wait 20, .set .rst 1, .wait 120]

/-- Step 6. -/
def tablePrims (c : Cfg) (es : List PanelEntry) : List Prim :=
  es.flatMap fun e => commandPrims c e.op e.payload ++ waitPrims e.delayMs

/-- Steps 2 to 9 as one list. -/
def bringUpPrims (c : Cfg) : List Prim :=
  pulsePrims ++ (commandPrims c 0x01 [] ++ waitPrims c.tSwresetMs) ++ (commandPrims c 0x11 [] ++ waitPrims c.tSlpoutMs) ++
    commandPrims c 0x3A [c.colmodValue] ++ tablePrims c c.panelInitTable ++
    commandPrims c (if c.invert then 0x21 else 0x20) [] ++
    (commandPrims c 0x36 [madctlByte c c.rotation] ++ [.rotate c.rotation]) ++
    (commandPrims c 0x29 [] ++ waitPrims c.tDisponMs)

/-- Lists of primitives one after the other. -/
theorem bind_prims {x : Ctl} {f : State → Ctl} {ps qs : List Prim} {s : State} (hx : x = runPrims ps s)
    (hf : ∀ t, t.cfg = s.cfg → f t = runPrims qs t) : x.bind f = runPrims (ps ++ qs) s := by
  subst hx
  rw [runPrims_append]
  exact Ctl.bind_congr (runPrims_steady ps s) fun t st => hf t st.cfg

theorem pulse_prims (l : Bit) (ms : Nat) (s : State) : pulse l ms s = runPrims [.set .rst l, .wait ms] s := by
  unfold pulse
  simp only [runPrims_cons, runPrim]
  congr 1

theorem resetPulse_prims (s : State) : resetPulse s = runPrims pulsePrims s := by
  have h : (pulse 1 tRstHigh1Ms s).bind (pulse 0 tRstLowMs) =
      runPrims ([.set .rst 1, .wait 10] ++ [.set .rst 0, .wait 20]) s :=
    bind_prims (pulse_prims 1 10 s) fun t _ => pulse_prims 0 20 t
  exact bind_prims h (f := pulse 1 tRstHigh2Ms) fun t _ => pulse_prims 1 120 t

theorem sendTable_prims (es : List PanelEntry) : ∀ s : State, sendTable es s = runPrims (tablePrims s.cfg es) s := by
  induction es with
  | nil => exact fun _ => rfl
  | cons e es ih =>
    intro s
    rw [sendTable_cons]
    exact bind_prims (command_delay_prims _ _ (fun _ => e.delayMs) s) fun t ht => by rw [ih t, ht]; rfl

/-- R116, steps 2 to 9. -/
theorem bringUp_prims (s : State) : bringUp s = runPrims (bringUpPrims s.cfg) s := by
  rw [bringUp_eq]
  unfold bringUpPrims
  refine bind_prims (bind_prims (bind_prims (bind_prims (bind_prims (bind_prims (bind_prims (resetPulse_prims s) ?_) ?_) ?_) ?_) ?_) ?_) ?_
  · intro t ht; rw [sendSwreset, command_delay_prims _ _ (fun c => c.tSwresetMs), ht]
  · intro t ht; rw [sendSlpout, command_delay_prims _ _ (fun c => c.tSlpoutMs), ht]
  · intro t ht; rw [sendColmod, command_prims, ht]
  · intro t ht; rw [sendTable_prims, ht]
  · intro t ht
    rw [sendInversion_eq, ht]
    split
    · rw [sendInvon, command_prims, ht]
    · rw [sendInvoff, command_prims, ht]
  · intro t ht; rw [sendMadctl_prims, ht]
  · intro t ht; rw [sendDispon, command_delay_prims _ _ (fun c => c.tDisponMs), ht]

theorem entriesOf_table (s : State) (es : List PanelEntry) : entriesOf s (tablePrims s.cfg es) =
    es.flatMap (fun e => commandEntries s e.op e.payload ++ delayEntries e.delayMs) := by
  induction es with
  | nil => rfl
  | cons e es ih =>
    rw [List.flatMap_cons, ← ih]
    show entriesOf s ((commandPrims s.cfg e.op e.payload ++ waitPrims e.delayMs) ++ tablePrims s.cfg es) = _
    rw [entriesOf_append, entriesOf_append, entriesOf_command, entriesOf_waitPrims]

theorem drawsOf_table (c : Cfg) (hm : 1 ≤ c.maxXfer) (es : List PanelEntry) : drawsOf (tablePrims c es) =
    (es.map fun e => commandDraws c e.payload.length).sum := by
  induction es with
  | nil => rfl
  | cons e es ih =>
    show drawsOf ((commandPrims c e.op e.payload ++ waitPrims e.delayMs) ++ tablePrims c es) = _
    rw [drawsOf_append, drawsOf_append, drawsOf_command c hm, drawsOf_waitPrims, ih]
    simp

theorem bringUp_entries (s : State) : entriesOf s (bringUpPrims s.cfg) = bringUpEntries s := by
  unfold bringUpPrims bringUpEntries beforeDispon
  simp only [entriesOf_append, entriesOf_command, entriesOf_waitPrims, entriesOf_table, entriesOf_rotate, entriesOf_nil,
    List.append_assoc]
  rfl

theorem bringUp_draws (c : Cfg) (hm : 1 ≤ c.maxXfer) : drawsOf (bringUpPrims c) = bringUpDraws c := by
  unfold bringUpPrims bringUpDraws
  simp only [drawsOf_append, drawsOf_command c hm, drawsOf_waitPrims, drawsOf_table c hm, Nat.add_zero]
  rfl

theorem tablePrims_line (L : Line) (hL : L ≠ .dc) (c : Cfg) (es : List PanelEntry) :
    ∀ l, (tablePrims c es).foldl (levelStep L) l = l := by
  induction es with
  | nil => exact fun _ => rfl
  | cons e es ih =>
    intro l
    show ((commandPrims c e.op e.payload ++ waitPrims e.delayMs) ++ tablePrims c es).foldl (levelStep L) l = l
    rw [List.foldl_append, List.foldl_append, commandPrims_line L hL, waitPrims_level, ih]

theorem bringUp_dc (c : Cfg) (l : Option Bit) : (bringUpPrims c).foldl (levelStep .dc) l = some c.dcCmdLevel := by
  unfold bringUpPrims
  simp only [List.foldl_append, commandPrims_dc, waitPrims_level]
  rfl

theorem bringUp_rst (c : Cfg) (l : Option Bit) : (bringUpPrims c).foldl (levelStep .rst) l = some 1 := by
  unfold bringUpPrims
  simp only [List.foldl_append, commandPrims_line .rst (by decide), waitPrims_level, tablePrims_line .rst (by decide)]
  rfl

theorem bringUp_bl (c : Cfg) (l : Option Bit) : (bringUpPrims c).foldl (levelStep .bl) l = l := by
  unfold bringUpPrims
  simp only [List.foldl_append, commandPrims_line .bl (by decide), waitPrims_level, tablePrims_line .bl (by decide)]
  rfl

theorem bringUp_rotation (c : Cfg) (r : Option (BitVec 2)) : (bringUpPrims c).foldl rotationStep r = some c.rotation := by
  unfold bringUpPrims
  simp only [List.foldl_append, commandPrims_rotation, waitPrims_rotation]
  rfl

/-- The whole state after steps 2 to 9. -/
theorem bringUp_state (s : State) (hm : 1 ≤ s.cfg.maxXfer) :
    (bringUpPrims s.cfg).foldl afterPrim s = { s with
      curRotation := some s.cfg.rotation
      dcLevel := some s.cfg.dcCmdLevel
      rstLevel := some 1
      panel := ((bringUpPrims s.cfg).foldl afterPrim s).panel
      events := s.events ++ bringUpEntries s
      answers := s.answers.drop (bringUpDraws s.cfg)
      free := s.free + (bringUpEntries s).length } := by
  conv_lhs => rw [foldl_afterPrim_eq]
  rw [bringUp_dc, bringUp_rst, bringUp_bl, bringUp_rotation, bringUp_entries, bringUp_draws _ hm]

theorem openEntries_length (s : State) (k : Nat) (h : k ≤ (openOrder s.cfg).length) : (openEntries s k).length = k := by
  unfold openEntries
  simp; omega

/-- R116, steps 1 to 9, answered well. -/
theorem init_prefix_good (s : State) (hm : 1 ≤ s.cfg.maxXfer) (ha : AnswersGood ((openOrder s.cfg).length + bringUpDraws s.cfg) s) :
    ∃ p, (acquire s).bind bringUp = .go
      { withHandles s (openOrder s.cfg).length with
        curRotation := some s.cfg.rotation
        dcLevel := some s.cfg.dcCmdLevel
        rstLevel := some 1
        panel := p
        events := s.events ++ (openEntries s (openOrder s.cfg).length ++ bringUpEntries (withHandles s (openOrder s.cfg).length))
        answers := s.answers.drop ((openOrder s.cfg).length + bringUpDraws s.cfg)
        free := s.free + (openOrder s.cfg).length + (bringUpEntries (withHandles s (openOrder s.cfg).length)).length } := by
  rw [acquire_good s (answersGood_weaken ha (Nat.le_add_right _ _)), Ctl.bind_go, bringUp_prims,
    runPrims_good _ (by
      show AnswersGood (drawsOf (bringUpPrims s.cfg)) _
      rw [bringUp_draws _ hm]
      exact answersGood_after ha rfl)]
  refine ⟨((bringUpPrims s.cfg).foldl afterPrim (opened s (openOrder s.cfg).length)).panel, ?_⟩
  congr 1
  have hb := bringUp_state (opened s (openOrder s.cfg).length) hm
  rw [show (opened s (openOrder s.cfg).length).cfg = s.cfg from rfl] at hb
  rw [show (opened s (openOrder s.cfg).length).cfg = s.cfg from rfl]
  generalize hp : ((bringUpPrims s.cfg).foldl afterPrim (opened s (openOrder s.cfg).length)).panel = p at *
  rw [hb]
  have e : bringUpEntries (opened s (openOrder s.cfg).length) = bringUpEntries (withHandles s (openOrder s.cfg).length) := rfl
  rw [e]
  simp only [opened, List.append_assoc, List.drop_drop]
  rfl
end Sys2Proof.Machine
end

