-- ==== Sys2Proof/Laws/Flush.lean ====
section
/-! SUPPORT. FLUSH's loop (spec/41_dirty_tiles.md R85, R88, R89): what it has done where it goes through and where it stops,
and the sums over the tiles of a grid. -/

namespace Sys2Proof.Machine

open Sys2Proof.Safety Sys2Proof.Claims

/-- The dirty ones of a list of tiles. -/
def dirtyOf (s : State) (ns : List Nat) : List Nat := ns.filter (flagAt s.dirty)

/-- How many answers the rectangles of a list of tiles draw. -/
def drawsOfTiles (c : Cfg) (ds : List Nat) : Nat := (ds.map fun n => rectDraws c (tilePixels c n)).sum

/-- How many bytes the pixels of a list of tiles are. -/
def bytesOfTiles (c : Cfg) (ds : List Nat) : Nat := (ds.map fun n => tilePixels c n * 2).sum

/-- The state after FLUSH's loop over `ns` has gone through. -/
def Flushed (ns : List Nat) (s t : State) : Prop :=
  (t.dirty.length = s.dirty.length ∧ ∀ m, flagAt t.dirty m = if m ∈ ns then false else flagAt s.dirty m) ∧
  t = { s with
    dirty := t.dirty
    lastFlushTiles := s.lastFlushTiles + BitVec.ofNat 32 (dirtyOf s ns).length
    lastFlushBytes := s.lastFlushBytes + BitVec.ofNat 64 (bytesOfTiles s.cfg (dirtyOf s ns))
    dcLevel := if dirtyOf s ns = [] then s.dcLevel else some (dcDataLevel s.cfg)
    panel := t.panel
    events := s.events ++ (dirtyOf s ns).flatMap (tileEntries s)
    answers := s.answers.drop (drawsOfTiles s.cfg (dirtyOf s ns))
    free := s.free + ((dirtyOf s ns).flatMap (tileEntries s)).length }

theorem Flushed.nil (s : State) : Flushed [] s s := by
  refine ⟨⟨rfl, fun m => by simp⟩, ?_⟩
  simp [dirtyOf, bytesOfTiles, drawsOfTiles]

theorem flagAt_clear (fs : List Bool) (n m : Nat) : flagAt (clearFlag fs n) m = if m = n then false else flagAt fs m := by
  unfold flagAt clearFlag
  simp only [List.getD_eq_getElem?_getD, List.getElem?_set]
  by_cases h : m = n
  · subst h
    rw [if_pos rfl, if_pos rfl]
    split <;> rfl
  · rw [if_neg (fun k => h k.symm), if_neg h]

theorem tileEntries_congr {s t : State} (h1 : t.cfg = s.cfg) (h2 : t.hSpi = s.hSpi) (h3 : t.hDc = s.hDc) (h4 : t.fb = s.fb) (n : Nat) :
    tileEntries t n = tileEntries s n := by
  have hw : writeEntry t = writeEntry s := by funext b; simp [writeEntry, h2]
  have hr : memRead t = memRead s := by funext a; simp [memRead, h4]
  have hx : ∀ r, extractRect r t = extractRect r s := fun r => by unfold extractRect; rw [h1, hr]
  simp only [tileEntries, rectEntries, commandEntries, dataEntries, setEntry, lineHandle, h1, h3, hw, hx]

theorem extractRect_length (r : Rect) (s : State) : (extractRect r s).length = r.w * r.h := by
  unfold extractRect rectIndices
  rw [List.length_map, grid_length]

/-- R86: a tile of the grid is not empty. -/
theorem tile_pos {c : Cfg} (hwf : c.wf = true) {n : Nat} (h : n < tileCount c) :
    (tileRectAt c n).w ≠ 0 ∧ (tileRectAt c n).h ≠ 0 := by
  have f := wfFacts hwf
  unfold tileCount at h
  have hX : 0 < tilesX c := Nat.pos_of_ne_zero fun k => by rw [k] at h; simp at h
  have hx : n % tilesX c < tilesX c := Nat.mod_lt _ hX
  have hy : n / tilesX c < tilesY c := Nat.div_lt_of_lt_mul (by rwa [Nat.mul_comm])
  have h1 := (lt_ceilDiv f.tileW).mp hx
  have h2 := (lt_ceilDiv f.tileH).mp hy
  have := f.tileW; have := f.tileH
  unfold tileRectAt tileRect
  simp only
  omega

/-- One dirty tile after its transmission. -/
theorem serviced_flushed {s : State} {n : Nat} (hm : 1 ≤ s.cfg.maxXfer)
    (hd : flagAt s.dirty n = true) (hp : (tileRectAt s.cfg n).w ≠ 0 ∧ (tileRectAt s.cfg n).h ≠ 0) :
    Flushed [n] s (tileServiced n (tileRectAt s.cfg n)
      ((rectPrims s.cfg (tileRectAt s.cfg n).x (tileRectAt s.cfg n).y (tileRectAt s.cfg n).w (tileRectAt s.cfg n).h
        (extractRect (tileRectAt s.cfg n) s)).foldl afterPrim s)) := by
  have hlen := extractRect_length (tileRectAt s.cfg n) s
  have hpos : 1 ≤ (extractRect (tileRectAt s.cfg n) s).length := by
    rw [hlen]; exact Nat.mul_pos (Nat.pos_of_ne_zero hp.1) (Nat.pos_of_ne_zero hp.2)
  have st := rectPrims_state s (tileRectAt s.cfg n).x (tileRectAt s.cfg n).y (tileRectAt s.cfg n).w (tileRectAt s.cfg n).h
    (extractRect (tileRectAt s.cfg n) s) hm hpos
  have hdn : dirtyOf s [n] = [n] := by simp [dirtyOf, hd]
  rw [hlen] at st
  generalize (rectPrims s.cfg (tileRectAt s.cfg n).x (tileRectAt s.cfg n).y (tileRectAt s.cfg n).w (tileRectAt s.cfg n).h
        (extractRect (tileRectAt s.cfg n) s)).foldl afterPrim s = u at st
  have hu : u.dirty = s.dirty := by rw [st]
  refine ⟨⟨?_, ?_⟩, ?_⟩
  · simp [tileServiced, clearFlag, hu]
  · intro m
    show flagAt (clearFlag u.dirty n) m = _
    rw [hu, flagAt_clear]; simp
  · rw [hdn]
    unfold tileServiced
    simp only [hu]
    rw [st]
    simp [bytesOfTiles, drawsOfTiles, tilePixels, tileEntries]

theorem dirtyOf_after {n : Nat} {ns : List Nat} {s t : State} (hn : n ∉ ns)
    (h : ∀ m, flagAt t.dirty m = if m ∈ [n] then false else flagAt s.dirty m) : dirtyOf t ns = dirtyOf s ns := by
  unfold dirtyOf
  refine List.filter_congr fun m hm => ?_
  rw [h m, if_neg]
  simp only [List.mem_singleton]
  rintro rfl; exact hn hm

theorem Flushed.cons {n : Nat} {ns : List Nat} {s t u : State} (hn : n ∉ ns) (a : Flushed [n] s t) (b : Flushed ns t u) :
    Flushed (n :: ns) s u := by
  obtain ⟨⟨a1, a2⟩, a3⟩ := a
  obtain ⟨⟨b1, b2⟩, b3⟩ := b
  have hd : dirtyOf s (n :: ns) = dirtyOf s [n] ++ dirtyOf s ns := by
    unfold dirtyOf; rw [← List.filter_append]; rfl
  have c1 : t.cfg = s.cfg := by rw [a3]
  have c2 : t.hSpi = s.hSpi := by rw [a3]
  have c3 : t.hDc = s.hDc := by rw [a3]
  have c4 : t.fb = s.fb := by rw [a3]
  have ht : tileEntries t = tileEntries s := funext fun n => tileEntries_congr c1 c2 c3 c4 n
  rw [dirtyOf_after hn a2] at b3
  refine ⟨⟨b1.trans a1, fun m => ?_⟩, ?_⟩
  · rw [b2 m, a2 m]
    by_cases h1 : m ∈ ns
    · simp [h1]
    · by_cases h2 : m = n
      · simp [h2]
      · simp [h1, h2]
  · rw [hd]
    conv_lhs => rw [b3]
    rw [c1, ht]
    conv_lhs => rw [a3]
    simp only [List.flatMap_append, List.length_append, bytesOfTiles, drawsOfTiles, List.map_append, List.sum_append,
      List.append_assoc, List.drop_drop, BitVec.ofNat_add, BitVec.add_assoc, Nat.add_assoc, List.append_eq_nil_iff]
    congr 1
    by_cases h2 : dirtyOf s ns = []
    · simp [h2]
    · simp [h2]

theorem flushed_clean {n : Nat} {s : State} (h : ¬ flagAt s.dirty n = true) : Flushed [n] s s := by
  refine ⟨⟨rfl, fun m => ?_⟩, ?_⟩
  · by_cases hm : m = n
    · subst hm; simpa using h
    · simp [hm]
  · simp [dirtyOf, h, bytesOfTiles, drawsOfTiles]

/-- R85: what FLUSH's loop has done where it goes through. -/
theorem flushTiles_go (ns : List Nat) :
    ∀ s t : State, s.cfg.wf = true → ns.Nodup → (∀ n ∈ ns, n < tileCount s.cfg) → flushTiles ns s = .go t →
      Flushed ns s t := by
  induction ns with
  | nil =>
    intro s t _ _ _ h
    obtain rfl := Ctl.go.inj h
    exact .nil s
  | cons n ns ih =>
    intro s t hwf hnd hlt h
    have f := wfFacts hwf
    obtain ⟨hn, hnd⟩ := List.nodup_cons.mp hnd
    have key : ∀ u, flushTile n s = .go u → Flushed [n] s u := by
      intro u hu
      unfold flushTile at hu
      split at hu
      · rename_i hd
        have hp := tile_pos hwf (hlt n List.mem_cons_self)
        dsimp only at hu
        cases hb : pushRectBody (.host 0x8) (tileRectAt s.cfg n).x (tileRectAt s.cfg n).y (tileRectAt s.cfg n).w
            (tileRectAt s.cfg n).h (extractRect (tileRectAt s.cfg n) s) s with
        | raise e v => rw [hb] at hu; cases hu
        | go v =>
          rw [hb] at hu
          obtain rfl := Ctl.go.inj hu
          obtain ⟨rfl, -, -⟩ := body_go _ _ _ _ _ _ _ _ hp.1 hp.2 hb
          exact serviced_flushed f.xfer hd hp
      · rename_i hd
        obtain rfl := Ctl.go.inj hu
        exact flushed_clean hd
    unfold flushTiles at h
    cases hb : flushTile n s with
    | raise e v => rw [hb] at h; cases h
    | go u =>
      rw [hb] at h
      have k := key u hb
      have c : u.cfg = s.cfg := by rw [k.2]
      exact k.cons hn (ih u t (by rw [c]; exact hwf) hnd (fun m hm => by rw [c]; exact hlt m (List.mem_cons_of_mem _ hm)) h)

/-- R85: FLUSH's loop goes through where the environment answers well. -/
theorem flushTiles_good (ns : List Nat) :
    ∀ s : State, s.cfg.wf = true → ns.Nodup → (∀ n ∈ ns, n < tileCount s.cfg) →
      (dirtyOf s ns ≠ [] → s.drvState = .ready) → (∀ n ∈ dirtyOf s ns, tileFits s.cfg n) →
      AnswersGood (drawsOfTiles s.cfg (dirtyOf s ns)) s → ∃ t, flushTiles ns s = .go t := by
  induction ns with
  | nil => exact fun s _ _ _ _ _ _ => ⟨s, rfl⟩
  | cons n ns ih =>
    intro s hwf hnd hlt hr hf ha
    have f := wfFacts hwf
    obtain ⟨hn, hnd⟩ := List.nodup_cons.mp hnd
    have key : ∃ u, flushTile n s = .go u ∧ Flushed [n] s u := by
      unfold flushTile
      split
      · rename_i hd
        have hp := tile_pos hwf (hlt n List.mem_cons_self)
        have hdn : dirtyOf s (n :: ns) = n :: dirtyOf s ns := by simp [dirtyOf, hd]
        rw [hdn] at hr hf ha
        dsimp only
        rw [body_good _ _ _ _ _ _ _ (hr (by simp)) hp.1 hp.2 (hf n List.mem_cons_self) f.xfer]
        · exact ⟨_, rfl, serviced_flushed f.xfer hd hp⟩
        · rw [extractRect_length]
          exact answersGood_weaken ha (by simp [drawsOfTiles, tilePixels])
      · exact ⟨s, rfl, flushed_clean ‹_›⟩
    obtain ⟨u, hu, k⟩ := key
    have c : u.cfg = s.cfg := by rw [k.2]
    have cd : u.drvState = s.drvState := by rw [k.2]
    have hd' := dirtyOf_after hn k.1.2
    have hsub : ∀ m ∈ dirtyOf s ns, m ∈ dirtyOf s (n :: ns) := by
      intro m hm; unfold dirtyOf at *; rw [List.mem_filter] at *; exact ⟨List.mem_cons_of_mem _ hm.1, hm.2⟩
    have hsum : drawsOfTiles s.cfg (dirtyOf s (n :: ns)) = drawsOfTiles s.cfg (dirtyOf s [n]) + drawsOfTiles s.cfg (dirtyOf s ns) := by
      rw [show dirtyOf s (n :: ns) = dirtyOf s [n] ++ dirtyOf s ns from by unfold dirtyOf; rw [← List.filter_append]; rfl]
      simp [drawsOfTiles]
    obtain ⟨t, ht⟩ := ih u (by rw [c]; exact hwf) hnd (fun m hm => by rw [c]; exact hlt m (List.mem_cons_of_mem _ hm))
      (by rw [hd', cd]; exact fun h => hr (by
            obtain ⟨m, hm⟩ := List.exists_mem_of_ne_nil _ h
            exact List.ne_nil_of_mem (hsub m hm)))
      (by rw [hd', c]; exact fun m hm => hf m (hsub m hm))
      (by rw [hd', c]; rw [hsum] at ha; exact answersGood_after ha (by rw [k.2]))
    exact ⟨t, by unfold flushTiles; rw [hu]; exact ht⟩

/-- R88: where FLUSH's loop has stopped. -/
theorem flushTiles_raise (ns : List Nat) :
    ∀ (s t : State) (e : OpError), s.cfg.wf = true → ns.Nodup → (∀ n ∈ ns, n < tileCount s.cfg) →
      flushTiles ns s = .raise e t →
      ∃ (front back : List Nat) (k : Nat) (u : State), ns = front ++ k :: back ∧ Flushed front s u ∧
        flagAt s.dirty k = true ∧
        pushRectBody (.host 0x8) (tileRectAt s.cfg k).x (tileRectAt s.cfg k).y (tileRectAt s.cfg k).w
          (tileRectAt s.cfg k).h (extractRect (tileRectAt s.cfg k) s) u = .raise e t := by
  induction ns with
  | nil => intro s t e _ _ _ h; cases h
  | cons n ns ih =>
    intro s t e hwf hnd hlt h
    have hgo : ∀ u, flushTile n s = .go u → flushTiles [n] s = .go u := by
      intro u hu; unfold flushTiles; rw [hu]; rfl
    obtain ⟨hn, hnd'⟩ := List.nodup_cons.mp hnd
    unfold flushTiles at h
    cases hb : flushTile n s with
    | raise e' v =>
      rw [hb] at h
      obtain ⟨rfl, rfl⟩ := Ctl.raise.inj h
      unfold flushTile at hb
      split at hb
      · rename_i hd
        dsimp only at hb
        cases hc : pushRectBody (.host 0x8) (tileRectAt s.cfg n).x (tileRectAt s.cfg n).y (tileRectAt s.cfg n).w
            (tileRectAt s.cfg n).h (extractRect (tileRectAt s.cfg n) s) s with
        | go v' => rw [hc] at hb; cases hb
        | raise e2 v' =>
          rw [hc] at hb
          obtain ⟨rfl, rfl⟩ := Ctl.raise.inj hb
          exact ⟨[], ns, n, s, rfl, .nil s, hd, hc⟩
      · cases hb
    | go u =>
      rw [hb] at h
      have k : Flushed [n] s u := flushTiles_go [n] s u hwf (by simp) (by simpa using hlt n List.mem_cons_self) (hgo u hb)
      have c : u.cfg = s.cfg := by rw [k.2]
      have cf : u.fb = s.fb := by rw [k.2]
      obtain ⟨front, back, j, w, h1, h2, h3, h4⟩ := ih u t e (by rw [c]; exact hwf) hnd'
        (fun m hm => by rw [c]; exact hlt m (List.mem_cons_of_mem _ hm)) h
      have hx : extractRect (tileRectAt s.cfg j) u = extractRect (tileRectAt s.cfg j) s := by
        have hr : memRead u = memRead s := by funext a; simp [memRead, cf]
        unfold extractRect; rw [c, hr]
      rw [c, hx] at h4
      rw [k.1.2 j] at h3
      refine ⟨n :: front, back, j, w, by rw [h1]; rfl, k.cons (fun hm => hn (by rw [h1]; simp [hm])) h2, ?_, h4⟩
      split at h3
      · cases h3
      · exact h3

/-- R25: the tiles of a row of the grid share out its pixels. -/
theorem sum_min (T : Nat) (hT : 1 ≤ T) : ∀ (X W : Nat), W ≤ X * T →
    ((List.range X).map fun i => min T (W - i * T)).sum = W := by
  intro X
  induction X with
  | zero => intro W h; simp at h ⊢; omega
  | succ X ih =>
    intro W h
    rw [List.range_succ, List.map_append, List.sum_append, List.map_cons, List.map_nil, List.sum_cons, List.sum_nil]
    by_cases hw : W ≤ X * T
    · rw [ih W hw]; have : W - X * T = 0 := by omega
      rw [this]; simp
    · have h2 := ih (X * T) (Nat.le_refl _)
      have h3 : ((List.range X).map fun i => min T (W - i * T)) = (List.range X).map fun i => min T (X * T - i * T) := by
        refine List.map_congr_left fun i hi => ?_
        have hi := List.mem_range.mp hi
        have : (i + 1) * T ≤ X * T := Nat.mul_le_mul_right _ hi
        rw [Nat.add_mul, Nat.one_mul] at this
        omega
      rw [h3, h2, Nat.add_mul, Nat.one_mul] at *
      omega

theorem sum_grid (X : Nat) (f g : Nat → Nat) : ∀ Y : Nat,
    ((List.range (Y * X)).map fun n => f (n % X) * g (n / X)).sum =
      ((List.range X).map f).sum * ((List.range Y).map g).sum := by
  intro Y
  induction Y with
  | zero => simp
  | succ Y ih =>
    rw [Nat.add_mul, Nat.one_mul, List.range_add, List.map_append, List.sum_append, ih, List.range_succ, List.map_append,
      List.sum_append, Nat.mul_add, List.map_map]
    congr 1
    have : ((fun n => f (n % X) * g (n / X)) ∘ fun x => Y * X + x) = fun x => f ((Y * X + x) % X) * g ((Y * X + x) / X) := rfl
    rw [this]
    have h2 : (List.range X).map (fun x => f ((Y * X + x) % X) * g ((Y * X + x) / X)) = (List.range X).map fun x => f x * g Y := by
      refine List.map_congr_left fun x hx => ?_
      have hx := List.mem_range.mp hx
      rw [flatIndex_mod hx, flatIndex_div hx]
    rw [h2]
    simp [List.sum_map_mul_right]

/-- R89: the bytes of all tiles are the bytes of the display. -/
theorem bytes_all {c : Cfg} (hwf : c.wf = true) :
    bytesOfTiles c (List.range (tileCount c)) = c.panelW.toNat * c.panelH.toNat * 2 := by
  have f := wfFacts hwf
  have hle : ∀ W T : Nat, 1 ≤ T → W ≤ ceilDiv W T * T := by
    intro W T hT
    have := mt (lt_ceilDiv (a := W) (n := ceilDiv W T) hT).mpr (by omega)
    omega
  unfold bytesOfTiles
  rw [List.sum_map_mul_right]
  congr 1
  have : tilePixels c = fun n => min c.tileW (c.panelW.toNat - (n % tilesX c) * c.tileW) *
      min c.tileH (c.panelH.toNat - (n / tilesX c) * c.tileH) := by
    funext n; rfl
  rw [this]
  unfold tileCount
  rw [sum_grid (tilesX c) (fun i => min c.tileW (c.panelW.toNat - i * c.tileW)) (fun i => min c.tileH (c.panelH.toNat - i * c.tileH)),
    sum_min _ f.tileW (tilesX c) _ (hle _ _ f.tileW), sum_min _ f.tileH (tilesY c) _ (hle _ _ f.tileH)]

theorem bytes_sublist {c : Cfg} {as bs : List Nat} (h : as.Sublist bs) : bytesOfTiles c as ≤ bytesOfTiles c bs := by
  unfold bytesOfTiles
  exact (h.map _).sum_le_sum (by simp)

theorem tileCount_le {c : Cfg} (hwf : c.wf = true) : tileCount c ≤ 65535 * 65535 := by
  have f := wfFacts hwf
  have h : ∀ (W : Word) (T : Nat), 1 ≤ T → 1 ≤ W.toNat → ceilDiv W.toNat T ≤ 65535 := by
    intro W T hT hW
    have hlt := W.isLt
    by_contra hc
    have := (lt_ceilDiv (a := W.toNat) (n := 65535) hT).mp (by omega)
    have : 65535 * 1 ≤ 65535 * T := Nat.mul_le_mul_left _ hT
    omega
  exact Nat.mul_le_mul (h _ _ f.tileH f.panelH) (h _ _ f.tileW f.panelW)

/-- R22: the counters do not wrap. -/
theorem counters_fit {c : Cfg} (hwf : c.wf = true) (ds : List Nat) (h : ds.Sublist (List.range (tileCount c))) :
    (BitVec.ofNat 32 ds.length).toNat = ds.length ∧ (BitVec.ofNat 64 (bytesOfTiles c ds)).toNat = bytesOfTiles c ds := by
  have h1 := h.length_le
  rw [List.length_range] at h1
  have h2 := tileCount_le hwf
  have h3 := bytes_sublist (c := c) h
  rw [bytes_all hwf] at h3
  have h4 : c.panelW.toNat * c.panelH.toNat ≤ 65535 * 65535 :=
    Nat.mul_le_mul (by have := c.panelW.isLt; omega) (by have := c.panelH.isLt; omega)
  refine ⟨?_, ?_⟩
  · rw [BitVec.toNat_ofNat, Nat.mod_eq_of_lt (by omega)]
  · rw [BitVec.toNat_ofNat, Nat.mod_eq_of_lt (by omega)]
end Sys2Proof.Machine
end

