-- ==== Sys2Proof/Laws/Frames.lean ====
section
/-! SUPPORT. What an instruction leaves alone in every state, the ones no run reaches among them: it is a chain of changes, and
a host operation ends in one result. -/

namespace Sys2Proof.Machine
open Sys2Proof.Safety

/-- One change of the block inside an operation, in any state at all. -/
inductive Change (s : State) : State → Prop where
  | event (e : Event) (r : Reply) : Change s (logged e r (drawn s))
  | took (bytes : List Byte) : Change s (panelTakes bytes s)
  | level (L : Line) (l : Option Bit) : Change s (setLevel L l s)
  | handle (L : Line) (h : Option Nat) : Change s (setHandle L h s)
  | spi (h : Option Nat) : Change s { s with hSpi := h }
  | waited (ms : Nat) : Change s (delay ms s)
  | rotated (r : BitVec 2) : Change s { s with curRotation := some r }
  | state (d : DrvState) : Change s { s with drvState := d }
  | marked (flags : List Bool) : Change s { s with dirty := flags }
  | counted : Change s (flushStart s)
  | serviced (n : Nat) (r : Rect) : Change s (tileServiced n r s)

/-- A chain of changes. -/
abbrev Changed : State → State → Prop := Relation.ReflTransGen fun a b => Change a b

/-- A property that every change keeps is kept by a chain of changes. -/
theorem Changed.keeps {P : State → Prop} (h : ∀ s t, Change s t → P s → P t) {s t : State} (a : Changed s t)
    (hp : P s) : P t := by
  induction a with
  | refl => exact hp
  | tail _ a ih => exact h _ _ a ih

/-- A sequence that makes changes only, whatever it ends with. -/
def OnlyChanges (s : State) (x : Ctl) : Prop := x.Ends (Changed s) (fun _ t => Changed s t)

theorem OnlyChanges.bind {s : State} {x : Ctl} {k : State → Ctl} (h : OnlyChanges s x) (hk : ∀ t, OnlyChanges t (k t)) :
    OnlyChanges s (x.bind k) :=
  Ctl.Ends.bind h (fun t m => (hk t).mono (fun _ n => m.trans n) (fun _ _ n => m.trans n)) (fun _ _ b => b)

theorem OnlyChanges.go (s : State) : OnlyChanges s (.go s) := .refl

theorem changes_setLine (L : Line) (l : Bit) (s : State) : OnlyChanges s (setLine L l s) := by
  unfold setLine
  split
  · exact (Relation.ReflTransGen.single (Change.event _ _)).tail (.level L (some l))
  · exact (Relation.ReflTransGen.single (Change.event _ _)).tail (.level L none)

theorem changes_tx (bytes : List Byte) (s : State) : OnlyChanges s (tx bytes s) := by
  unfold tx
  split
  · split
    · exact (Relation.ReflTransGen.single (Change.took bytes)).tail (.event _ _)
    · exact Relation.ReflTransGen.single (Change.event _ _)
  · exact Relation.ReflTransGen.single (Change.event _ _)

theorem changes_prims (ps : List Prim) : ∀ s, OnlyChanges s (runPrims ps s) := by
  induction ps with
  | nil => exact .go
  | cons p ps ih =>
    intro s
    refine OnlyChanges.bind ?_ ih
    cases p with
    | set L l => exact changes_setLine L l s
    | write b => exact changes_tx b s
    | wait ms => exact Relation.ReflTransGen.single (Change.waited ms)
    | rotate r => exact Relation.ReflTransGen.single (Change.rotated r)

theorem changes_body (tag : OpTag) (x y w h : Nat) (src : List Word) (s : State) :
    OnlyChanges s (pushRectBody tag x y w h src s) := by
  rw [pushRectBody_prims]
  split
  · exact .refl
  · split
    · exact .refl
    · split
      · exact changes_prims _ s
      · exact .refl

theorem changes_open (r : Resource) (s : State) : OnlyChanges s (openRes r s) := by
  cases r with
  | spi =>
    unfold openRes openSpi
    dsimp only
    split
    · exact (Relation.ReflTransGen.single (Change.event _ _)).tail (.spi _)
    · exact Relation.ReflTransGen.single (Change.event _ _)
  | gpio L =>
    unfold openRes openLine
    dsimp only
    split
    · exact (Relation.ReflTransGen.single (Change.event _ _)).tail (.handle L _)
    · exact Relation.ReflTransGen.single (Change.event _ _)

theorem changes_init (s : State) : OnlyChanges s (initBody s) := by
  unfold initBody
  rw [acquire_eq]
  refine OnlyChanges.bind (OnlyChanges.bind (OnlyChanges.bind (OnlyChanges.bind (OnlyChanges.bind (changes_open _ _) (changes_open _)) (changes_open _)) ?_) ?_) ?_
  · intro t; split
    · exact changes_open _ t
    · exact .go t
  · intro t; rw [bringUp_prims]; exact changes_prims _ t
  · intro t
    exact (changes_body _ _ _ _ _ _ _).mono (fun _ k => (Relation.ReflTransGen.single (Change.state .ready)).trans k)
      (fun _ _ k => (Relation.ReflTransGen.single (Change.state .ready)).trans k)

theorem changes_flushTile (n : Nat) (s : State) : OnlyChanges s (flushTile n s) := by
  unfold flushTile
  split
  · exact (changes_body _ _ _ _ _ _ s).bind fun t => Relation.ReflTransGen.single (Change.serviced _ _)
  · exact .go s

theorem changes_flushTiles (ns : List Nat) : ∀ s, OnlyChanges s (flushTiles ns s) := by
  induction ns with
  | nil => exact .go
  | cons n ns ih => exact fun s => (changes_flushTile n s).bind ih

theorem closeSpi_bits (s : State) : Changed s (closeSpi s) := by
  unfold closeSpi
  split
  · exact (Relation.ReflTransGen.single (Change.event _ _)).tail (.spi none)
  · exact .refl

theorem releaseLine_bits (L : Line) (s : State) : Changed s (releaseLine L s) := by
  unfold releaseLine
  split
  · exact ((Relation.ReflTransGen.single (Change.event _ _)).tail (.handle L none)).tail (.level L none)
  · exact .refl

/-- The whole of an operation but its end: changes, then one result. -/
theorem finish_bits {s t : State} {b : Bool} {v : State → Value} {x : Ctl} (h : OnlyChanges s x) (ht : finish b v x = .next t) :
    ∃ u, Changed s u ∧ ((∃ w, t = succeed w u) ∨ ∃ e, t = takeError b e u) := by
  cases x with
  | go u => exact ⟨u, h, .inl ⟨_, (Host.Outcome.next.inj ht).symm⟩⟩
  | raise e u => exact ⟨u, h, .inr ⟨_, (Host.Outcome.next.inj ht).symm⟩⟩

theorem whenReady_bits {s t : State} {tag : OpTag} {body : State → Ctl} (h : OnlyChanges s (body s))
    (ht : whenReady tag body s = .next t) :
    ∃ u b, Changed s u ∧ ((∃ w, t = succeed w u) ∨ ∃ e, t = takeError b e u) := by
  unfold whenReady at ht
  split at ht
  · obtain ⟨u, h1, h2⟩ := finish_bits h ht
    exact ⟨u, false, h1, h2⟩
  · exact ⟨s, false, .refl, .inr ⟨_, (Host.Outcome.next.inj ht).symm⟩⟩

/-- A wire command, in every state: it takes up what is due, makes changes, and ends in an error where it raises one; or it
is turned away. -/
theorem wire_bits (i : Instr) {s t : State} {op : Byte} {pl : List Byte} {ms : Nat}
    (hw : Claims.wireCommand s.cfg i = some (op, pl, ms)) (ht : exec i s = .next t) :
    (∃ u, Changed { s with due := none } u ∧ (t = u ∨ ∃ e, t = takeError false e u)) ∨
      (s.due ≠ some i ∧ t = takeError false (.invalidState s.drvState (.wire op)) s) := by
  rw [wire_prims i op pl ms s hw] at ht
  split at ht
  · have hc := changes_prims (commandPrims s.cfg op pl ++ waitPrims ms ++ rotatePrims i) { s with due := none }
    revert ht hc
    cases runPrims (commandPrims s.cfg op pl ++ waitPrims ms ++ rotatePrims i) { s with due := none } with
    | go u => exact fun ht hc => .inl ⟨u, hc, .inl (Host.Outcome.next.inj ht).symm⟩
    | raise e u => exact fun ht hc => .inl ⟨u, hc, .inr ⟨e, (Host.Outcome.next.inj ht).symm⟩⟩
  · exact .inr ⟨‹_›, (Host.Outcome.next.inj ht).symm⟩

/-- Every host operation, in every state: changes, then one result. -/
theorem host_bits (i : Instr) {s t : State} (hw : Claims.wireCommand s.cfg i = none) (ht : exec i s = .next t) :
    ∃ u b, Changed s u ∧ ((∃ w, t = succeed w u) ∨ ∃ e, t = takeError b e u) := by
  cases i with
  | init =>
    rw [exec_init, execInit] at ht
    split at ht
    · obtain ⟨u, h⟩ := finish_bits (changes_init s) ht
      exact ⟨u, true, h⟩
    · exact ⟨s, false, .refl, .inr ⟨_, (Host.Outcome.next.inj ht).symm⟩⟩
  | pushRect x y w h ps =>
    rw [exec_pushRect, execPushRect] at ht
    refine whenReady_bits ?_ ht
    split
    · exact changes_body _ _ _ _ _ _ s
    · exact .refl
  | pushRectSolid x y w h col => exact whenReady_bits (changes_body _ _ _ _ _ _ s) ht
  | setRotation r =>
    rw [exec_setRotation, execSetRotation_eq] at ht
    exact whenReady_bits (by rw [sendMadctl_prims]; exact changes_prims _ s) ht
  | setBacklight on =>
    rw [exec_setBacklight, execSetBacklight] at ht
    refine whenReady_bits ?_ ht
    split
    · exact changes_setLine _ _ s
    · exact .refl
  | dispose =>
    rw [exec_dispose, execDispose] at ht
    split at ht
    · exact ⟨s, false, .refl, .inl ⟨_, (Host.Outcome.next.inj ht).symm⟩⟩
    · refine ⟨{ releaseAll s with drvState := .disposed }, false, ?_, .inl ⟨_, (Host.Outcome.next.inj ht).symm⟩⟩
      exact ((((closeSpi_bits s).trans (releaseLine_bits .dc _)).trans (releaseLine_bits .rst _)).trans (releaseLine_bits .bl _)).tail (.state .disposed)
  | markDirtyRect x y w h =>
    exact ⟨_, false, Relation.ReflTransGen.single (Change.marked (markedFlags s.cfg x y w h s.dirty)), .inl ⟨.unit, (Host.Outcome.next.inj ht).symm⟩⟩
  | markAll => exact ⟨_, false, Relation.ReflTransGen.single (Change.marked (allFlags s.dirty)), .inl ⟨.unit, (Host.Outcome.next.inj ht).symm⟩⟩
  | flush =>
    rw [exec_flush, execFlush] at ht
    obtain ⟨u, h1, h2⟩ := finish_bits (changes_flushTiles _ (flushStart s)) ht
    exact ⟨u, false, (Relation.ReflTransGen.single Change.counted).trans h1, h2⟩
  | pack565 r g b => exact ⟨s, false, .refl, .inl ⟨_, (Host.Outcome.next.inj ht).symm⟩⟩
  | pack565a r g b a => exact ⟨s, false, .refl, .inl ⟨_, (Host.Outcome.next.inj ht).symm⟩⟩
  | unpack565 col => exact ⟨s, false, .refl, .inl ⟨_, (Host.Outcome.next.inj ht).symm⟩⟩
  | blend565 src dst alpha => exact ⟨s, false, .refl, .inl ⟨_, (Host.Outcome.next.inj ht).symm⟩⟩
  | modulate565 a b => exact ⟨s, false, .refl, .inl ⟨_, (Host.Outcome.next.inj ht).symm⟩⟩
  | reservedE => exact ⟨s, false, .refl, .inr ⟨_, (Host.Outcome.next.inj ht).symm⟩⟩
  | reservedF => exact ⟨s, false, .refl, .inr ⟨_, (Host.Outcome.next.inj ht).symm⟩⟩
  | swreset => cases hw
  | slpout => cases hw
  | colmod => cases hw
  | caset xs xe => cases hw
  | raset ys ye => cases hw
  | madctl r => cases hw
  | ramwr ps => cases hw
  | invon => cases hw
  | invoff => cases hw
  | dispon => cases hw
  | panelCmd op payload ms => cases hw

/-- What no change touches. -/
theorem bit1_fixed {s t : State} (a : Change s t) : t.cfg = s.cfg ∧ t.fb = s.fb ∧ t.inbox = s.inbox ∧ t.results = s.results ∧
    t.lastError = s.lastError ∧ t.due = s.due := by
  cases a with
  | level L => cases L <;> exact ⟨rfl, rfl, rfl, rfl, rfl, rfl⟩
  | handle L => cases L <;> exact ⟨rfl, rfl, rfl, rfl, rfl, rfl⟩
  | _ => exact ⟨rfl, rfl, rfl, rfl, rfl, rfl⟩

theorem bits_fixed {s t : State} (a : Changed s t) : t.cfg = s.cfg ∧ t.fb = s.fb ∧ t.inbox = s.inbox ∧ t.results = s.results ∧
    t.lastError = s.lastError ∧ t.due = s.due := by
  induction a with
  | refl => exact ⟨rfl, rfl, rfl, rfl, rfl, rfl⟩
  | tail _ b ih =>
    obtain ⟨h1, h2, h3, h4, h5, h6⟩ := bit1_fixed b
    exact ⟨h1.trans ih.1, h2.trans ih.2.1, h3.trans ih.2.2.1, h4.trans ih.2.2.2.1, h5.trans ih.2.2.2.2.1,
      h6.trans ih.2.2.2.2.2⟩

theorem bits_events {s t : State} (a : Changed s t) : ∃ new, t.events = s.events ++ new := by
  induction a with
  | refl => exact ⟨[], by simp⟩
  | @tail u v _ b ih =>
    obtain ⟨new, h⟩ := ih
    have : ∃ more, v.events = u.events ++ more := by
      cases b with
      | event e r => exact ⟨[⟨e, r⟩], rfl⟩
      | waited ms => exact ⟨[⟨.delay ms, .none⟩], rfl⟩
      | level L => exact ⟨[], by cases L <;> exact (List.append_nil _).symm⟩
      | handle L => exact ⟨[], by cases L <;> exact (List.append_nil _).symm⟩
      | _ => exact ⟨[], (List.append_nil _).symm⟩
    obtain ⟨more, hm⟩ := this
    exact ⟨new ++ more, by rw [hm, h, List.append_assoc]⟩

theorem takeError_fixed (b : Bool) (e : OpError) (u : State) : (takeError b e u).cfg = u.cfg ∧ (takeError b e u).fb = u.fb ∧
    (takeError b e u).inbox = u.inbox ∧ (takeError b e u).results = u.results ++ [.err e] ∧
    (takeError b e u).lastError = errorCode e ∧ (takeError b e u).events = u.events := by
  unfold takeError
  split <;> exact ⟨rfl, rfl, rfl, rfl, rfl, rfl⟩

/-- What every instruction leaves alone, and what it appends: a host operation one result, a wire command at most one. -/
theorem exec_fixed (i : Instr) {s t : State} (ht : exec i s = .next t) :
    t.cfg = s.cfg ∧ t.fb = s.fb ∧ t.inbox = s.inbox ∧
      ((∃ r, t.results = s.results ++ [r] ∧ t.lastError = resultCode r) ∨
        (t.results = s.results ∧ t.lastError = s.lastError ∧ Claims.wireCommand s.cfg i ≠ none)) ∧
      ∃ new, t.events = s.events ++ new := by
  have err : ∀ (b : Bool) (e : OpError) (s₀ u : State), s₀ = { s with due := s₀.due } → Changed s₀ u → t = takeError b e u →
      t.cfg = s.cfg ∧ t.fb = s.fb ∧ t.inbox = s.inbox ∧
        ((∃ r, t.results = s.results ++ [r] ∧ t.lastError = resultCode r) ∨
          (t.results = s.results ∧ t.lastError = s.lastError ∧ Claims.wireCommand s.cfg i ≠ none)) ∧
        ∃ new, t.events = s.events ++ new := by
    rintro b e s₀ u h0 h rfl
    obtain ⟨h1, h2, h3, h4, -⟩ := bits_fixed h
    obtain ⟨new, hn⟩ := bits_events h
    rw [h0] at h1 h2 h3 h4 hn
    obtain ⟨k1, k2, k3, k4, k5, k6⟩ := takeError_fixed b e u
    exact ⟨k1.trans h1, k2.trans h2, k3.trans h3, .inl ⟨.err e, by rw [k4, h4], k5⟩, ⟨new, k6.trans hn⟩⟩
  cases hw : Claims.wireCommand s.cfg i with
  | none =>
    obtain ⟨u, b, h, ⟨w, rfl⟩ | ⟨e, he⟩⟩ := host_bits i hw ht
    · obtain ⟨h1, h2, h3, h4, -⟩ := bits_fixed h
      obtain ⟨new, hn⟩ := bits_events h
      exact ⟨h1, h2, h3, .inl ⟨.ok w, by simp [succeed, h4], rfl⟩, ⟨new, hn⟩⟩
    · exact hw ▸ err b e s u rfl h he
  | some p =>
    obtain ⟨u, h, rfl | ⟨e, he⟩⟩ | ⟨-, he⟩ := wire_bits i (op := p.1) (pl := p.2.1) (ms := p.2.2) (by rw [hw]) ht
    · obtain ⟨h1, h2, h3, h4, h5, -⟩ := bits_fixed h
      obtain ⟨new, hn⟩ := bits_events h
      exact ⟨h1, h2, h3, .inr ⟨h4, h5, by simp⟩, ⟨new, hn⟩⟩
    · exact hw ▸ err false e _ u rfl h he
    · exact hw ▸ err false _ s s rfl .refl he

/-- Every instruction ends in a next state. -/
theorem exec_next (i : Instr) (s : State) : ∃ t, exec i s = .next t := by
  have fin : ∀ b v x, ∃ t, finish b v x = .next t := finish_eq
  have row : ∀ x, ∃ t, endRow x = .next t := fun x => by cases x <;> exact ⟨_, rfl⟩
  have rdy : ∀ tag f, ∃ t, whenReady tag f s = .next t := by
    intro tag f; unfold whenReady; split
    · exact fin _ _ _
    · exact ⟨_, rfl⟩
  cases i with
  | init => rw [exec_init, execInit]; split; · exact fin _ _ _
            exact ⟨_, rfl⟩
  | dispose => rw [exec_dispose, execDispose]; split <;> exact ⟨_, rfl⟩
  | flush => exact fin _ _ _
  | pushRect => rw [exec_pushRect, execPushRect]; exact rdy _ _
  | pushRectSolid => exact rdy _ _
  | setRotation => exact rdy _ _
  | setBacklight => rw [exec_setBacklight, execSetBacklight]; exact rdy _ _
  | swreset => exact row _
  | slpout => exact row _
  | colmod => exact row _
  | caset => exact row _
  | raset => exact row _
  | madctl => exact row _
  | ramwr => exact row _
  | invon => exact row _
  | invoff => exact row _
  | dispon => exact row _
  | panelCmd => exact row _
  | _ => exact ⟨_, rfl⟩

end Sys2Proof.Machine
end

