-- ==== Sys2Proof/Laws/Invariants.lean ====
section
/-! SUPPORT. Every act keeps the invariants of Safety: the memories stay canonical, the flags keep their number, a level is
known of a held line only, and the history stays framed and balanced. -/

namespace Sys2Proof.Machine

open Sys2Proof.Safety

theorem act_cfg {s t : State} (a : Act s t) : t.cfg = s.cfg := by
  cases a with
  | move m => exact m.steady.cfg
  | lineOpened L => cases L <;> rfl
  | lineReleased L => cases L <;> rfl
  | erred b e => unfold takeError; split <;> rfl
  | _ => rfl

theorem act_fb {s t : State} (a : Act s t) : t.fb = s.fb := by
  cases a with
  | move m => exact m.steady.fb
  | lineOpened L => cases L <;> rfl
  | lineReleased L => cases L <;> rfl
  | erred b e => unfold takeError; split <;> rfl
  | _ => rfl

theorem act_dirty {s t : State} (a : Act s t) : t.dirty.length = s.dirty.length := by
  cases a with
  | move m => rw [m.steady.dirty]
  | lineOpened L => cases L <;> rfl
  | lineReleased L => cases L <;> rfl
  | erred b e => unfold takeError; split <;> rfl
  | marked fs h => exact h
  | serviced n r => simp [tileServiced]
  | _ => rfl

theorem freeGram_wf (k j : Nat) : Memory.wf (freeGram k j) = true := Memory.wf_ofList _

theorem panelOverrun_wf (k : Nat) (p : Panel) : Memory.wf (panelOverrun k p).gram = true := freeGram_wf _ _

theorem panelPixel_wf (k : Nat) (v : Word) (p : Panel) (h : Memory.wf p.gram = true) : Memory.wf (panelPixel k v p).gram = true := by
  unfold panelPixel
  split
  · split
    · exact Memory.wf_write _ _ _ h
    · exact panelOverrun_wf _ _
  · exact panelOverrun_wf _ _

theorem panelDataByte_wf (k : Nat) (p : Panel) (b : Byte) (h : Memory.wf p.gram = true) : Memory.wf (panelDataByte k p b).gram = true := by
  unfold panelDataByte
  dsimp only
  split
  · split <;> exact h
  · split
    · split <;> exact h
    · split
      · split
        · exact panelPixel_wf _ _ _ h
        · exact h
      · exact h

theorem panelData_wf (k : Nat) (bs : List Byte) : ∀ p : Panel, Memory.wf p.gram = true → Memory.wf (panelData k bs p).gram = true := by
  induction bs with
  | nil => exact fun _ h => h
  | cons b bs ih => exact fun p h => ih _ (panelDataByte_wf k p b h)

theorem panelTransaction_wf (c : Cfg) (k : Nat) (dc : Option Bit) (bs : List Byte) (p : Panel) (h : Memory.wf p.gram = true) :
    Memory.wf (panelTransaction c k dc bs p).gram = true := by
  unfold panelTransaction
  split
  · exact panelOverrun_wf _ _
  · split
    · split
      · exact h
      · exact panelOverrun_wf _ _
    · exact panelData_wf _ _ _ h

theorem act_gram {s t : State} (a : Act s t) (h : Memory.wf s.panel.gram = true) : Memory.wf t.panel.gram = true := by
  cases a with
  | move m =>
    cases m with
    | wrote bytes _ _ => exact panelTransaction_wf _ _ _ _ _ h
    | writeFailed => exact h
    | lineSet L => cases L <;> exact h
    | lineFailed L => cases L <;> exact h
    | waited => exact h
    | rotated => exact h
  | lineOpened L => cases L <;> exact h
  | lineReleased L => cases L <;> exact h
  | erred b e =>
    unfold takeError
    split
    · exact freeGram_wf _ _
    · exact h
  | _ => exact h

theorem act_memory {s t : State} (a : Act s t) (h : MemoryCanonical s) : MemoryCanonical t := by
  obtain ⟨h1, h2, h3⟩ := h
  exact ⟨by rw [act_fb a]; exact h1, act_gram a h2, by rw [act_fb a, act_cfg a]; exact h3⟩

theorem act_grid {s t : State} (a : Act s t) (h : GridShaped s) : GridShaped t := by
  obtain ⟨h1, h2⟩ := h
  exact ⟨by rw [act_cfg a]; exact h1, by rw [act_dirty a, act_cfg a]; exact h2⟩

theorem act_levels {s t : State} (a : Act s t) (h : LevelsOwned s) : LevelsOwned t := by
  intro M
  have hM := h M
  cases a with
  | move m =>
    cases m with
    | wrote bytes _ _ => exact hM
    | writeFailed => exact hM
    | lineSet L l held => 
      by_cases hl : M = L
      · subst hl; intro _; rw [(Move.lineSet M l held).steady.lineHandle]; exact held
      · intro hx; rw [(Move.lineSet L l held).steady.lineHandle]; apply hM
        cases L <;> cases M <;> first | exact absurd rfl hl | exact hx
    | lineFailed L l held =>
      by_cases hl : M = L
      · subst hl; intro hx; cases M <;> cases hx
      · intro hx; rw [(Move.lineFailed L l held).steady.lineHandle]; apply hM
        cases L <;> cases M <;> first | exact absurd rfl hl | exact hx
    | waited => exact hM
    | rotated => exact hM
  | lineOpened L e hd fr ev =>
    intro hx
    by_cases hl : M = L
    · subst hl; cases M <;> rfl
    · have : (lineHandle s M).isSome = true := hM (by cases L <;> cases M <;> exact hx)
      cases L <;> cases M <;> first | exact absurd rfl hl | exact this
  | lineReleased L =>
    intro hx
    by_cases hl : M = L
    · subst hl; cases M <;> cases hx
    · have : (lineHandle s M).isSome = true := hM (by cases L <;> cases M <;> first | exact absurd rfl hl | exact hx)
      cases L <;> cases M <;> first | exact absurd rfl hl | exact this
  | erred b e => unfold takeError; split <;> exact hM
  | _ => cases M <;> exact hM

theorem dcAfter_append (h : List Entry) (e : Entry) : dcAfter (h ++ [e]) = dcAfterEntry (dcAfter h) e := by
  unfold dcAfter; rw [List.foldl_append]; rfl

theorem act_history {s t : State} (a : Act s t) (h : LevelMatchesHistory s) : LevelMatchesHistory t := by
  unfold LevelMatchesHistory at *
  cases a with
  | move m =>
    cases m with
    | wrote bytes _ _ => show dcAfter (s.events ++ [_]) = _; rw [dcAfter_append]; exact h
    | writeFailed => show dcAfter (s.events ++ [_]) = _; rw [dcAfter_append]; exact h
    | lineSet L l held => 
      cases L <;> (show dcAfter (s.events ++ [_]) = _; rw [dcAfter_append]) <;> first | exact h | rfl
    | lineFailed L l held =>
      cases L <;> (show dcAfter (s.events ++ [_]) = _; rw [dcAfter_append]) <;> first | exact h | rfl
    | waited => show dcAfter (s.events ++ [_]) = _; rw [dcAfter_append]; exact h
    | rotated => exact h
  | spiOpened e _ _ ev => show dcAfter (s.events ++ [_]) = _; rw [dcAfter_append, ev]; exact h
  | spiOpenFailed e ev => show dcAfter (s.events ++ [_]) = _; rw [dcAfter_append, ev]; exact h
  | lineOpened L e _ _ ev => cases L <;> (show dcAfter (s.events ++ [_]) = _; rw [dcAfter_append, ev]) <;> exact h
  | lineOpenFailed L e ev => show dcAfter (s.events ++ [_]) = _; rw [dcAfter_append, ev]; exact h
  | spiClosed => show dcAfter (s.events ++ [_]) = _; rw [dcAfter_append]; exact h
  | lineReleased L => cases L <;> (show dcAfter (s.events ++ [_]) = _; rw [dcAfter_append]) <;> first | exact h | rfl
  | erred b e => unfold takeError; split <;> exact h
  | _ => exact h

/-- What an act adds to the history: nothing, or one event; a write is framed. -/
theorem act_write {s t : State} (a : Act s t) : t.events = s.events ∨ ∃ e, t.events = s.events ++ [e] ∧
    ∀ h bytes, e.ev = .spiWrite h bytes → Framed s bytes := by
  cases a with
  | move m =>
    cases m with
    | lineSet L => exact .inr ⟨⟨.gpioSet L (lineHandle s L) _, .ok⟩, by cases L <;> rfl, by simp⟩
    | lineFailed L => exact .inr ⟨⟨.gpioSet L (lineHandle s L) _, .err⟩, by cases L <;> rfl, by simp⟩
    | wrote bytes _ fr => exact .inr ⟨_, rfl, by rintro h b hb; cases hb; exact fr⟩
    | writeFailed bytes _ _ fr => exact .inr ⟨_, rfl, by rintro h b hb; cases hb; exact fr⟩
    | waited => exact .inr ⟨_, rfl, by simp⟩
    | rotated => exact .inl rfl
  | lineOpened L e h _ ev => exact .inr ⟨⟨e, .handle h⟩, by cases L <;> rfl, by simp [ev]⟩
  | lineReleased L h => exact .inr ⟨⟨.gpioRelease L h, .ignored⟩, by cases L <;> rfl, by simp⟩
  | spiOpened _ _ _ ev => exact .inr ⟨_, rfl, by simp [ev]⟩
  | spiOpenFailed _ ev => exact .inr ⟨_, rfl, by simp [ev]⟩
  | lineOpenFailed _ _ ev => exact .inr ⟨_, rfl, by simp [ev]⟩
  | spiClosed => exact .inr ⟨_, rfl, by simp⟩
  | erred b e => refine .inl ?_; unfold takeError; split <;> rfl
  | _ => exact .inl rfl

theorem act_writes {s t : State} (a : Act s t) (h : WritesBounded s) : WritesBounded t := by
  unfold WritesBounded at *
  rw [act_cfg a]
  rcases act_write a with h1 | ⟨e, h1, h2⟩
  · rw [h1]; exact h
  · rw [h1]
    intro d hd
    rcases List.mem_append.mp hd with hd | hd
    · exact h d hd
    · rw [List.mem_singleton] at hd
      subst hd
      exact fun k b hb => (h2 k b hb).1

theorem wireTraceFrom_append (h : List Entry) : ∀ (l : Option Bit) (e : Entry),
    wireTraceFrom l (h ++ [e]) = wireTraceFrom l h ++ wireTraceFrom (h.foldl dcAfterEntry l) [e] := by
  induction h with
  | nil => exact fun _ _ => rfl
  | cons d h ih =>
    intro l e
    simp only [List.cons_append, wireTraceFrom, List.foldl_cons]
    split
    · rw [ih]; rfl
    · rw [ih]; rfl

theorem act_framed {s t : State} (a : Act s t) (hl : LevelMatchesHistory s) (h : TransactionsFramed s) : TransactionsFramed t := by
  unfold TransactionsFramed at *
  rw [act_cfg a]
  rcases act_write a with h1 | ⟨e, h1, h2⟩
  · rw [h1]; exact h
  · rw [h1]
    intro d hd
    unfold wireTrace at hd
    rw [wireTraceFrom_append] at hd
    rcases List.mem_append.mp hd with hd | hd
    · exact h d hd
    · unfold wireTraceFrom at hd
      have hdc : s.events.foldl dcAfterEntry none = s.dcLevel := hl
      split at hd
      · rename_i bytes hw
        simp only [wireTraceFrom, List.mem_singleton] at hd
        subst hd
        unfold writeSucceeded at hw
        split at hw
        · rename_i ev r k b n hev hr
          split at hw
          · obtain rfl := Option.some.inj hw
            rw [hdc]
            exact (h2 _ _ hev).2
          · cases hw
        · cases hw
      · cases hd

theorem balance_add {s t : State} {r : Resource} {e : Entry} (he : t.events = s.events ++ [e])
    (h : (isOpen r e = false ∧ isRelease r e = false ∧ held t r = held s r) ∨
      (isOpen r e = true ∧ isRelease r e = false ∧ held s r = none ∧ (held t r).isSome = true) ∨
      (isOpen r e = false ∧ isRelease r e = true ∧ (held s r).isSome = true ∧ held t r = none))
    (hr : s.events.countP (isOpen r) = s.events.countP (isRelease r) + (if (held s r).isSome then 1 else 0)) :
    t.events.countP (isOpen r) = t.events.countP (isRelease r) + (if (held t r).isSome then 1 else 0) := by
  rw [he, List.countP_append, List.countP_append]
  rcases h with ⟨h1, h2, h3⟩ | ⟨h1, h2, h3, h4⟩ | ⟨h1, h2, h3, h4⟩
  · simp [h1, h2, h3, hr]
  · rw [h3] at hr; simp at hr; simp [h1, h2, h4, hr]
  · rw [h3] at hr; simp at hr; simp [h1, h2, h4, hr]

theorem act_balanced {s t : State} (a : Act s t) (h : ReleasesBalanced s) : ReleasesBalanced t := by
  intro r
  have hr := h r
  cases a with
  | move m =>
    have hh : held t r = held s r := by
      cases r with
      | spi => exact m.steady.hSpi
      | gpio L => exact m.steady.lineHandle L
    cases m with
    | lineSet L l => 
      refine balance_add (e := ⟨.gpioSet L (lineHandle s L) l, .ok⟩) (by cases L <;> rfl) (.inl ⟨?_, ?_, hh⟩) hr <;> cases r <;> rfl
    | lineFailed L l =>
      refine balance_add (e := ⟨.gpioSet L (lineHandle s L) l, .err⟩) (by cases L <;> rfl) (.inl ⟨?_, ?_, hh⟩) hr <;> cases r <;> rfl
    | wrote b => refine balance_add rfl (.inl ⟨?_, ?_, hh⟩) hr <;> cases r <;> rfl
    | writeFailed b => refine balance_add rfl (.inl ⟨?_, ?_, hh⟩) hr <;> cases r <;> rfl
    | waited b => refine balance_add rfl (.inl ⟨?_, ?_, hh⟩) hr <;> cases r <;> rfl
    | rotated => rw [hh]; exact hr
  | spiOpened e hd fr ev =>
    subst ev
    cases r with
    | spi => exact balance_add rfl (.inr (.inl ⟨rfl, rfl, fr, rfl⟩)) hr
    | gpio L => exact balance_add rfl (.inl ⟨rfl, rfl, by cases L <;> rfl⟩) hr
  | spiOpenFailed e ev =>
    subst ev
    exact balance_add rfl (.inl ⟨by cases r <;> rfl, by cases r <;> rfl, by rcases r with _ | L; · rfl
                                                                            cases L <;> rfl⟩) hr
  | lineOpened L e hd fr ev =>
    subst ev
    have he : (setHandle L (some hd) (logged (.gpioOpen L s.cfg.gpioChip (lineNumber s.cfg L) (lineLabel s.cfg L)) (.handle hd) (drawn s))).events =
      s.events ++ [⟨.gpioOpen L s.cfg.gpioChip (lineNumber s.cfg L) (lineLabel s.cfg L), .handle hd⟩] := by cases L <;> rfl
    cases r with
    | spi => exact balance_add he (.inl ⟨rfl, rfl, by cases L <;> rfl⟩) hr
    | gpio M =>
      by_cases hl : M = L
      · subst hl
        exact balance_add he (.inr (.inl ⟨by simp [isOpen], rfl, fr, by cases M <;> rfl⟩)) hr
      · exact balance_add he (.inl ⟨by simp [isOpen, hl], rfl, by cases L <;> cases M <;> first | exact absurd rfl hl | rfl⟩) hr
  | lineOpenFailed L e ev =>
    subst ev
    exact balance_add rfl (.inl ⟨by cases r <;> rfl, by cases r <;> rfl, by rcases r with _ | L; · rfl
                                                                            cases L <;> rfl⟩) hr
  | spiClosed hd hh =>
    cases r with
    | spi => exact balance_add rfl (.inr (.inr ⟨rfl, rfl, by show s.hSpi.isSome = true; rw [hh]; rfl, rfl⟩)) hr
    | gpio L => exact balance_add rfl (.inl ⟨rfl, rfl, by cases L <;> rfl⟩) hr
  | lineReleased L hd hh =>
    have he : (setLevel L none (setHandle L none (logged (.gpioRelease L hd) .ignored (drawn s)))).events = s.events ++ [⟨.gpioRelease L hd, .ignored⟩] := by cases L <;> rfl
    cases r with
    | spi => exact balance_add he (.inl ⟨rfl, rfl, by cases L <;> rfl⟩) hr
    | gpio M =>
      by_cases hl : M = L
      · subst hl
        exact balance_add he (.inr (.inr ⟨rfl, by simp [isRelease], by show (lineHandle s M).isSome = true; rw [hh]; rfl, by cases M <;> rfl⟩)) hr
      · exact balance_add he (.inl ⟨rfl, by simp [isRelease, hl], by cases L <;> cases M <;> first | exact absurd rfl hl | rfl⟩) hr
  | erred b e => unfold takeError; split <;> cases r <;> exact hr
  | _ => cases r <;> exact hr

theorem act_code {s t : State} (a : Act s t) (h : ErrorCodeLegal s) : ErrorCodeLegal t := by
  unfold ErrorCodeLegal at *
  cases a with
  | move m => rw [m.steady.lastError]; exact h
  | lineOpened L => cases L <;> exact h
  | lineReleased L => cases L <;> exact h
  | erred b e =>
    have he : (errorCode e).toNat ≤ 5 := by cases e <;> simp [errorCode]
    unfold takeError; split <;> exact he
  | succeeded => exact Nat.zero_le _
  | _ => exact h

end Sys2Proof.Machine
end

