-- ==== Sys2Proof/Laws/PerInstr.lean ====
section
/-! SUPPORT. A statement about every instruction as syntax, one lemma for each constructor: the port and the first byte of its
record are those of its row of spec/opcode_table.json. -/

namespace Sys2Proof.Laws.OpcodeByte

/-- The port on which a row's record is presented. -/
def rowPort : Instr → Port
  | .init => .host
  | .pushRect _ _ _ _ _ => .host
  | .pushRectSolid _ _ _ _ _ => .host
  | .setRotation _ => .host
  | .setBacklight _ => .host
  | .dispose => .host
  | .markDirtyRect _ _ _ _ => .host
  | .markAll => .host
  | .flush => .host
  | .pack565 _ _ _ => .host
  | .pack565a _ _ _ _ => .host
  | .unpack565 _ => .host
  | .blend565 _ _ _ => .host
  | .modulate565 _ _ => .host
  | .reservedE => .host
  | .reservedF => .host
  | .swreset => .framer
  | .slpout => .framer
  | .colmod => .framer
  | .caset _ _ => .framer
  | .raset _ _ => .framer
  | .madctl _ => .framer
  | .ramwr _ => .framer
  | .invon => .framer
  | .invoff => .framer
  | .dispon => .framer
  | .panelCmd _ _ delayMs => .table delayMs

/-- The row's code: a host operation's four bits (R52), a wire command's opcode (R59), the table entry's own (R61). -/
def rowCode : Instr → Byte
  | .init => 0x00
  | .pushRect _ _ _ _ _ => 0x01
  | .pushRectSolid _ _ _ _ _ => 0x02
  | .setRotation _ => 0x03
  | .setBacklight _ => 0x04
  | .dispose => 0x05
  | .markDirtyRect _ _ _ _ => 0x06
  | .markAll => 0x07
  | .flush => 0x08
  | .pack565 _ _ _ => 0x09
  | .pack565a _ _ _ _ => 0x0A
  | .unpack565 _ => 0x0B
  | .blend565 _ _ _ => 0x0C
  | .modulate565 _ _ => 0x0D
  | .reservedE => 0x0E
  | .reservedF => 0x0F
  | .swreset => 0x01
  | .slpout => 0x11
  | .colmod => 0x3A
  | .caset _ _ => 0x2A
  | .raset _ _ => 0x2B
  | .madctl _ => 0x36
  | .ramwr _ => 0x2C
  | .invon => 0x21
  | .invoff => 0x20
  | .dispon => 0x29
  | .panelCmd op _ _ => op

/-- The record of an instruction starts with its row's code, on its row's port. -/
def Statement (i : Instr) : Prop :=
  (encode i).port = rowPort i ∧ (encode i).bytes.head? = some (rowCode i)

theorem init : Statement (.init) := ⟨rfl, rfl⟩
theorem pushRect (x y w h : Word) (pixels : List Word) : Statement (.pushRect x y w h pixels) := ⟨rfl, rfl⟩
theorem pushRectSolid (x y w h color : Word) : Statement (.pushRectSolid x y w h color) := ⟨rfl, rfl⟩
theorem setRotation (r : BitVec 2) : Statement (.setRotation r) := ⟨rfl, rfl⟩
theorem setBacklight (on : Bool) : Statement (.setBacklight on) := ⟨rfl, rfl⟩
theorem dispose : Statement (.dispose) := ⟨rfl, rfl⟩
theorem markDirtyRect (x y w h : BitVec 32) : Statement (.markDirtyRect x y w h) := ⟨rfl, rfl⟩
theorem markAll : Statement (.markAll) := ⟨rfl, rfl⟩
theorem flush : Statement (.flush) := ⟨rfl, rfl⟩
theorem pack565 (r g b : Byte) : Statement (.pack565 r g b) := ⟨rfl, rfl⟩
theorem pack565a (r g b a : Byte) : Statement (.pack565a r g b a) := ⟨rfl, rfl⟩
theorem unpack565 (c : Word) : Statement (.unpack565 c) := ⟨rfl, rfl⟩
theorem blend565 (src dst : Word) (alpha : Byte) : Statement (.blend565 src dst alpha) := ⟨rfl, rfl⟩
theorem modulate565 (a b : Word) : Statement (.modulate565 a b) := ⟨rfl, rfl⟩
theorem reservedE : Statement (.reservedE) := ⟨rfl, rfl⟩
theorem reservedF : Statement (.reservedF) := ⟨rfl, rfl⟩
theorem swreset : Statement (.swreset) := ⟨rfl, rfl⟩
theorem slpout : Statement (.slpout) := ⟨rfl, rfl⟩
theorem colmod : Statement (.colmod) := ⟨rfl, rfl⟩
theorem caset (xs xe : Word) : Statement (.caset xs xe) := ⟨rfl, rfl⟩
theorem raset (ys ye : Word) : Statement (.raset ys ye) := ⟨rfl, rfl⟩
theorem madctl (r : BitVec 2) : Statement (.madctl r) := ⟨rfl, rfl⟩
theorem ramwr (pixels : List Word) : Statement (.ramwr pixels) := ⟨rfl, rfl⟩
theorem invon : Statement (.invon) := ⟨rfl, rfl⟩
theorem invoff : Statement (.invoff) := ⟨rfl, rfl⟩
theorem dispon : Statement (.dispon) := ⟨rfl, rfl⟩
theorem panelCmd (op : Byte) (payload : List Byte) (delayMs : Nat) : Statement (.panelCmd op payload delayMs) := ⟨rfl, rfl⟩

end Sys2Proof.Laws.OpcodeByte
end

