-- ==== Sys2Proof/Laws/Steps.lean ====
section
/-! SUPPORT. What one step of the machine can do, said once: nothing, one instruction, one host write, or block reset. And
what an instruction does to `due`. -/

namespace Sys2Proof.Machine

/-- Everything a step that answers a next state can have done. -/
theorem step_cases {s t : State} (h : step s = .next t) : s.cfg.wf = true ∧
    (t = s ∨ ∃ rest,
      (∃ i, exec i { s with inbox := rest } = .next t) ∨
      (∃ a v, a < pixelCount s.cfg ∧ t = { s with inbox := rest, fb := Memory.write s.fb a v }) ∨
      ((s.drvState = .uninit ∨ s.drvState = .disposed) ∧ t = resetBlock { s with inbox := rest })) := by
  unfold step at h
  split at h
  · rename_i hwf
    refine ⟨hwf, ?_⟩
    unfold performNext at h
    split at h
    · exact .inl (Host.Outcome.next.inj h).symm
    · rename_i i rest hi
      refine .inr ⟨rest, ?_⟩
      unfold performInput at h
      cases i with
      | op r =>
        simp only [performRecord] at h
        split at h
        · exact .inl ⟨_, h⟩
        · cases h
      | fbWrite a v =>
        simp only [hostWrite] at h
        split at h
        · exact .inr (.inl ⟨a, v, ‹_›, (Host.Outcome.next.inj h).symm⟩)
        · cases h
      | blockReset =>
        simp only [platformReset] at h
        split at h
        · rename_i hr
          refine .inr (.inr ⟨?_, (Host.Outcome.next.inj h).symm⟩)
          have hr : resetAllowed s.drvState = true := hr
          cases hd : s.drvState <;> rw [hd] at hr <;> simp [resetAllowed] at hr ⊢
        · cases h
  · cases h

/-- A host operation, and every other operation that is no wire command, leaves `due` as it was. -/
theorem exec_due (i : Instr) {s t : State} (hw : Claims.wireCommand s.cfg i = none) (ht : exec i s = .next t) :
    t.due = s.due := by
  obtain ⟨u, b, h, ⟨w, rfl⟩ | ⟨e, rfl⟩⟩ := host_bits i hw ht
  · exact (bits_fixed h).2.2.2.2.2
  · rw [takeError_due]; exact (bits_fixed h).2.2.2.2.2

/-- A wire command that no operation has come to is turned away. -/
theorem exec_wire_not_due (i : Instr) {s : State} {op : Byte} {pl : List Byte} {ms : Nat}
    (hw : Claims.wireCommand s.cfg i = some (op, pl, ms)) (hd : s.due ≠ some i) :
    exec i s = .next (takeError false (.invalidState s.drvState (.wire op)) s) := by
  rw [wire_prims i op pl ms s hw, if_neg hd]

end Sys2Proof.Machine
end

