-- ==== Sys2Proof/Tests/Slice0.lean ====
section
/-! SUPPORT. The model's own tests: each check of WellFormed with a term it refuses, records written out from the spec
that decode, one step of each instruction with the result spec/95_test_vectors.md gives (the vector's name stands
with each test), and for each statement with hypotheses a concrete state that meets them. -/

namespace Sys2Proof.Tests

open Sys2Proof.Machine Sys2Proof.Safety Sys2Proof.Claims

/-! ### Small states -/

/-- Whether an outcome is a next state with a property. -/
def meets (o : Host.Outcome State Fault Refusal) (p : State → Bool) : Bool :=
  match o with
  | .next t => p t
  | .fault _ => false
  | .refused _ => false

theorem next_of_meets {o : Host.Outcome State Fault Refusal} {p : State → Bool} (h : meets o p = true) :
    ∃ t, o = .next t ∧ p t = true := by
  cases o with
  | next t => exact ⟨t, rfl, h⟩
  | fault _ => cases h
  | refused _ => cases h

/-- `n` good answers. -/
def good (n : Nat) : List Answer := List.replicate n (.good 0)

/-- The reference configuration with a 2 × 2 panel, as in program P1. -/
def small : Cfg := Cfg.reference 2 2

/-- The same with a backlight line whose on level is 0, as in S7. -/
def lit : Cfg := { small with blLine := some 18, blOnLevel := 0 }

/-- A 4 × 4 panel of 2 × 2 tiles. -/
def tiled : Cfg := { Cfg.reference 4 4 with tileW := 2, tileH := 2 }

/-- A block in READY that holds its handles, with `n` good answers to come. -/
def ready (c : Cfg) (n : Nat) : State :=
  { State.built c with
    drvState := .ready
    curRotation := some 0
    hSpi := some 1
    hDc := some 2
    hRst := some 3
    hBl := if hasBl c then some 4 else none
    dcLevel := some 1
    rstLevel := some 1
    fb := (List.range 16).map fun k => (k, BitVec.ofNat 16 k)
    answers := good n }

/-- A block in UNINIT with `n` good answers to come. -/
def fresh (c : Cfg) (n : Nat) : State := { State.built c with answers := good n }

/-- A block in FAILED that still holds its handles. -/
def failed (c : Cfg) : State := { ready c 0 with drvState := .failed }

/-- The state with the flags of the given flat indices set. -/
def marked (ns : List Nat) (s : State) : State :=
  { s with dirty := (List.range (tileCount s.cfg)).map fun n => ns.contains n }

/-- The trace of an operation that began in `s` with an empty history. -/
def issued (s t : State) : List TraceItem := traceFrom s.cfg s.dcLevel t.events

/-- The flat indices of the dirty tiles. -/
def dirtySet (t : State) : List Nat := dirtyTiles t

/-! ### WellFormed: a term that each check refuses -/

theorem test_wf_reference : (Cfg.reference 32 32).wf = true := by decide
theorem test_wf_panel_size : { small with panelW := 0 }.wf = false := by decide
theorem test_wf_panel_height : { small with panelH := 0 }.wf = false := by decide
theorem test_wf_tile_width : { small with tileW := 65536 }.wf = false := by decide
theorem test_wf_tile_height : { small with tileH := 0 }.wf = false := by decide
theorem test_wf_spi_bits : { small with spiBits := 16 }.wf = false := by decide
theorem test_wf_max_xfer : { small with maxXfer := 0 }.wf = false := by decide
theorem test_wf_colmod : { small with colmodValue := 0x06 }.wf = false := by decide
theorem test_wf_bgr : { small with bgrMask := 0x10 }.wf = false := by decide
theorem test_wf_rot_0 : { small with madctlRot := ⟨0x40, 0x20, 0xC0, 0xE0⟩ }.wf = false := by decide
theorem test_wf_rot_90 : { small with madctlRot := ⟨0x00, 0x40, 0xC0, 0xE0⟩ }.wf = false := by decide
theorem test_wf_rot_180 : { small with madctlRot := ⟨0x00, 0x20, 0xE0, 0xE0⟩ }.wf = false := by decide
theorem test_wf_rot_270 : { small with madctlRot := ⟨0x00, 0x20, 0xC0, 0x20⟩ }.wf = false := by decide
theorem test_wf_lines : { small with rstLine := 24 }.wf = false := by decide
theorem test_wf_backlight_line : { small with blLine := some 25 }.wf = false := by decide

theorem test_payload_too_long : payloadFits (List.replicate 65536 0) = false := by
  unfold payloadFits; rw [List.length_replicate]; decide

theorem test_wf_table (p : List Byte) (hp : payloadFits p = false) :
    { small with panelInitTable := [⟨0xB1, p, 0⟩] }.wf = false := by
  have h : { small with panelInitTable := [⟨0xB1, p, 0⟩] }.tableLegal = false := by simp [Cfg.tableLegal, hp]
  unfold Cfg.wf; rw [h, Bool.and_false]

theorem test_wf_panel_cmd (op : Byte) (d : Nat) : (Instr.panelCmd op (List.replicate 65536 0) d).wf = false :=
  test_payload_too_long

/-! ### Decode: records from R52, R53, R54, R59, R61 and R64 -/

theorem test_decode_init : decode ⟨.host, [0x00]⟩ = .ok .init := by decide
theorem test_decode_push_rect :
    decode ⟨.host, [0x01, 0x00, 0x02, 0x00, 0x03, 0x00, 0x01, 0x00, 0x01, 0x12, 0x34]⟩ =
      .ok (.pushRect 2 3 1 1 [0x1234]) := by decide
theorem test_decode_push_rect_solid :
    decode ⟨.host, [0x02, 0xFF, 0xFA, 0x00, 0x00, 0x00, 0x0A, 0x00, 0x01, 0xF8, 0x00]⟩ =
      .ok (.pushRectSolid 65530 0 10 1 0xF800) := by decide
theorem test_decode_set_rotation : decode ⟨.host, [0x03, 0x03]⟩ = .ok (.setRotation 3) := by decide
theorem test_decode_set_backlight : decode ⟨.host, [0x04, 0x01]⟩ = .ok (.setBacklight true) := by decide
theorem test_decode_dispose : decode ⟨.host, [0x05]⟩ = .ok .dispose := by decide
theorem test_decode_mark_dirty_rect :
    decode ⟨.host, [0x06, 0xFF, 0xFF, 0xFF, 0xFB, 0x80, 0, 0, 0, 0, 0, 0, 6, 0, 0, 1, 0]⟩ =
      .ok (.markDirtyRect (-5) (-2147483648) 6 256) := by decide
theorem test_decode_mark_all : decode ⟨.host, [0x07]⟩ = .ok .markAll := by decide
theorem test_decode_flush : decode ⟨.host, [0x08]⟩ = .ok .flush := by decide
theorem test_decode_pack565 : decode ⟨.host, [0x09, 200, 100, 50]⟩ = .ok (.pack565 200 100 50) := by decide
theorem test_decode_pack565a :
    decode ⟨.host, [0x0A, 255, 0, 1, 2]⟩ = .ok (.pack565a 255 0 1 2) := by decide
theorem test_decode_unpack565 : decode ⟨.host, [0x0B, 0xCB, 0x26]⟩ = .ok (.unpack565 0xCB26) := by decide
theorem test_decode_blend565 :
    decode ⟨.host, [0x0C, 0x12, 0x34, 0xAB, 0xCD, 77]⟩ = .ok (.blend565 0x1234 0xABCD 77) := by decide
theorem test_decode_modulate565 :
    decode ⟨.host, [0x0D, 0x61, 0x92, 0x84, 0x10]⟩ = .ok (.modulate565 0x6192 0x8410) := by decide
theorem test_decode_reserved_e : decode ⟨.host, [0x0E]⟩ = .ok .reservedE := by decide
theorem test_decode_reserved_f : decode ⟨.host, [0x0F]⟩ = .ok .reservedF := by decide
theorem test_decode_swreset : decode ⟨.framer, [0x01]⟩ = .ok .swreset := by decide
theorem test_decode_slpout : decode ⟨.framer, [0x11]⟩ = .ok .slpout := by decide
theorem test_decode_colmod : decode ⟨.framer, [0x3A]⟩ = .ok .colmod := by decide
theorem test_decode_caset : decode ⟨.framer, [0x2A, 0x00, 0xFA, 0x01, 0x03]⟩ = .ok (.caset 250 259) := by decide
theorem test_decode_raset : decode ⟨.framer, [0x2B, 0x01, 0x2C, 0x01, 0x3F]⟩ = .ok (.raset 300 319) := by decide
theorem test_decode_madctl : decode ⟨.framer, [0x36, 0x02]⟩ = .ok (.madctl 2) := by decide
theorem test_decode_ramwr : decode ⟨.framer, [0x2C, 0xF8, 0x00, 0x00, 0x1F]⟩ = .ok (.ramwr [0xF800, 0x001F]) := by decide
theorem test_decode_invon : decode ⟨.framer, [0x21]⟩ = .ok .invon := by decide
theorem test_decode_invoff : decode ⟨.framer, [0x20]⟩ = .ok .invoff := by decide
theorem test_decode_dispon : decode ⟨.framer, [0x29]⟩ = .ok .dispon := by decide
theorem test_decode_panel_cmd :
    decode ⟨.table 10, [0xB1, 0x01, 0x2C, 0x2D]⟩ = .ok (.panelCmd 0xB1 [0x01, 0x2C, 0x2D] 10) := by decide
theorem test_decode_empty : decode ⟨.host, []⟩ = .error .emptyRecord := by decide
theorem test_decode_long : decode ⟨.host, [0x07, 0x00]⟩ = .error (.wrongLength 0x07) := by decide
theorem test_decode_odd : decode ⟨.framer, [0x2C, 0xF8]⟩ = .error (.oddPixelBytes 0x2C) := by decide
theorem test_table_word_madctl : decodeTableWord 8 0x36 = some (.madctl 0) := by decide
theorem test_table_word_flush : decodeTableWord 8 0x08 = some .flush := by decide

/-! ### The codec (95_test_vectors.md 2.1) -/

/-- The result of an operation and what LAST_ERROR it leaves. -/
def gives (i : Instr) (s : State) (v : Value) : Bool :=
  meets (exec i s) fun t => decide (t.results = [.ok v] ∧ t.lastError = 0)

theorem test_pack565 : gives (.pack565 200 100 50) (failed small) (.word 0xCB26) = true := by decide
theorem test_pack565_lowest_kept : gives (.pack565 8 4 8) (fresh small 0) (.word 0x0821) = true := by decide
theorem test_pack565a : gives (.pack565a 255 0 0 0) (fresh small 0) (.word 0xF800) = true := by decide
theorem test_pack565a_opaque : gives (.pack565a 255 0 0 255) (fresh small 0) (.word 0xF800) = true := by decide
theorem test_unpack565 : gives (.unpack565 0x8410) (fresh small 0) (.rgb 132 130 132) = true := by decide
theorem test_unpack565_mixed : gives (.unpack565 0xCB26) (fresh small 0) (.rgb 206 101 49) = true := by decide
theorem test_blend565 : gives (.blend565 0xF800 0x001F 128) (fresh small 0) (.word 0x780F) = true := by decide
theorem test_blend565_mixed : gives (.blend565 0xCB26 0x001F 128) (fresh small 0) (.word 0x6192) = true := by decide
theorem test_modulate565 : gives (.modulate565 0x8410 0x8410) (fresh small 0) (.word 0x4208) = true := by decide
theorem test_modulate565_mixed :
    gives (.modulate565 0x6192 0x8410) (fresh small 0) (.word 0x30C9) = true := by decide

/-! ### The dirty tiles (95_test_vectors.md 2.2, the 32 × 32 display) -/

/-- Whether a mark leaves exactly the flags of the given flat indices. -/
def marks (x y w h : BitVec 32) (ns : List Nat) : Bool :=
  meets (exec (.markDirtyRect x y w h) State.reset) fun t =>
    decide (dirtySet t = ns ∧ t.events = [] ∧ t.lastError = 0)

theorem test_mark_clipped_and_straddling :
    marks (-5) (-5) 6 6 [0] = true ∧ marks 7 7 2 2 [0, 1, 4, 5] = true ∧ marks 31 0 1 32 [3, 7, 11, 15] = true ∧
      marks 9 9 1 1 [5] = true ∧ marks 30 30 10 10 [15] = true := by decide
theorem test_mark_nothing :
    marks 100 0 5 5 [] = true ∧ marks (-1) (-1) 1 1 [] = true ∧ marks 0 0 (-3) 5 [] = true ∧
      marks (-2147483648) 0 2147483647 1 [] = true ∧ marks 2147483647 0 2147483647 1 [] = true := by decide
theorem test_mark_all : meets (exec .markAll State.reset) (fun t => decide (dirtySet t = List.range 16)) = true := by
  decide

/-- As T2 on a 4 × 4 display of 2 × 2 tiles: the tiles go out in row-major order, with FB's words. -/
theorem test_flush_order :
    meets (exec .flush (marked [1, 2] (ready tiled 24))) (fun t =>
      decide (t.results = [.ok (.flushed 2 16)] ∧ t.lastFlushTiles = 2 ∧ t.lastFlushBytes = 16 ∧ dirtySet t = [] ∧
        issued (ready tiled 24) t =
          [.gpio .dc 0, .cmd 0x2A, .gpio .dc 1, .data [0, 2, 0, 3], .gpio .dc 0, .cmd 0x2B, .gpio .dc 1,
           .data [0, 0, 0, 1], .gpio .dc 0, .cmd 0x2C, .gpio .dc 1, .data [0, 2, 0, 3, 0, 6, 0, 7],
           .gpio .dc 0, .cmd 0x2A, .gpio .dc 1, .data [0, 0, 0, 1], .gpio .dc 0, .cmd 0x2B, .gpio .dc 1,
           .data [0, 2, 0, 3], .gpio .dc 0, .cmd 0x2C, .gpio .dc 1, .data [0, 8, 0, 9, 0, 12, 0, 13]])) = true := by
  decide

/-- As T6: an error in the second tile keeps its flag and the later ones. -/
theorem test_flush_error :
    meets (exec .flush { marked [0, 1, 2, 3] (ready tiled 0) with answers := good 13 ++ [.bad] }) (fun t =>
      decide (t.results = [.err (.transportWrite 1 none)] ∧ t.lastError = 2 ∧ t.drvState = .failed ∧
        t.lastFlushTiles = 1 ∧ t.lastFlushBytes = 8 ∧ dirtySet t = [1, 2, 3] ∧ t.events.length = 14)) = true := by
  decide

/-! ### The framer (95_test_vectors.md 2.3) -/

/-- F2. -/
theorem test_push_rect_chunks :
    meets (exec (.pushRect 0 0 2 1 [0xF800, 0x001F]) (ready { small with maxXfer := 3 } 20)) (fun t =>
      decide (t.results = [.ok .unit] ∧ issued (ready small 20) t =
        [.gpio .dc 0, .cmd 0x2A, .gpio .dc 1, .data [0, 0, 0], .data [1], .gpio .dc 0, .cmd 0x2B, .gpio .dc 1,
         .data [0, 0, 0], .data [0], .gpio .dc 0, .cmd 0x2C, .gpio .dc 1, .data [0xF8, 0, 0], .data [0x1F]])) =
      true := by decide

/-- F1's observer check. -/
theorem test_push_rect_panel :
    meets (exec (.pushRect 0 0 2 1 [0xF800, 0x001F]) (ready small 20)) (fun t =>
      decide (gramAt t.panel 0 0 = some 0xF800 ∧ gramAt t.panel 1 0 = some 0x001F ∧
        t.panel.colRange = some (0, 1) ∧ t.panel.rowRange = some (0, 0))) = true := by decide

/-- F6. -/
theorem test_push_rect_solid_range :
    meets (exec (.pushRectSolid 65530 0 10 1 0) (ready small 20)) (fun t =>
      decide (t.results = [.err (.invalidArgument .windowRange)] ∧ t.lastError = 4 ∧ t.events = [] ∧
        t.drvState = .ready)) = true := by decide

/-- F12. -/
theorem test_push_rect_solid :
    meets (exec (.pushRectSolid 0 0 2 1 0xF800) (ready small 20)) (fun t =>
      decide ((issued (ready small 20) t).drop 8 =
        [.gpio .dc 0, .cmd 0x2C, .gpio .dc 1, .data [0xF8, 0x00, 0xF8, 0x00]])) = true := by decide

/-- A block in an operation that has come to the wire command `i`. -/
def comeTo (i : Instr) : State := { ready small 10 with due := some i }

/-- What a wire command that an operation has come to puts on the wire. -/
def sends (i : Instr) (items : List TraceItem) : Bool :=
  meets (exec i (comeTo i)) fun t =>
    decide (t.results = [] ∧ t.due = none ∧ issued (comeTo i) t = items)

/-- R59, R67, R103: whether a wire command that no operation has come to is sent from READY. -/
def silent (i : Instr) : Bool :=
  meets (exec i (ready small 10)) fun t => decide (t.events = [] ∧ t.lastError = 3 ∧ t.drvState = .ready)

theorem test_wire_not_due :
    silent .invon = true ∧ silent (.ramwr [1]) = true ∧ silent (.panelCmd 0xFF [] 0) = true := by decide

/-- The waits and payloads of P1. -/
theorem test_swreset : sends .swreset [.gpio .dc 0, .cmd 0x01, .delay 150] = true := by decide
theorem test_slpout : sends .slpout [.gpio .dc 0, .cmd 0x11, .delay 120] = true := by decide
theorem test_colmod : sends .colmod [.gpio .dc 0, .cmd 0x3A, .gpio .dc 1, .data [0x05]] = true := by decide
/-- F4's window. -/
theorem test_caset :
    sends (.caset 250 259) [.gpio .dc 0, .cmd 0x2A, .gpio .dc 1, .data [0x00, 0xFA, 0x01, 0x03]] = true := by decide
theorem test_raset :
    sends (.raset 300 319) [.gpio .dc 0, .cmd 0x2B, .gpio .dc 1, .data [0x01, 0x2C, 0x01, 0x3F]] = true := by decide
theorem test_madctl : sends (.madctl 2) [.gpio .dc 0, .cmd 0x36, .gpio .dc 1, .data [0xC0]] = true := by decide
theorem test_ramwr :
    sends (.ramwr [0xF800, 0x001F])
      [.gpio .dc 0, .cmd 0x2C, .gpio .dc 1, .data [0xF8, 0x00, 0x00, 0x1F]] = true := by decide
theorem test_invon : sends .invon [.gpio .dc 0, .cmd 0x21] = true := by decide
theorem test_invoff : sends .invoff [.gpio .dc 0, .cmd 0x20] = true := by decide
theorem test_dispon : sends .dispon [.gpio .dc 0, .cmd 0x29] = true := by decide
/-- S3's table entries. -/
theorem test_panel_cmd :
    sends (.panelCmd 0xB1 [0x01, 0x2C, 0x2D] 0)
        [.gpio .dc 0, .cmd 0xB1, .gpio .dc 1, .data [0x01, 0x2C, 0x2D]] = true ∧
      sends (.panelCmd 0xC0 [] 10) [.gpio .dc 0, .cmd 0xC0, .delay 10] = true := by decide

/-! ### The sequencer (95_test_vectors.md 2.4, 2.5, P1) -/

/-- P1: the 39 events and the end state. -/
theorem test_init :
    meets (exec .init (fresh small 40)) (fun t =>
      decide (t.drvState = .ready ∧ t.lastError = 0 ∧ t.curRotation = some 0 ∧ t.dcLevel = some 1 ∧
        t.rstLevel = some 1 ∧ t.blLevel = none ∧ t.hBl = none ∧ issued (fresh small 40) t =
        [.openOf .spi, .openOf (.gpio .dc), .openOf (.gpio .rst),
         .gpio .rst 1, .delay 10, .gpio .rst 0, .delay 20, .gpio .rst 1, .delay 120,
         .gpio .dc 0, .cmd 0x01, .delay 150, .gpio .dc 0, .cmd 0x11, .delay 120,
         .gpio .dc 0, .cmd 0x3A, .gpio .dc 1, .data [0x05], .gpio .dc 0, .cmd 0x20,
         .gpio .dc 0, .cmd 0x36, .gpio .dc 1, .data [0x00], .gpio .dc 0, .cmd 0x29,
         .gpio .dc 0, .cmd 0x2A, .gpio .dc 1, .data [0, 0, 0, 1], .gpio .dc 0, .cmd 0x2B, .gpio .dc 1,
         .data [0, 0, 0, 1], .gpio .dc 0, .cmd 0x2C, .gpio .dc 1, .data [0, 0, 0, 0, 0, 0, 0, 0]])) = true := by
  decide

/-- E2: the open of RST fails. -/
theorem test_init_open_fails :
    meets (exec .init { fresh small 2 with answers := [.good 5, .good 6, .bad] }) (fun t =>
      decide (t.drvState = .failed ∧ t.lastError = 1 ∧ t.results = [.err (.configuration (.gpio .rst))] ∧
        t.hSpi = some 5 ∧ t.hDc = some 6 ∧ t.hRst = none ∧ t.events.length = 3)) = true := by decide

/-- S4. -/
theorem test_set_rotation :
    meets (exec (.setRotation 1) (ready small 10)) (fun t =>
      decide (t.curRotation = some 1 ∧
        issued (ready small 10) t = [.gpio .dc 0, .cmd 0x36, .gpio .dc 1, .data [0x20]])) = true := by decide

/-- E4. -/
theorem test_set_rotation_fails :
    meets (exec (.setRotation 3) { ready small 0 with answers := [.good 0, .good 0, .bad] }) (fun t =>
      decide (t.lastError = 2 ∧ t.drvState = .failed ∧ t.dcLevel = none ∧ t.curRotation = some 0 ∧
        issued (ready small 0) t = [.gpio .dc 0, .cmd 0x36, .gpio .dc 1])) = true := by decide

/-- S7. -/
theorem test_set_backlight :
    meets (exec (.setBacklight true) (ready lit 1)) (fun t =>
      decide (t.blLevel = some 0 ∧ issued (ready lit 1) t = [.gpio .bl 0])) = true := by decide

/-- S6. -/
theorem test_set_backlight_absent :
    meets (exec (.setBacklight true) (ready small 0)) (fun t =>
      decide (t.results = [.ok .unit] ∧ t.events = [])) = true := by decide

/-- S9, with every release answered `Err`. -/
theorem test_dispose :
    meets (exec .dispose { ready lit 0 with answers := [.bad, .bad, .bad, .bad] }) (fun t =>
      decide (t.drvState = .disposed ∧ t.results = [.ok .unit] ∧ t.dcLevel = none ∧ t.rstLevel = none ∧
        t.hSpi = none ∧ t.hBl = none ∧
        issued (ready lit 0) t = [.closeSpi, .release .dc, .release .rst, .release .bl])) = true := by decide

/-- S11. -/
theorem test_dispose_uninit :
    meets (exec .dispose (fresh small 0)) (fun t => decide (t.drvState = .disposed ∧ t.events = [])) = true := by decide

/-- S15, S14. -/
theorem test_reserved_e :
    meets (exec .reservedE (fresh small 0)) (fun t => decide (t.lastError = 5 ∧ t.drvState = .uninit)) = true := by decide
theorem test_reserved_f :
    meets (exec .reservedF (ready small 0)) (fun t => decide (t.lastError = 5 ∧ t.drvState = .ready)) = true := by decide

/-! ### Steps -/

/-- A record is decoded and performed, and the input is taken. -/
theorem test_step_runs :
    meets (step { State.reset with inbox := [.op ⟨.host, [0x07]⟩, .blockReset] }) (fun t =>
      decide (dirtySet t = List.range 16 ∧ t.inbox = [.blockReset])) = true := by decide

/-- The word of a table row runs as the first instruction after reset. -/
theorem test_step_table_word :
    meets (step (State.reset.withFetchWord 8 0x0F)) (fun t => decide (t.lastError = 5 ∧ t.inbox = [])) = true := by
  decide

/-! ### A state that meets each statement's hypotheses

A `PanelIsNeverRead` or a frame statement asks only that an instruction ends in a next state; `test_flush_order`,
`test_push_rect_panel` and the others above are such runs. -/

theorem witness_mark (s : State) (h : s = State.reset) :
    s.cfg.wf = true ∧ s.dirty.length = tileCount s.cfg ∧ (3 : Nat) < tilesX s.cfg ∧ (3 : Nat) < tilesY s.cfg := by
  subst h; decide

theorem witness_marking : (Instr.markAll = .markAll ∨ ∃ x y w h, Instr.markAll = .markDirtyRect x y w h) := .inl rfl

/-- The last, clipped tile and the last pixel of T3's 30 × 20 display. -/
theorem witness_tile_rect :
    (Cfg.reference 30 20).wf = true ∧ 3 < tilesX (Cfg.reference 30 20) ∧ 2 < tilesY (Cfg.reference 30 20) ∧
      29 < (Cfg.reference 30 20).panelW.toNat ∧ 19 < (Cfg.reference 30 20).panelH.toNat ∧
      tileRect (Cfg.reference 30 20) 3 2 = ⟨24, 16, 6, 4⟩ := by decide

theorem witness_extract : (1 : Nat) < (tileRect tiled 1 1).w ∧ (1 : Nat) < (tileRect tiled 1 1).h := by decide

/-- Good answers as a Bool, for the witnesses. -/
def answersGood (k : Nat) (s : State) : Bool :=
  decide (k ≤ s.answers.length) && (s.answers.take k).all fun a =>
    match a with
    | .good _ => true
    | .short _ => false
    | .bad => false

theorem answersGood_spec {k : Nat} {s : State} (h : answersGood k s = true) : AnswersGood k s := by
  unfold answersGood at h
  rw [Bool.and_eq_true, decide_eq_true_eq, List.all_eq_true] at h
  refine ⟨h.1, fun a ha => ?_⟩
  have := h.2 a ha
  cases a with
  | good v => exact ⟨v, rfl⟩
  | short n => cases this
  | bad => cases this

theorem witness_flush_sends (s : State) (h : s = marked [1, 2] (ready tiled 24)) :
    s.cfg.wf = true ∧ s.dirty.length = tileCount s.cfg ∧ s.drvState = .ready ∧
      (∀ n ∈ dirtyTiles s, tileFits s.cfg n) ∧
      AnswersGood ((dirtyTiles s).map fun n => rectDraws s.cfg (tilePixels s.cfg n)).sum s := by
  subst h
  refine ⟨by decide, by decide, by decide, ?_, answersGood_spec (by decide)⟩
  unfold tileFits fits
  decide

theorem witness_flush_clean : dirtyTiles State.reset = [] := by decide

theorem witness_flush_bytes :
    ∃ t n b, (marked [1, 2] (ready tiled 24)).cfg.wf = true ∧
      (marked [1, 2] (ready tiled 24)).dirty.length = tileCount (marked [1, 2] (ready tiled 24)).cfg ∧
      exec .flush (marked [1, 2] (ready tiled 24)) = .next t ∧
      t.results = (marked [1, 2] (ready tiled 24)).results ++ [.ok (.flushed n b)] := by
  obtain ⟨t, h, hp⟩ := next_of_meets (o := exec .flush (marked [1, 2] (ready tiled 24)))
    (p := fun t => decide (t.results = [.ok (.flushed 2 16)])) (by decide)
  exact ⟨t, 2, 16, by decide, by decide, h, of_decide_eq_true hp⟩

/-- The second clause: MARK_ALL and then FLUSH. -/
theorem witness_flush_all :
    ∃ t u, exec .markAll (ready tiled 48) = .next t ∧ exec .flush t = .next u ∧
      u.results = t.results ++ [.ok (.flushed 4 32)] := by
  obtain ⟨u, h, hp⟩ := next_of_meets
    (o := exec .flush { ready tiled 48 with
      dirty := List.replicate 4 true, lastError := 0, results := [.ok .unit] })
    (p := fun u => decide (u.results = [.ok .unit, .ok (.flushed 4 32)])) (by decide)
  exact ⟨_, u, rfl, h, of_decide_eq_true hp⟩

theorem witness_flush_stops :
    ∃ t, exec .flush { marked [0, 1, 2, 3] (ready tiled 0) with answers := good 13 ++ [.bad] } = .next t ∧
      t.results = [.err (.transportWrite 1 none)] := by
  obtain ⟨t, h, hp⟩ := next_of_meets
    (o := exec .flush { marked [0, 1, 2, 3] (ready tiled 0) with answers := good 13 ++ [.bad] })
    (p := fun t => decide (t.results = [.err (.transportWrite 1 none)])) (by decide)
  exact ⟨t, h, of_decide_eq_true hp⟩

/-- Chunks of an odd limit, and the even clause. -/
theorem witness_chunks :
    chunks 3 [1, 2, 3, 4] = [[1, 2, 3], [4]] ∧ chunks 2 [1, 2, 3, 4] = [[1, 2], [3, 4]] ∧
      (2 : Nat) % 2 = 0 ∧ [(1 : Byte), 2, 3, 4].length % 2 = 0 := by decide

/-- Whether a piece of an operation goes through. -/
def goes : Ctl → Bool
  | .go _ => true
  | .raise _ _ => false

theorem go_of_goes {c : Ctl} (h : goes c = true) : ∃ t, c = .go t := by
  cases c with
  | go t => exact ⟨t, rfl⟩
  | raise e t => cases h

theorem witness_data_phase : ∃ t, dataPhase [1, 2, 3, 4] (ready { small with maxXfer := 3 } 2) = .go t :=
  go_of_goes (by decide)

theorem witness_transfer :
    1 ≤ (ready small 20).cfg.maxXfer ∧ [(0xF800 : Word), 0x001F].length = 2 * 1 ∧
      ∃ t, pushRectBody (.host 0x1) 0 0 2 1 [0xF800, 0x001F] (ready small 20) = .go t :=
  ⟨by decide, by decide, go_of_goes (by decide)⟩

/-- F7: the last window that fits; F8: a zero width. -/
theorem witness_push_rect :
    (ready small 20).drvState = .ready ∧ (List.replicate 10 (0 : Word)).length = (10 : Word).toNat * (1 : Word).toNat ∧
      fits (ready small 20).cfg 65526 0 10 1 ∧ AnswersGood (rectDraws (ready small 20).cfg 10) (ready small 20) ∧
      ([] : List Word).length = (0 : Word).toNat * (3 : Word).toNat := by
  refine ⟨rfl, by decide, ?_, answersGood_spec (by decide), by decide⟩
  unfold fits; decide

/-- One past it, F10's count, F13's state. -/
theorem witness_push_rect_checks :
    ¬ fits (ready small 0).cfg 65527 0 10 1 ∧ (List.replicate 10 (0 : Word)).length = 10 * 1 ∧
      [(1 : Word), 2, 3].length ≠ (2 : Word).toNat * (2 : Word).toNat ∧ (fresh small 0).drvState ≠ .ready := by
  refine ⟨?_, by decide, by decide, by decide⟩
  unfold fits; decide

/-- E8: the pixel write, event 11 of the rectangle, answered 1 of 2 bytes. -/
theorem witness_push_rect_stops :
    ∃ e r err, (rectEntries (ready small 0) 0 0 1 1 [0])[11]? = some e ∧
      AnswersGood 11 { ready small 0 with answers := good 11 ++ [.short 1] } ∧
      (good 11 ++ [Answer.short 1])[11]? = some (.short 1) ∧
      failsWith e (.short 1) = some (r, err) ∧ fits (ready small 0).cfg 0 0 1 1 := by
  refine ⟨⟨.spiWrite (some 1) [0, 0], .count 2⟩, .count 1, .transportWrite 2 (some 1), by decide,
    answersGood_spec (by decide), by decide, by decide, ?_⟩
  unfold fits; decide

theorem witness_wire :
    wireCommand (comeTo (.madctl 2)).cfg (.madctl 2) = some (0x36, [0xC0], 0) ∧ (comeTo (.madctl 2)).due = some (.madctl 2) ∧
      AnswersGood (commandDraws (comeTo (.madctl 2)).cfg 1) (comeTo (.madctl 2)) ∧
      (comeTo (.madctl 1)).due ≠ some (.madctl 2) ∧ (ready small 4).due ≠ some (.madctl 2) :=
  ⟨by decide, rfl, answersGood_spec (by decide), by decide, by decide⟩

theorem witness_window :
    (comeTo (.caset 0 65535)).due = some (.caset 0 65535) ∧
      AnswersGood (commandDraws (comeTo (.caset 0 65535)).cfg 4) (comeTo (.caset 0 65535)) ∧
      AnswersGood (commandDraws (comeTo (.raset 0 0)).cfg 4) (comeTo (.raset 0 0)) ∧
      AnswersGood 2 { comeTo (.ramwr []) with panel := ⟨some (0, 1), some (0, 1), none, none, [], []⟩ } :=
  ⟨rfl, answersGood_spec (by decide), answersGood_spec (by decide), answersGood_spec (by decide)⟩

/-- The window's last place: the last column of the last row. -/
theorem witness_observer (p : Panel) (h : p = ⟨some (0, 1), some (0, 1), some (1, 1), some 0x2C, [], []⟩) :
    p.colRange = some (0, 1) ∧ p.rowRange = some (0, 1) ∧ p.cur = some 0x2C ∧ p.acc.length % 2 = 0 ∧
      p.ptr = some (1, 1) ∧ 1 ≤ 1 ∧
      gramAt (panelTransaction small 0 (some 1) [0x12, 0x34] p) 1 1 = some 0x1234 ∧
      (panelTransaction small 0 (some 1) [0x12, 0x34] p).ptr = some (0, 2) := by
  subst h; decide

theorem witness_init :
    (fresh lit 60).cfg.wf = true ∧ (fresh lit 60).drvState = .uninit ∧
      fits (fresh lit 60).cfg 0 0 (fresh lit 60).cfg.panelW.toNat (fresh lit 60).cfg.panelH.toNat ∧
      AnswersGood ((openOrder (fresh lit 60).cfg).length + bringUpDraws (fresh lit 60).cfg +
        rectDraws (fresh lit 60).cfg ((fresh lit 60).cfg.panelW.toNat * (fresh lit 60).cfg.panelH.toNat))
        (fresh lit 60) := by
  refine ⟨by decide, rfl, ?_, answersGood_spec (by decide)⟩
  unfold fits; decide

theorem witness_init_wire :
    ∃ t, exec .init (fresh lit 60) = .next t ∧ t.results = (fresh lit 60).results ++ [.ok .unit] := by
  obtain ⟨t, h, hp⟩ := next_of_meets (o := exec .init (fresh lit 60))
    (p := fun t => decide (t.results = [.ok .unit])) (by decide)
  exact ⟨t, h, of_decide_eq_true hp⟩

/-- The first and the last open, and E5's column offset. -/
theorem witness_init_failures :
    (openOrder lit)[0]? = some .spi ∧ AnswersGood 0 { fresh lit 0 with answers := [.bad] } ∧
      (openOrder lit)[3]? = some (.gpio .bl) ∧ AnswersGood 3 { fresh lit 0 with answers := good 3 ++ [.short 0] } ∧
      (good 3 ++ [Answer.short 0])[3]? = some (.short 0) ∧
      ({ small with colOffset := 65535 } : Cfg).wf = true ∧
      ¬ fits { small with colOffset := 65535 } 0 0 2 2 ∧
      AnswersGood ((openOrder { small with colOffset := 65535 }).length +
        bringUpDraws { small with colOffset := 65535 }) (fresh { small with colOffset := 65535 } 60) := by
  refine ⟨by decide, answersGood_spec (by decide), by decide, answersGood_spec (by decide), by decide, by decide, ?_,
    answersGood_spec (by decide)⟩
  unfold fits; decide

/-- P3, E3: the write of SLPOUT, event 10 of steps 2 to 11, answered 0; and the last event of all. -/
theorem witness_init_stops :
    (let u := withHandles (fresh small 0) 3
     let new := bringUpEntries u ++ rectEntries u 0 0 2 2 (clearPixels small)
     (new[10]? = some (writeEntry u [0x11]) ∧ (new.take 10).countP drawsAnswer = 6 ∧
       failsWith (writeEntry u [0x11]) (.short 0) = some (.count 0, .transportWrite 1 (some 0))) ∧
     new.length = 36 ∧ (new.take 35).countP drawsAnswer = 30 ∧ (beforeDispon u).length ≤ 35) ∧
      AnswersGood (3 + 6) { fresh small 0 with answers := good 9 ++ [.short 0] } ∧
      (good 9 ++ [Answer.short 0])[9]? = some (.short 0) ∧
      fits small 0 0 small.panelW.toNat small.panelH.toNat := by
  refine ⟨by decide, answersGood_spec (by decide), by decide, ?_⟩
  unfold fits; decide

/-- E3: INIT's end state there. -/
theorem test_init_stops :
    meets (exec .init { fresh small 0 with answers := good 9 ++ [.short 0] }) (fun t =>
      decide (t.drvState = .failed ∧ t.lastError = 2 ∧ t.hRst = some 0 ∧ t.events.length = 14 ∧
        t.results = [.err (.transportWrite 1 (some 0))])) = true := by decide

/-- Between operations, an operation that sends commands. -/
theorem witness_commands : (ready small 4).due = none ∧ ∃ t, exec (.setRotation 1) (ready small 4) = .next t := by
  refine ⟨rfl, ?_⟩
  obtain ⟨t, h, -⟩ := next_of_meets (o := exec (.setRotation 1) (ready small 4)) (p := fun _ => true) (by decide)
  exact ⟨t, h⟩

theorem witness_set_rotation :
    AnswersGood (commandDraws (ready small 4).cfg 1) (ready small 4) ∧
      ∃ t, exec (.setRotation 3) { ready small 0 with answers := [.good 0, .good 0, .bad] } = .next t ∧
        t.results = [.err (.transportLine .dc)] := by
  refine ⟨answersGood_spec (by decide), ?_⟩
  obtain ⟨t, h, hp⟩ := next_of_meets
    (o := exec (.setRotation 3) { ready small 0 with answers := [.good 0, .good 0, .bad] })
    (p := fun t => decide (t.results = [.err (.transportLine .dc)])) (by decide)
  exact ⟨t, h, of_decide_eq_true hp⟩

theorem witness_set_backlight :
    (ready lit 1).cfg.blLine = some 18 ∧ AnswersGood 1 (ready lit 1) ∧ (ready small 0).cfg.blLine = none ∧
      { ready lit 0 with answers := [Answer.bad] }.answers = .bad :: [] ∧ ∀ v, Answer.bad ≠ .good v :=
  ⟨rfl, answersGood_spec (by decide), rfl, rfl, fun _ h => nomatch h⟩

theorem witness_state_check :
    hostCode (.setRotation 1) = some 0x3 ∧ accepts (.setRotation 1) (failed small).drvState = false ∧
      (failed small).drvState ≠ .ready ∧ dirtyTiles (marked [0] (failed small)) ≠ [] ∧
      hostCode .dispose = some 0x5 ∧ accepts .dispose (failed small).drvState = true ∧
      accepts .init (fresh small 0).drvState = true ∧ (∃ t, exec .dispose (failed small) = .next t) :=
  ⟨by decide, by decide, by decide, by decide, by decide, by decide, by decide, _, rfl⟩

theorem witness_transitions :
    ∃ t, hostCode (.setRotation 3) = some 0x3 ∧
      exec (.setRotation 3) { ready small 0 with answers := [.good 0, .good 0, .bad] } = .next t ∧
      t.results = (ready small 0).results ++ [.err (.transportLine .dc)] ∧
      isTransportError (.err (.transportLine .dc)) = true := by
  obtain ⟨_, t, h, hr⟩ := witness_set_rotation
  exact ⟨t, by decide, h, hr, rfl⟩

/-- An operation outside READY that ends in a next state, for SilentOutsideReady. -/
theorem witness_silent :
    (failed small).due = none ∧ (failed small).drvState ≠ .ready ∧ ∃ t, exec (.pushRectSolid 0 0 1 1 0) (failed small) = .next t :=
  ⟨rfl, by decide, _, rfl⟩

/-- A host operation and a wire command that is not due, each of which leaves DC_LEVEL, for RegistersHaveTheirWriters. -/
theorem witness_dc_left :
    (hostCode (.setBacklight true) = some 0x4 ∧ ∃ t, exec (.setBacklight true) (ready lit 1) = .next t) ∧
      hostCode (.caset 0 1) = none ∧ (ready lit 1).due ≠ some (.caset 0 1) ∧
      ∃ t, exec (.caset 0 1) (ready lit 1) = .next t := by
  obtain ⟨t, h, -⟩ := next_of_meets (o := exec (.setBacklight true) (ready lit 1)) (p := fun _ => true) (by decide)
  exact ⟨⟨by decide, t, h⟩, by decide, by decide, _, rfl⟩

/-- Two frame buffers that agree on the dirty tile and differ elsewhere, for OnlyFlushReadsFrameBuffer. -/
theorem witness_flush_reads :
    (∀ n ∈ dirtyTiles (marked [1] (ready tiled 12)),
      ∀ a ∈ rectIndices tiled (tileRectAt tiled n),
        memRead { marked [1] (ready tiled 12) with fb := [(2, 2), (3, 3), (6, 6), (7, 7)] } a =
          memRead (marked [1] (ready tiled 12)) a) ∧
      (marked [1] (ready tiled 12)).fb ≠ [(2, 2), (3, 3), (6, 6), (7, 7)] ∧
      ∃ t, exec .flush (marked [1] (ready tiled 12)) = .next t := by
  refine ⟨by decide, by decide, ?_⟩
  obtain ⟨t, h, -⟩ := next_of_meets (o := exec .flush (marked [1] (ready tiled 12))) (p := fun _ => true) (by decide)
  exact ⟨t, h⟩

theorem witness_rotation_recorded :
    ∃ t, exec (.setRotation 1) (ready small 4) = .next t ∧ t.curRotation ≠ (ready small 4).curRotation := by
  obtain ⟨t, h, hp⟩ := next_of_meets (o := exec (.setRotation 1) (ready small 4))
    (p := fun t => decide (t.curRotation ≠ some 0)) (by decide)
  exact ⟨t, h, of_decide_eq_true hp⟩

/-- A step that answers a next state. -/
theorem witness_step : ∃ t, step { ready small 4 with inbox := [.op ⟨.host, [0x03, 0x01]⟩] } = .next t := by
  obtain ⟨t, h, -⟩ := next_of_meets (o := step { ready small 4 with inbox := [.op ⟨.host, [0x03, 0x01]⟩] })
    (p := fun _ => true) (by decide)
  exact ⟨t, h⟩

theorem witness_block_reset :
    { fresh small 0 with inbox := [Input.blockReset] }.cfg.wf = true ∧ (fresh small 0).drvState = .uninit ∧
      ({ fresh small 0 with drvState := .disposed } : State).drvState = .disposed ∧
      (ready small 0).drvState = .ready ∧ (failed small).drvState = .failed := by decide

theorem witness_power_on : (Cfg.reference 1 1).wf = true ∧ { small with maxXfer := 0 }.wf = false := by decide

/-- The last pixel of the display and the first index past it. -/
theorem witness_host_write :
    { fresh small 0 with inbox := [Input.fbWrite 3 7] }.cfg.wf = true ∧
      3 < (fresh small 0).cfg.panelW.toNat * (fresh small 0).cfg.panelH.toNat ∧
      (fresh small 0).cfg.panelW.toNat * (fresh small 0).cfg.panelH.toNat ≤ 4 := by decide

theorem witness_step_decodes :
    decode ⟨.host, [0x03, 0x01]⟩ = .ok (.setRotation 1) ∧ decode ⟨.host, [0x03]⟩ = .error (.wrongLength 0x03) ∧
      decodeTableWord 8 0x21 = some .invon := by decide

theorem witness_wf_instr : (Instr.panelCmd 0xB1 [0x01, 0x2C, 0x2D] 0).wf = true ∧ Instr.init.wf = true := by decide

theorem witness_host_decode :
    decode ⟨.host, 0xF7 :: []⟩ = .ok .markAll ∧ hostCode .markAll = some ((0xF7 : Byte).extractLsb' 0 4) := by decide

/-! ### The invariant holds of a state that a step leaves in READY -/

/-- A block in READY whose history is what brought its handles and levels about, with a rotation to come. -/
def steady : State :=
  { ready small 4 with
    events := [⟨.spiOpen "/dev/spidev0.0" 0 8 32000000, .handle 1⟩, ⟨.gpioOpen .dc "gpiochip0" 24 "dc", .handle 2⟩,
      ⟨.gpioOpen .rst "gpiochip0" 25 "rst", .handle 3⟩, ⟨.gpioSet .rst (some 3) 1, .ok⟩,
      ⟨.gpioSet .dc (some 2) 0, .ok⟩, ⟨.spiWrite (some 1) [0x36], .count 1⟩, ⟨.gpioSet .dc (some 2) 1, .ok⟩,
      ⟨.spiWrite (some 1) [0x00], .count 1⟩]
    fb := [(0, 5), (3, 9)]
    inbox := [.op ⟨.host, [0x03, 0x01]⟩] }

theorem steady_inv : Inv steady where
  memory := ⟨by decide, by decide, by decide⟩
  grid := ⟨by decide, by decide⟩
  handles := ⟨by decide, by decide⟩
  rotation := ⟨by decide, by decide⟩
  levels := by intro L; cases L <;> decide
  history := by unfold LevelMatchesHistory; decide
  writes := by
    intro e he h bytes hev
    simp only [steady, List.mem_cons, List.not_mem_nil, or_false] at he
    rcases he with rfl | rfl | rfl | rfl | rfl | rfl | rfl | rfl <;> try cases hev
    all_goals decide
  framed := by unfold TransactionsFramed; decide
  balanced := by
    intro r
    rcases r with _ | L
    · decide
    · cases L <;> decide
  code := by unfold ErrorCodeLegal; decide
  due := rfl

/-- What the StepKeeps statements and DisposeBalancesReleases ask for. -/
theorem witness_invariant : Inv steady ∧ ∃ t, step steady = .next t := by
  refine ⟨steady_inv, ?_⟩
  obtain ⟨t, h, -⟩ := next_of_meets (o := step steady) (p := fun _ => true) (by decide)
  exact ⟨t, h⟩

end Sys2Proof.Tests
end

section
/-! PROOFS. What holds after every step because every act keeps it (spec/00_scope.md R13, R16): the discipline of the wire, and
that no wire command is left due. -/

namespace Sys2Proof.Proofs

open Sys2Proof.Machine Sys2Proof.Safety

/-! ### One step, for a property that every act keeps -/

/-- No invariant speaks of the host's inputs still to come. -/
theorem inv_withInbox {s : State} (h : Inv s) (rest : List Input) : Inv { s with inbox := rest } :=
  ⟨h.memory, h.grid, h.handles, h.rotation, h.levels, h.history, h.writes, h.framed, h.balanced, h.code, h.due⟩

/-- From a state of the invariant, an instruction keeps what every act keeps. -/
theorem exec_keeps_of_acts {P : State → Prop} (act : ∀ s t, Act s t → P s → P t) (i : Instr) {s t : State} (h : Inv s)
    (ht : exec i s = .next t) (hp : P s) : P t :=
  (exec_acts i h.handles h.due (wfFacts h.grid.1).xfer ht).keeps act hp

/-- The step of an invariant: it is enough that `P` does not speak of the inputs, and that every act, every host write and
every block reset that is accepted keep it. -/
theorem step_keeps_of_acts {P : State → Prop} (inbox : ∀ s rest, P s → P { s with inbox := rest })
    (act : ∀ s t, Act s t → P s → P t)
    (write : ∀ s a v, a < pixelCount s.cfg → P s → P { s with fb := Memory.write s.fb a v })
    (reset : ∀ s, Safety.Inv s → s.drvState = .uninit ∨ s.drvState = .disposed → P s → P (resetBlock s))
    {s t : State} (h : Inv s) (ht : step s = .next t) (hp : P s) : P t := by
  obtain ⟨-, rfl | ⟨rest, ⟨i, hi⟩ | ⟨a, v, ha, rfl⟩ | ⟨hd, rfl⟩⟩⟩ := step_cases ht
  · exact hp
  · exact exec_keeps_of_acts act i (inv_withInbox h rest) hi (inbox s rest hp)
  · exact write { s with inbox := rest } a v ha (inbox s rest hp)
  · exact reset { s with inbox := rest } (inv_withInbox h rest) hd (inbox s rest hp)

/-! ### The discipline of the wire (R13, R40, R56, R57, R151) -/

/-- `DC_LEVEL` is the level last driven, and every write is bounded and framed. One property, since the framing of the next
transaction rests on `DC_LEVEL` being right. -/
def WireDiscipline (s : State) : Prop := LevelMatchesHistory s ∧ WritesBounded s ∧ TransactionsFramed s

theorem act_wireDiscipline {s t : State} (a : Act s t) : WireDiscipline s → WireDiscipline t := by
  rintro ⟨level, writes, framed⟩
  exact ⟨act_history a level, act_writes a writes, act_framed a level framed⟩

/-- R24: where no handle is held, `DC_LEVEL` is unknown. -/
theorem dcLevel_eq_none_of_unheld {s : State} (h : Inv s) (hd : s.drvState = .uninit ∨ s.drvState = .disposed) :
    s.dcLevel = none := by
  obtain ⟨-, hDc, -, -⟩ := h.handles.1 hd
  have owned : s.dcLevel.isSome = true → s.hDc.isSome = true := h.levels .dc
  simpa [hDc] using owned

/-- Block reset makes `DC_LEVEL` unknown and keeps the history; where it is accepted the level is unknown already. -/
theorem resetBlock_wireDiscipline {s : State} (h : Inv s) (hd : s.drvState = .uninit ∨ s.drvState = .disposed) :
    WireDiscipline s → WireDiscipline (resetBlock s) := by
  rintro ⟨level, writes, framed⟩
  exact ⟨level.trans (dcLevel_eq_none_of_unheld h hd), writes, framed⟩

/-- Settles O53: every act keeps the discipline, and block reset finds the DC line released. -/
theorem stepKeepsWireDiscipline : Obligations.StepKeepsWireDiscipline := fun _ _ h ht =>
  step_keeps_of_acts (P := WireDiscipline) (fun _ _ hp => hp) (fun _ _ => act_wireDiscipline) (fun _ _ _ _ hp => hp)
    (fun _ => resetBlock_wireDiscipline) h ht ⟨h.history, h.writes, h.framed⟩

/-! ### No operation is left in progress (R5, R16, R41) -/

/-- With nothing due a wire command is turned away, and a host operation puts back the `due` it found. -/
theorem exec_nothingDue (i : Instr) {s t : State} (hd : NothingDue s) (ht : exec i s = .next t) : NothingDue t := by
  have hnone : s.due = none := hd
  cases hw : Claims.wireCommand s.cfg i with
  | none => exact (exec_due i hw ht).trans hd
  | some c =>
    rw [exec_wire_not_due i hw (by simp [hnone])] at ht
    obtain rfl := Host.Outcome.next.inj ht
    exact (takeError_due _ _ _).trans hd

/-- Settles O55: an instruction starts and ends with nothing due, a host write does not touch `due`, and block reset clears it. -/
theorem stepLeavesNothingDue : Obligations.StepLeavesNothingDue := by
  intro s t h ht
  obtain ⟨-, rfl | ⟨rest, ⟨i, hi⟩ | ⟨a, v, -, rfl⟩ | ⟨-, rfl⟩⟩⟩ := step_cases ht
  · exact h.due
  · exact exec_nothingDue i (inv_withInbox h rest).due hi
  · exact h.due
  · exact resetBlock_due _

end Sys2Proof.Proofs
end

section
/-! PROOFS. How a property goes through the parts that operations are made of: the opens of INIT, FLUSH's loop, and the end of an
operation (spec/43_sequencer.md R116, 41_dirty_tiles.md R85, 60_exceptions.md R125, R130). -/

namespace Sys2Proof.Proofs

open Sys2Proof.Machine

/-- R116, step 1: acquiring the resources ends as its opens do. -/
theorem acquire_of_open {G : State → Prop} {B : OpError → State → Prop}
    (open_ends : ∀ (r : Resource) (s : State), G s → (openRes r s).Ends G B) {s : State} (h : G s) : (acquire s).Ends G B := by
  rw [acquire_eq]
  refine (((open_ends _ s h).bind (open_ends _) (fun _ _ k => k)).bind (open_ends _) (fun _ _ k => k)).bind ?_ (fun _ _ k => k)
  intro t k
  split
  · exact open_ends _ t k
  · exact k

/-- R85: FLUSH's loop ends as its rectangles do, where the note of a serviced tile keeps what a rectangle starts from. -/
theorem flushTiles_of_body {G : State → Prop} {B : OpError → State → Prop}
    (body : ∀ s (r : Rect), G s → (pushRectBody (.host 0x8) r.x r.y r.w r.h (extractRect r s) s).Ends G B)
    (serviced : ∀ s n r, G s → G (tileServiced n r s)) (ns : List Nat) : ∀ s, G s → (flushTiles ns s).Ends G B := by
  induction ns with
  | nil => exact fun s h => h
  | cons n ns ih =>
    intro s h
    refine Ctl.Ends.bind (G := G) (B := B) ?_ ih (fun _ _ k => k)
    unfold flushTile
    split
    · exact (body s _ h).bind (fun t k => serviced t n _ k) (fun _ _ k => k)
    · exact h

/-- A property that neither success nor an error touches. -/
structure KeptByEnd (P : State → Prop) : Prop where
  succeed : ∀ (v : Value) (s : State), P s → P (succeed v s)
  takeError : ∀ (b : Bool) (e : OpError) (s : State), P s → P (takeError b e s)

section
variable {P : State → Prop} {s t : State}

theorem KeptByEnd.finish (k : KeptByEnd P) {b : Bool} {v : State → Value} {x : Ctl} (h : x.Ends P fun _ => P)
    (ht : finish b v x = .next t) : P t := by
  cases x with
  | go u => obtain rfl := Host.Outcome.next.inj ht; exact k.succeed _ u h
  | raise e u => obtain rfl := Host.Outcome.next.inj ht; exact k.takeError b e u h

theorem KeptByEnd.endRow (k : KeptByEnd P) {x : Ctl} (h : x.Ends P fun _ => P) (ht : endRow x = .next t) : P t := by
  cases x with
  | go u => obtain rfl := Host.Outcome.next.inj ht; exact h
  | raise e u => obtain rfl := Host.Outcome.next.inj ht; exact k.takeError false e u h

theorem KeptByEnd.whenReady (k : KeptByEnd P) (h : P s) {tag : OpTag} {body : State → Ctl}
    (hb : s.drvState = .ready → (body s).Ends P fun _ => P) (ht : whenReady tag body s = .next t) : P t := by
  unfold Machine.whenReady at ht
  split at ht
  · exact k.finish (hb ‹_›) ht
  · obtain rfl := Host.Outcome.next.inj ht
    exact k.takeError _ _ s h

end

end Sys2Proof.Proofs
end

section
/-! PROOFS. What the driver state says of the handles, the levels and the rotation on record, after every step
(spec/10_state.md R19, R20, R23, R24), and that the invariant holds at reset (R31, R145). -/

namespace Sys2Proof.Proofs

open Sys2Proof.Machine Sys2Proof.Safety

/-- What the driver state says of the handles and of the rotation on record. -/
def Owned (s : State) : Prop := HandlesOwned s ∧ RotationKnown s

/-- In FAILED nothing is asked. -/
theorem owned_of_failed {s : State} (h : s.drvState = .failed) : Owned s := by
  simp [Owned, HandlesOwned, RotationKnown, h]

/-- In DISPOSED every handle is given back. -/
theorem owned_of_disposed {s : State} (h : s.drvState = .disposed) (spi : s.hSpi = none) (dc : s.hDc = none)
    (rst : s.hRst = none) (bl : s.hBl = none) : Owned s := by
  simp [Owned, HandlesOwned, RotationKnown, h, spi, dc, rst, bl]

/-- In READY the resources are held and a rotation is on record. -/
theorem owned_of_ready {s : State} (h : s.drvState = .ready) (spi : s.hSpi.isSome = true) (dc : s.hDc.isSome = true)
    (rst : s.hRst.isSome = true) (bl : s.hBl.isSome = hasBl s.cfg) (rotation : s.curRotation.isSome = true) : Owned s := by
  simp [Owned, HandlesOwned, RotationKnown, h, spi, dc, rst, bl, rotation]

/-! ### What the parts of an operation keep -/

/-- R130: an error sets FAILED, or it leaves what the driver state speaks of. -/
theorem owned_takeError (b : Bool) (e : OpError) {s : State} (h : Owned s) : Owned (takeError b e s) := by
  unfold takeError
  split
  · exact owned_of_failed rfl
  · exact h

theorem owned_keptByEnd : KeptByEnd Owned := ⟨fun _ _ h => h, fun b e _ => owned_takeError b e⟩

/-- Once a rotation is on record, no change takes it off. -/
theorem change_rotation {s t : State} (a : Change s t) : s.curRotation.isSome = true → t.curRotation.isSome = true := by
  cases a with
  | level L => cases L <;> exact id
  | handle L => cases L <;> exact id
  | rotated r => exact fun _ => rfl
  | _ => exact id

/-- A sequence that leaves the handles, the driver state and `due` alone, and makes changes only. -/
def Quiet (s : State) (x : Ctl) : Prop := x.Ends (Steady s) (fun _ => Steady s) ∧ OnlyChanges s x

theorem quiet_prims (ps : List Prim) (s : State) : Quiet s (runPrims ps s) :=
  ⟨(runPrims_steady ps s).mono (fun _ k => k) (fun _ _ k => k.1), changes_prims ps s⟩

theorem quiet_setLine (L : Line) (l : Bit) (s : State) : Quiet s (setLine L l s) :=
  ⟨(setLine_steady L l s).mono (fun _ k => k) (fun _ _ k => k.1), changes_setLine L l s⟩

/-- Such a sequence in READY keeps the handles, and a rotation stays on record. -/
theorem Quiet.owned {s : State} {x : Ctl} (q : Quiet s x) (hr : s.drvState = .ready) (h : Owned s) :
    x.Ends Owned fun _ => Owned := by
  obtain ⟨spi, dc, rst, bl⟩ := h.1.2 hr
  have key : ∀ t, Steady s t → Changed s t → Owned t := fun t st ch =>
    owned_of_ready (st.drvState.trans hr) (by rw [st.hSpi, spi]) (by rw [st.hDc, dc]) (by rw [st.hRst, rst])
      (by rw [st.hBl, st.cfg, bl]) (ch.keeps (fun _ _ => change_rotation) (h.2.2 hr))
  obtain ⟨steady, changes⟩ := q
  cases x with
  | go t => exact key t steady changes
  | raise e t => exact key t steady changes

/-- R107: outside READY a rectangle is turned away at once; in READY it is a framing sequence. -/
theorem pushRectBody_owned (tag : OpTag) (x y w h : Nat) (src : List Word) {s : State} (ho : Owned s) :
    (pushRectBody tag x y w h src s).Ends Owned fun _ => Owned := by
  by_cases hr : s.drvState = .ready
  · exact Quiet.owned ⟨pushRectBody_steady tag x y w h src s, changes_body tag x y w h src s⟩ hr ho
  · rw [pushRectBody_eq, if_pos hr]
    exact ho

/-! ### INIT and DISPOSE -/

/-- R116, step 8, R20: after the bring-up the configured rotation is on record. -/
theorem bringUp_records (s : State) : (bringUp s).Ends (fun t => t.curRotation = some s.cfg.rotation) fun _ _ => True := by
  rw [bringUp_prims]
  cases h : runPrims (bringUpPrims s.cfg) s with
  | go t => rw [Ctl.ends_go, runPrims_go _ h, foldl_afterPrim_rotation, bringUp_rotation]
  | raise e t => trivial

/-- After the whole of INIT a rotation is on record. -/
theorem initBody_records (s : State) : (initBody s).Ends (fun t => t.curRotation.isSome = true) fun _ _ => True := by
  unfold initBody
  refine Ctl.Ends.bind (G := fun t => t.curRotation.isSome = true) (B := fun _ _ => True) ?_ ?_ (fun _ _ _ => trivial)
  · cases acquire s with
    | go u => exact (bringUp_records u).mono (fun t k => by rw [k]; rfl) (fun _ _ _ => trivial)
    | raise e u => trivial
  · exact fun t ht => (changes_body _ _ _ _ _ _ _).mono (fun u k => k.keeps (fun _ _ => change_rotation) ht)
      (fun _ _ _ => trivial)

/-- INIT ends in READY with every resource held, or in FAILED. -/
theorem execInit_owned {s t : State} (h : Owned s) (hm : 1 ≤ s.cfg.maxXfer) (ht : execInit s = .next t) : Owned t := by
  unfold execInit at ht
  split at ht
  case isTrue hu =>
    have hi := initBody_ends s (h.1.1 (.inl hu)) hm
    have hr := initBody_records s
    cases hx : initBody s with
    | go u =>
      rw [hx] at ht hi hr
      obtain rfl := Host.Outcome.next.inj ht
      obtain ⟨-, a, b, -, frame, spi, dc, rst, bl, m₁, m₂⟩ := hi
      have st₁ := m₁.steady
      have st₂ := m₂.steady
      have hcfg : u.cfg = s.cfg := (st₂.cfg.trans st₁.cfg).trans (by rw [frame])
      have hSpi : u.hSpi = a.hSpi := st₂.hSpi.trans st₁.hSpi
      have hDc : u.hDc = a.hDc := st₂.hDc.trans st₁.hDc
      have hRst : u.hRst = a.hRst := st₂.hRst.trans st₁.hRst
      have hBl : u.hBl = a.hBl := st₂.hBl.trans st₁.hBl
      exact owned_of_ready (s := u) st₂.drvState (hSpi ▸ spi) (hDc ▸ dc) (hRst ▸ rst) (by rw [hBl, bl, hcfg]) hr
    | raise e u =>
      rw [hx] at ht
      obtain rfl := Host.Outcome.next.inj ht
      exact owned_of_failed (by simp)
  case isFalse hu =>
    obtain rfl := Host.Outcome.next.inj ht
    exact owned_takeError _ _ h

/-- R121: which handles are held after the release of a line. -/
theorem lineHandle_releaseLine (L M : Line) (s : State) :
    lineHandle (releaseLine L s) M = if M = L then none else lineHandle s M := by
  unfold releaseLine
  split
  · cases L <;> cases M <;> rfl
  · by_cases hM : M = L
    · subst hM; rw [if_pos rfl]; assumption
    · rw [if_neg hM]

@[simp] theorem hSpi_releaseLine (L : Line) (s : State) : (releaseLine L s).hSpi = s.hSpi := by
  unfold releaseLine
  split
  · simp
  · rfl

theorem hSpi_closeSpi (s : State) : (closeSpi s).hSpi = none := by
  unfold closeSpi
  split
  · rfl
  · assumption

/-- R121: after DISPOSE's releases no handle is held. -/
theorem releaseAll_handles (s : State) : (releaseAll s).hSpi = none ∧ ∀ L, lineHandle (releaseAll s) L = none := by
  refine ⟨by simp [releaseAll, hSpi_closeSpi], fun L => ?_⟩
  cases L <;> simp [releaseAll, lineHandle_releaseLine, -lineHandle_dc, -lineHandle_rst, -lineHandle_bl]

theorem execDispose_owned {s t : State} (h : Owned s) (ht : execDispose s = .next t) : Owned t := by
  unfold execDispose at ht
  split at ht
  · obtain rfl := Host.Outcome.next.inj ht
    exact h
  · obtain rfl := Host.Outcome.next.inj ht
    obtain ⟨spi, lines⟩ := releaseAll_handles s
    exact owned_of_disposed rfl spi (lines .dc) (lines .rst) (lines .bl)

/-! ### Every instruction and every step -/

/-- Between operations every instruction keeps what the driver state says. -/
theorem exec_owned (i : Instr) {s t : State} (h : Owned s) (hd : NothingDue s) (hm : 1 ≤ s.cfg.maxXfer)
    (ht : exec i s = .next t) : Owned t := by
  have hnone : s.due = none := hd
  cases hw : Claims.wireCommand s.cfg i with
  | some c =>
    rw [exec_wire_not_due i hw (by simp [hnone])] at ht
    obtain rfl := Host.Outcome.next.inj ht
    exact owned_takeError _ _ h
  | none =>
    cases i with
    | init => exact execInit_owned h hm ht
    | dispose => exact execDispose_owned h ht
    | pushRect x y w h' ps =>
      rw [exec_pushRect, execPushRect] at ht
      refine owned_keptByEnd.whenReady h (fun _ => ?_) ht
      split
      · exact pushRectBody_owned _ _ _ _ _ _ h
      · exact h
    | pushRectSolid x y w h' c => exact owned_keptByEnd.whenReady h (fun _ => pushRectBody_owned _ _ _ _ _ _ h) ht
    | setRotation r =>
      rw [exec_setRotation, execSetRotation_eq] at ht
      exact owned_keptByEnd.whenReady h (fun hr => by rw [sendMadctl_prims]; exact (quiet_prims _ s).owned hr h) ht
    | setBacklight on =>
      rw [exec_setBacklight, execSetBacklight] at ht
      refine owned_keptByEnd.whenReady h (fun hr => ?_) ht
      split
      · exact (quiet_setLine .bl _ s).owned hr h
      · exact h
    | flush =>
      exact owned_keptByEnd.finish (flushTiles_of_body (fun _ _ k => pushRectBody_owned _ _ _ _ _ _ k) (fun _ _ _ k => k) _
        (flushStart s) h) ht
    | reservedE | reservedF => obtain rfl := Host.Outcome.next.inj ht; exact owned_takeError _ _ h
    | markDirtyRect | markAll | pack565 | pack565a | unpack565 | blend565 | modulate565 =>
      obtain rfl := Host.Outcome.next.inj ht; exact h
    | swreset | slpout | colmod | caset | raset | madctl | ramwr | invon | invoff | dispon | panelCmd => cases hw

/-- Every step keeps `Owned`: an instruction does, a host write touches none of it, and block reset gives UNINIT's values. -/
theorem step_owned {s t : State} (h : Inv s) (ht : step s = .next t) : Owned t := by
  have ho : Owned s := ⟨h.handles, h.rotation⟩
  obtain ⟨-, rfl | ⟨rest, ⟨i, hi⟩ | ⟨a, v, -, rfl⟩ | ⟨-, rfl⟩⟩⟩ := step_cases ht
  · exact ho
  · exact exec_owned i (s := { s with inbox := rest }) ho (inv_withInbox h rest).due (wfFacts h.grid.1).xfer hi
  · exact ho
  · simp [Owned, HandlesOwned, RotationKnown]

/-- Block reset forgets every level. -/
theorem resetBlock_levels (s : State) : LevelsOwned (resetBlock s) := by
  intro L hL
  cases L <;> cases hL

/-- Settles O52: an instruction keeps what the driver state says of handles and rotation as a whole, every act keeps the
levels within the held lines, and block reset gives up all three. -/
theorem stepKeepsOwnership : Obligations.StepKeepsOwnership := by
  intro s t h ht
  obtain ⟨handles, rotation⟩ := step_owned h ht
  refine ⟨handles, rotation, step_keeps_of_acts ?_ (fun _ _ => act_levels) ?_ (fun s _ _ _ => resetBlock_levels s) h ht h.levels⟩
  · exact fun _ _ hp L => by cases L; exacts [hp .dc, hp .rst, hp .bl]
  · exact fun _ _ _ _ hp L => by cases L; exacts [hp .dc, hp .rst, hp .bl]

/-! ### The invariant at reset (R31, R143, R145) -/

/-- Power-on with a well-formed configuration: nothing is held, nothing has happened, every tile is clean. -/
theorem built_inv {c : Cfg} (h : c.wf = true) : Inv (State.built c) where
  memory := ⟨rfl, rfl, nofun⟩
  grid := ⟨h, List.length_replicate⟩
  handles := ⟨fun _ => ⟨rfl, rfl, rfl, rfl⟩, nofun⟩
  rotation := ⟨fun _ => rfl, nofun⟩
  levels := fun L hL => by cases L <;> cases hL
  history := rfl
  writes := nofun
  framed := nofun
  balanced := fun r => by
    cases r with
    | spi => rfl
    | gpio L => cases L <;> rfl
  code := Nat.zero_le 5
  due := rfl

/-- Settles O50: R6's reference configuration with a panel of 32 by 32 is well formed. -/
theorem resetMeetsInvariant : Obligations.ResetMeetsInvariant :=
  ⟨built_inv (by decide), fun _ => built_inv⟩

end Sys2Proof.Proofs
end

section
/-! PROOFS. The tiles of the grid share out the display (spec/10_state.md R25, 41_dirty_tiles.md R86, R89). -/

namespace Sys2Proof.Proofs

open Sys2Proof.Machine Sys2Proof.Claims

/-- R25, R86: on one axis, the pixel `p` lies in tile `n` of edge `T` exactly when `n` is `p / T`. -/
theorem mem_span_iff {p n T W : Nat} (hT : 1 ≤ T) (hp : p < W) :
    (n * T ≤ p ∧ p < n * T + min T (W - n * T)) ↔ n = p / T := by
  rw [eq_comm, Nat.div_eq_iff (by omega)]
  omega

/-- R25: the same for the area that R25 gives a tile. -/
theorem mem_area_iff {p n T W : Nat} (hT : 1 ≤ T) (hp : p < W) :
    (n * T ≤ p ∧ p < min ((n + 1) * T) W) ↔ n = p / T := by
  rw [eq_comm, Nat.div_eq_iff (by omega), Nat.add_mul]
  omega

/-- Every pixel of an axis lies in some tile of the grid. -/
theorem div_lt_ceilDiv {p T W : Nat} (hT : 1 ≤ T) (hp : p < W) : p / T < ceilDiv W T :=
  (lt_ceilDiv hT).mpr (Nat.lt_of_le_of_lt (Nat.div_mul_le_self p T) hp)

/-- R25: a flat index is the one of column `tx` and row `ty` exactly when it gives them back. -/
theorem flatIndex_eq_iff {X tx ty m : Nat} (h : tx < X) : m = ty * X + tx ↔ m % X = tx ∧ m / X = ty := by
  constructor
  · rintro rfl
    exact ⟨flatIndex_mod h, flatIndex_div h⟩
  · rintro ⟨rfl, rfl⟩
    exact (Nat.div_add_mod' m X).symm

/-- Settles O12: on each axis the pixel's tile is the quotient by the tile's edge, and two quotients are one flat index. -/
theorem tilesPartitionDisplay : Obligations.TilesPartitionDisplay := by
  intro c px py hwf hx hy
  have f := wfFacts hwf
  have htx : px / c.tileW < tilesX c := div_lt_ceilDiv f.tileW hx
  have hty : py / c.tileH < tilesY c := div_lt_ceilDiv f.tileH hy
  refine ⟨py / c.tileH * tilesX c + px / c.tileW, flatIndex_lt htx hty, ?_, fun m _ => ?_⟩
  · rw [flatIndex_mod htx, flatIndex_div htx]
    obtain ⟨h1, h2⟩ := (mem_area_iff f.tileW hx).mpr rfl
    obtain ⟨h3, h4⟩ := (mem_area_iff f.tileH hy).mpr rfl
    exact ⟨h1, h2, h3, h4⟩
  · rw [flatIndex_eq_iff htx, ← mem_span_iff f.tileW hx, ← mem_span_iff f.tileH hy]
    simp only [tileRectAt, tileRect, and_assoc]

end Sys2Proof.Proofs
end

section
/-! PROOFS. How a host operation ends (spec/10_state.md R19, R21; 60_exceptions.md R125, R130): with one result of a kind it
can raise, with that result's code in LAST_ERROR, and in the driver state that R19 gives; and that no step changes CFG (R18). -/

namespace Sys2Proof.Proofs

open Sys2Proof.Machine Sys2Proof.Safety Sys2Proof.Claims

/-- Settles O42: an instruction, a host write and block reset leave CFG. -/
theorem configurationNeverChanges : Obligations.ConfigurationNeverChanges := by
  intro s t ht
  obtain ⟨-, rfl | ⟨rest, ⟨i, hi⟩ | ⟨a, v, -, rfl⟩ | ⟨-, rfl⟩⟩⟩ := step_cases ht
  · rfl
  · exact (exec_fixed i hi).1
  · rfl
  · rfl

/-! ### The end of one operation -/

/-- `t` is `s` after operation `i` has ended with result `r`. -/
structure EndsWith (i : Instr) (s t : State) (r : Result) : Prop where
  results : t.results = s.results ++ [r]
  code : t.lastError = codeOf r
  kind : mayRaise i r = true
  state : t.drvState = nextDrvState i s.drvState r
  transport : isTransportError r = true → s.drvState = .ready ∨ (i = .init ∧ s.drvState = .uninit)

theorem codeOf_err (e : OpError) : codeOf (.err e) = errorCode e := by cases e <;> rfl

theorem isTransportError_err (e : OpError) : isTransportError (.err e) = isTransport e := by cases e <;> rfl

/-- R130: of the errors that an operation other than INIT can raise, those of the transport set FAILED. -/
theorem errorFatal_of_mayRaise {i : Instr} {e : OpError} (hi : i ≠ .init) (h : mayRaise i (.err e) = true) :
    errorFatal e = isTransport e := by
  cases e with
  | configuration r =>
    cases i with
    | init => exact absurd rfl hi
    | _ => cases h
  | _ => rfl

/-- R19: the driver state after every operation but DISPOSE and an accepted INIT. -/
theorem nextDrvState_of_plain {i : Instr} {d : DrvState} (hd : i ≠ .dispose) (hi : i = .init → d ≠ .uninit) (r : Result) :
    nextDrvState i d r = if isTransportError r then .failed else d := by
  unfold nextDrvState
  split
  · exact absurd rfl hd
  · exact absurd rfl (hi rfl)
  · exact absurd rfl (hi rfl)
  · rfl

/-- The body of an operation in `s`, in whatever state it ends: no result yet, and the driver state untouched. -/
def Running (s u : State) : Prop := u.results = s.results ∧ u.drvState = s.drvState

theorem Running.of_steady {s u : State} (st : Steady s u) : Running s u := ⟨st.results, st.drvState⟩

/-- An error that operation `i` can raise in `s`. -/
def CanRaise (i : Instr) (s : State) (e : OpError) : Prop :=
  mayRaise i (.err e) = true ∧ (isTransport e = true → s.drvState = .ready)

section
variable {i : Instr} {s t u : State}

theorem endsWith_succeed (hd : i ≠ .dispose) (hi : i = .init → s.drvState ≠ .uninit) (v : Value)
    (hv : mayRaise i (.ok v) = true) (h : Running s u) : ∃ r, EndsWith i s (succeed v u) r :=
  ⟨.ok v, by rw [succeed_results, h.1], rfl, hv, by rw [nextDrvState_of_plain hd hi]; exact h.2, nofun⟩

theorem endsWith_takeError (hd : i ≠ .dispose) (hi : i = .init → s.drvState ≠ .uninit) {e : OpError}
    (he : CanRaise i s e) (hf : errorFatal e = isTransport e) (h : Running s u) :
    ∃ r, EndsWith i s (takeError false e u) r :=
  ⟨.err e, by rw [takeError_results, h.1], by rw [takeError_lastError, codeOf_err], he.1,
    by rw [nextDrvState_of_plain hd hi, takeError_drvState, isTransportError_err, hf, h.2]; rfl,
    fun k => .inl (he.2 (isTransportError_err e ▸ k))⟩

/-- The end of every operation but INIT and DISPOSE. -/
theorem finish_endsWith (hd : i ≠ .dispose) (hi : i ≠ .init) {v : State → Value} {x : Ctl}
    (hv : ∀ w, mayRaise i (.ok w) = true) (h : x.Ends (Running s) fun e u => Running s u ∧ CanRaise i s e)
    (ht : finish false v x = .next t) : ∃ r, EndsWith i s t r := by
  cases x with
  | go u =>
    obtain rfl := Host.Outcome.next.inj ht
    exact endsWith_succeed hd (absurd · hi) _ (hv _) h
  | raise e u =>
    obtain rfl := Host.Outcome.next.inj ht
    exact endsWith_takeError hd (absurd · hi) h.2 (errorFatal_of_mayRaise hi h.2.1) h.1

theorem whenReady_endsWith (hd : i ≠ .dispose) (hi : i ≠ .init) {tag : OpTag} {body : State → Ctl}
    (hv : ∀ w, mayRaise i (.ok w) = true) (hs : mayRaise i (.err (.invalidState s.drvState tag)) = true)
    (hb : s.drvState = .ready → (body s).Ends (Running s) fun e u => Running s u ∧ CanRaise i s e)
    (ht : whenReady tag body s = .next t) : ∃ r, EndsWith i s t r := by
  unfold whenReady at ht
  split at ht
  · exact finish_endsWith hd hi hv (hb ‹_›) ht
  · obtain rfl := Host.Outcome.next.inj ht
    exact endsWith_takeError hd (absurd · hi) ⟨hs, nofun⟩ rfl ⟨rfl, rfl⟩

end

/-! ### The errors of the bodies -/

/-- R125: the errors that a rectangle can end in. -/
def isRectError : OpError → Bool
  | .invalidState _ _ => true
  | .invalidArgument _ => true
  | .transportWrite _ _ => true
  | .transportLine _ => true
  | .configuration _ => false
  | .illegalOperation _ => false

theorem isRectError_of_isTransport {e : OpError} (h : isTransport e = true) : isRectError e = true := by
  cases e <;> simp_all [isTransport, isRectError]

/-- R107, R125: a rectangle raises InvalidState or InvalidArgument, or in READY an error of the transport. -/
theorem pushRectBody_errors (tag : OpTag) (x y w h : Nat) (src : List Word) (s : State) :
    (pushRectBody tag x y w h src s).Ends (Steady s) fun e t =>
      Steady s t ∧ isRectError e = true ∧ (isTransport e = true → s.drvState = .ready) := by
  rw [pushRectBody_prims]
  split
  case isTrue => exact ⟨.refl s, rfl, nofun⟩
  case isFalse hr =>
    split
    · exact .refl s
    · split
      · exact (runPrims_steady _ s).mono (fun _ k => k)
          fun e t k => ⟨k.1, isRectError_of_isTransport k.2, fun _ => Decidable.not_not.mp hr⟩
      · exact ⟨.refl s, rfl, nofun⟩

/-- A rectangle of an operation that the table lets raise its errors. -/
theorem pushRectBody_running {i : Instr} (hi : ∀ e, isRectError e = true → mayRaise i (.err e) = true) (tag : OpTag)
    (x y w h : Nat) (src : List Word) {s u : State} (hu : Running s u) :
    (pushRectBody tag x y w h src u).Ends (Running s) fun e t => Running s t ∧ CanRaise i s e := by
  have kept : ∀ t, Steady u t → Running s t := fun t st => ⟨st.results.trans hu.1, st.drvState.trans hu.2⟩
  exact (pushRectBody_errors tag x y w h src u).mono kept
    fun e t ⟨st, rect, ready⟩ => ⟨kept t st, hi e rect, fun k => hu.2 ▸ ready k⟩

/-- A framing sequence of an operation that the table lets raise TransportWriteError. -/
theorem transport_running {i : Instr} (hi : ∀ e, isTransport e = true → mayRaise i (.err e) = true) {s : State} {x : Ctl}
    (hr : s.drvState = .ready) (h : x.Ends (Steady s) fun e t => Steady s t ∧ isTransport e = true) :
    x.Ends (Running s) fun e t => Running s t ∧ CanRaise i s e :=
  h.mono (fun _ => .of_steady) fun e _ k => ⟨.of_steady k.1, hi e k.2, fun _ => hr⟩

/-- R125: where the table lets an operation raise TransportWriteError. -/
theorem mayRaise_transport {i : Instr} (hw : ∀ n m, mayRaise i (.err (.transportWrite n m)) = true := by intros; rfl)
    (hl : ∀ L, mayRaise i (.err (.transportLine L)) = true := by intros; rfl) (e : OpError) (he : isTransport e = true) :
    mayRaise i (.err e) = true := by
  cases e with
  | transportWrite n m => exact hw n m
  | transportLine L => exact hl L
  | _ => cases he

/-- R125: where the table lets an operation raise what a rectangle raises. -/
theorem mayRaise_rect {i : Instr} (hs : ∀ d tag, mayRaise i (.err (.invalidState d tag)) = true := by intros; rfl)
    (ha : ∀ c, mayRaise i (.err (.invalidArgument c)) = true := by intros; rfl)
    (hw : ∀ n m, mayRaise i (.err (.transportWrite n m)) = true := by intros; rfl)
    (hl : ∀ L, mayRaise i (.err (.transportLine L)) = true := by intros; rfl) (e : OpError) (he : isRectError e = true) :
    mayRaise i (.err e) = true := by
  cases e with
  | invalidState d tag => exact hs d tag
  | invalidArgument c => exact ha c
  | transportWrite n m => exact hw n m
  | transportLine L => exact hl L
  | _ => cases he

/-! ### INIT and DISPOSE -/

/-- No change inside an operation appends a result. -/
theorem results_of_changed {s t : State} (h : Changed s t) : t.results = s.results := by
  obtain ⟨-, -, -, results, -⟩ := bits_fixed h
  exact results

/-- R116: INIT goes through into READY, or it raises an error that R125 gives it. -/
theorem initBody_running (s : State) :
    (initBody s).Ends (fun t => t.drvState = .ready) fun e _ => mayRaise .init (.err e) = true := by
  have hopen : ∀ (r : Resource) (u : State), (openRes r u).Ends (fun _ => True) fun e _ => mayRaise .init (.err e) = true := by
    intro r u
    cases r <;> simp only [openRes, openSpi, openLine] <;> split <;> trivial
  have hacquire := acquire_of_open (fun r u _ => hopen r u) (s := s) trivial
  unfold initBody
  refine Ctl.Ends.bind (hacquire.bind (G' := fun _ => True) (fun t _ => ?_) (fun _ _ k => k)) (fun t _ => ?_) (fun _ _ k => k)
  · rw [bringUp_prims]
    exact (runPrims_steady _ t).mono (fun _ _ => trivial) fun e _ k => mayRaise_transport (he := k.2)
  · exact (pushRectBody_errors _ _ _ _ _ _ _).mono (fun _ st => st.drvState) fun e _ k => mayRaise_rect (he := k.2.1)

theorem execInit_endsWith {s t : State} (ht : execInit s = .next t) : ∃ r, EndsWith .init s t r := by
  unfold execInit at ht
  split at ht
  case isTrue hu =>
    have hx := initBody_running s
    have hc := changes_init s
    cases h : initBody s with
    | go u =>
      rw [h] at ht hx hc
      obtain rfl := Host.Outcome.next.inj ht
      exact ⟨.ok .unit, by rw [succeed_results, results_of_changed hc], rfl, rfl, by rw [hu]; exact hx, nofun⟩
    | raise e u =>
      rw [h] at ht hx hc
      obtain rfl := Host.Outcome.next.inj ht
      exact ⟨.err e, by rw [takeError_results, results_of_changed hc], by rw [takeError_lastError, codeOf_err], hx,
        by rw [hu]; rfl, fun _ => .inr ⟨rfl, hu⟩⟩
  case isFalse hu =>
    obtain rfl := Host.Outcome.next.inj ht
    exact endsWith_takeError (by nofun) (fun _ => hu) ⟨rfl, by nofun⟩ (by rfl) ⟨rfl, rfl⟩

/-- R121: what DISPOSE's releases can change. -/
theorem releaseAll_bits (s : State) : Changed s (releaseAll s) :=
  (((closeSpi_bits s).trans (releaseLine_bits .dc _)).trans (releaseLine_bits .rst _)).trans (releaseLine_bits .bl _)

theorem execDispose_endsWith {s t : State} (ht : execDispose s = .next t) : ∃ r, EndsWith .dispose s t r := by
  unfold execDispose at ht
  split at ht
  case isTrue hd =>
    obtain rfl := Host.Outcome.next.inj ht
    exact ⟨.ok .unit, rfl, rfl, rfl, hd, nofun⟩
  case isFalse =>
    obtain rfl := Host.Outcome.next.inj ht
    have results : (releaseAll s).results = s.results := results_of_changed (releaseAll_bits s)
    exact ⟨.ok .unit, by rw [succeed_results, results], rfl, rfl, rfl, nofun⟩

/-! ### Every host operation -/

theorem wireCommand_of_hostCode {i : Instr} {code : BitVec 4} (h : hostCode i = some code) (c : Cfg) :
    wireCommand c i = none := by
  cases i with
  | swreset | slpout | colmod | caset | raset | madctl | ramwr | invon | invoff | dispon | panelCmd => cases h
  | _ => rfl

/-- R19, R21, R125: the end of every host operation, in every state and for all answers. -/
theorem exec_endsWith (i : Instr) {code : BitVec 4} {s t : State} (hi : hostCode i = some code) (ht : exec i s = .next t) :
    ∃ r, EndsWith i s t r := by
  cases i with
  | init => exact execInit_endsWith ht
  | dispose => exact execDispose_endsWith ht
  | pushRect x y w h ps =>
    rw [exec_pushRect, execPushRect] at ht
    refine whenReady_endsWith nofun nofun (fun _ => rfl) rfl (fun _ => ?_) ht
    split
    · exact pushRectBody_running mayRaise_rect _ _ _ _ _ _ ⟨rfl, rfl⟩
    · exact ⟨⟨rfl, rfl⟩, rfl, nofun⟩
  | pushRectSolid x y w h c =>
    exact whenReady_endsWith nofun nofun (fun _ => rfl) rfl
      (fun _ => pushRectBody_running mayRaise_rect _ _ _ _ _ _ ⟨rfl, rfl⟩) ht
  | setRotation r =>
    rw [exec_setRotation, execSetRotation_eq] at ht
    refine whenReady_endsWith nofun nofun (fun _ => rfl) rfl (fun hr => ?_) ht
    rw [sendMadctl_prims]
    exact transport_running mayRaise_transport hr (runPrims_steady _ s)
  | setBacklight on =>
    rw [exec_setBacklight, execSetBacklight] at ht
    refine whenReady_endsWith nofun nofun (fun _ => rfl) rfl (fun hr => ?_) ht
    split
    · exact transport_running mayRaise_transport hr (setLine_steady .bl _ s)
    · exact ⟨rfl, rfl⟩
  | flush =>
    exact finish_endsWith nofun nofun (fun _ => rfl) (flushTiles_of_body (fun _ _ k => pushRectBody_running
      mayRaise_rect _ _ _ _ _ _ k)
      (fun _ _ _ k => k) _ (flushStart s) ⟨rfl, rfl⟩) ht
  | reservedE | reservedF =>
    obtain rfl := Host.Outcome.next.inj ht
    exact endsWith_takeError (by nofun) (by nofun) ⟨rfl, by nofun⟩ (by rfl) ⟨rfl, rfl⟩
  | markDirtyRect | markAll | pack565 | pack565a | unpack565 | blend565 | modulate565 =>
    obtain rfl := Host.Outcome.next.inj ht
    exact endsWith_succeed (by nofun) (by nofun) _ (by rfl) ⟨rfl, rfl⟩
  | swreset | slpout | colmod | caset | raset | madctl | ramwr | invon | invoff | dispon | panelCmd => cases hi

/-- R144: block reset in UNINIT or DISPOSED is accepted. -/
theorem step_blockReset {s : State} {rest : List Input} (hwf : s.cfg.wf = true) (hi : s.inbox = .blockReset :: rest)
    (hd : s.drvState = .uninit ∨ s.drvState = .disposed) : step s = .next (resetBlock { s with inbox := rest }) := by
  have hr : resetAllowed s.drvState = true := by rcases hd with h | h <;> rw [h] <;> rfl
  simp [step, hwf, performNext, hi, performInput, platformReset, hr]

/-- Settles O39: the result that an operation ends with is the one appended, so it fixes the driver state. -/
theorem driverStateTransitions : Obligations.DriverStateTransitions := by
  refine ⟨⟨rfl, rfl, rfl, rfl⟩, fun i code s t r hi ht hr => ?_, fun s rest hwf hi hd =>
    ⟨_, step_blockReset hwf hi hd, rfl⟩⟩
  obtain ⟨r', h⟩ := exec_endsWith i hi ht
  obtain rfl : r' = r := List.singleton_inj.mp (List.append_cancel_left (h.results.symm.trans hr))
  exact ⟨h.state, h.transport⟩

end Sys2Proof.Proofs
end

section
/-! PROOFS. What no operation reads: the panel (spec/10_state.md R28) and LAST_ERROR (R21). Two runs from states that are alike
but for these two draw the same answers, log the same events and end alike. -/

namespace Sys2Proof.Proofs

open Sys2Proof.Machine Sys2Proof.Claims

section
variable {P E : Prop}

/-- `s'` is `s` but for the panel and LAST_ERROR; the panels are equal if `P`, the LAST_ERRORs if `E`. -/
def Twin (P E : Prop) (s s' : State) : Prop :=
  ∃ p e, s' = { s with panel := p, lastError := e } ∧ (P → p = s.panel) ∧ (E → e = s.lastError)

/-- Two sequences that have come equally far, in states that are twins. -/
inductive TwinCtl (P E : Prop) : Ctl → Ctl → Prop where
  | go {s s' : State} (h : Twin P E s s') : TwinCtl P E (.go s) (.go s')
  | raise (err : OpError) {s s' : State} (h : Twin P E s s') : TwinCtl P E (.raise err s) (.raise err s')

/-- A sequence that reads neither the panel nor LAST_ERROR. -/
def Blind (P E : Prop) (f : State → Ctl) : Prop := ∀ s s', Twin P E s s' → TwinCtl P E (f s) (f s')

theorem blind_go : Blind P E .go := fun _ _ h => .go h

theorem TwinCtl.bind {x y : Ctl} {g : State → Ctl} (h : TwinCtl P E x y) (hg : Blind P E g) :
    TwinCtl P E (x.bind g) (y.bind g) := by
  cases h with
  | go k => exact hg _ _ k
  | raise err k => exact .raise err k

theorem Blind.bind {f g : State → Ctl} (hf : Blind P E f) (hg : Blind P E g) : Blind P E fun s => (f s).bind g :=
  fun s s' h => (hf s s' h).bind hg

/-! ### The primitives -/

theorem blind_setLine (L : Line) (l : Bit) : Blind P E (setLine L l) := by
  rintro s _ ⟨p, e, rfl, hp, he⟩
  have hn : nextAnswer { s with panel := p, lastError := e } = nextAnswer s := rfl
  unfold setLine
  rw [hn]
  split
  · exact .go ⟨p, e, by cases L <;> rfl, by simpa using hp, by simpa using he⟩
  · exact .raise _ ⟨p, e, by cases L <;> rfl, by simpa using hp, by simpa using he⟩

theorem blind_tx (bytes : List Byte) : Blind P E (tx bytes) := by
  rintro s _ ⟨p, e, rfl, hp, he⟩
  have hn : nextAnswer { s with panel := p, lastError := e } = nextAnswer s := rfl
  unfold tx
  rw [hn]
  split
  · split
    · exact .go ⟨panelTransaction s.cfg s.free s.dcLevel bytes p, e, rfl, fun k => by rw [hp k]; rfl, he⟩
    · exact .raise _ ⟨p, e, rfl, hp, he⟩
  · exact .raise _ ⟨p, e, rfl, hp, he⟩

theorem blind_prims (ps : List Prim) : Blind P E (runPrims ps) := by
  induction ps with
  | nil => exact blind_go
  | cons q ps ih =>
    refine Blind.bind ?_ ih
    cases q with
    | set L l => exact blind_setLine L l
    | write bytes => exact blind_tx bytes
    | wait ms => rintro s _ ⟨p, e, rfl, hp, he⟩; exact .go ⟨p, e, rfl, hp, he⟩
    | rotate r => rintro s _ ⟨p, e, rfl, hp, he⟩; exact .go ⟨p, e, rfl, hp, he⟩

/-! ### The bodies of the operations -/

theorem blind_body (tag : OpTag) (x y w h : Nat) (src : List Word) : Blind P E (pushRectBody tag x y w h src) := by
  intro s s' ht
  rw [pushRectBody_prims, pushRectBody_prims]
  obtain ⟨p, e, rfl, hp, he⟩ := id ht
  dsimp only
  split
  · exact .raise _ ht
  · split
    · exact .go ht
    · split
      · exact blind_prims _ _ _ ht
      · exact .raise _ ht

theorem blind_open (r : Resource) : Blind P E (openRes r) := by
  rintro s _ ⟨p, e, rfl, hp, he⟩
  have hn : nextAnswer { s with panel := p, lastError := e } = nextAnswer s := rfl
  cases r with
  | spi =>
    simp only [openRes, openSpi, hn]
    split
    · exact .go ⟨p, e, rfl, hp, he⟩
    · exact .raise _ ⟨p, e, rfl, hp, he⟩
  | gpio L =>
    simp only [openRes, openLine, hn]
    split
    · exact .go ⟨p, e, by cases L <;> rfl, by simpa using hp, by simpa using he⟩
    · exact .raise _ ⟨p, e, rfl, hp, he⟩

theorem blind_bringUp : Blind P E bringUp := by
  intro s s' h
  rw [bringUp_prims, bringUp_prims]
  obtain ⟨p, e, rfl, -⟩ := id h
  exact blind_prims _ _ _ h

theorem blind_initBody : Blind P E initBody := by
  refine Blind.bind (Blind.bind ?_ blind_bringUp) ?_
  · refine Blind.bind (((blind_open .spi).bind (blind_open (.gpio .dc))).bind (blind_open (.gpio .rst))) ?_
    rintro s s' h
    obtain ⟨p, e, rfl, -⟩ := id h
    dsimp only
    split
    · exact blind_open (.gpio .bl) _ _ h
    · exact .go h
  · rintro s _ ⟨p, e, rfl, hp, he⟩
    exact blind_body _ _ _ _ _ _ _ _ ⟨p, e, rfl, hp, he⟩

theorem blind_flushTile (n : Nat) : Blind P E (flushTile n) := by
  rintro s s' h
  obtain ⟨p, e, rfl, -⟩ := id h
  unfold flushTile
  dsimp only
  split
  · refine (blind_body _ _ _ _ _ _ _ _ h).bind ?_
    rintro u _ ⟨p, e, rfl, hp, he⟩
    exact .go ⟨p, e, rfl, hp, he⟩
  · exact .go h

theorem blind_flushTiles (ns : List Nat) : Blind P E (flushTiles ns) := by
  induction ns with
  | nil => exact blind_go
  | cons n ns ih => exact (blind_flushTile n).bind ih

/-! ### The ends of the operations -/

/-- Two outcomes that are next states, and twins. -/
def TwinOutcome (P E : Prop) (x y : Host.Outcome State Fault Refusal) : Prop :=
  ∃ t t', x = .next t ∧ y = .next t' ∧ Twin P E t t'

theorem TwinOutcome.next {s s' : State} (h : Twin P E s s') : TwinOutcome P E (.next s) (.next s') := ⟨s, s', rfl, rfl, h⟩

theorem twin_succeed (v : Value) {s s' : State} : Twin P E s s' → Twin P E (succeed v s) (succeed v s') := by
  rintro ⟨p, e, rfl, hp, -⟩
  exact ⟨p, 0, rfl, hp, fun _ => rfl⟩

theorem twin_takeError (b : Bool) (err : OpError) {s s' : State} :
    Twin P E s s' → Twin P E (takeError b err s) (takeError b err s') := by
  rintro ⟨p, e, rfl, hp, -⟩
  unfold takeError
  dsimp only
  split
  · exact ⟨unknownPanel s.free, errorCode err, rfl, fun _ => rfl, fun _ => rfl⟩
  · exact ⟨p, errorCode err, rfl, hp, fun _ => rfl⟩

theorem TwinCtl.finish (b : Bool) {v : State → Value} {x y : Ctl} (h : TwinCtl P E x y)
    (hv : ∀ s s', Twin P E s s' → v s' = v s) : TwinOutcome P E (finish b v x) (finish b v y) := by
  cases h with
  | go k =>
    refine .next ?_
    rw [hv _ _ k]
    exact twin_succeed _ k
  | raise err k => exact .next (twin_takeError b err k)

theorem TwinCtl.endRow {x y : Ctl} (h : TwinCtl P E x y) : TwinOutcome P E (endRow x) (endRow y) := by
  cases h with
  | go k => exact .next k
  | raise err k => exact .next (twin_takeError false err k)

theorem twin_whenReady (tag : OpTag) {f : State → Ctl} (hf : Blind P E f) {s s' : State} (h : Twin P E s s') :
    TwinOutcome P E (whenReady tag f s) (whenReady tag f s') := by
  obtain ⟨p, e, rfl, -⟩ := id h
  unfold whenReady
  dsimp only
  split
  · exact (hf _ _ h).finish false fun _ _ _ => rfl
  · exact .next (twin_takeError false _ h)

theorem twin_closeSpi {s s' : State} : Twin P E s s' → Twin P E (closeSpi s) (closeSpi s') := by
  rintro ⟨p, e, rfl, hp, he⟩
  unfold closeSpi
  dsimp only
  split <;> exact ⟨p, e, rfl, hp, he⟩

theorem twin_releaseLine (L : Line) {s s' : State} : Twin P E s s' → Twin P E (releaseLine L s) (releaseLine L s') := by
  rintro ⟨p, e, rfl, hp, he⟩
  have hl : lineHandle { s with panel := p, lastError := e } L = lineHandle s L := by cases L <;> rfl
  unfold releaseLine
  rw [hl]
  split
  · exact ⟨p, e, by cases L <;> rfl, by simpa using hp, by simpa using he⟩
  · exact ⟨p, e, rfl, hp, he⟩

theorem twin_execDispose {s s' : State} (h : Twin P E s s') : TwinOutcome P E (execDispose s) (execDispose s') := by
  have hr : Twin P E (releaseAll s) (releaseAll s') :=
    twin_releaseLine .bl (twin_releaseLine .rst (twin_releaseLine .dc (twin_closeSpi h)))
  have hd : s'.drvState = s.drvState := by obtain ⟨p, e, rfl, -⟩ := h; rfl
  unfold execDispose
  rw [hd]
  split
  · exact .next (twin_succeed _ h)
  · obtain ⟨p, e, hr, hp, he⟩ := hr
    rw [hr]
    exact .next (twin_succeed _ ⟨p, e, rfl, hp, he⟩)

/-- R96 to R106: a wire command, due or not. -/
theorem twin_wire {i : Instr} {s s' : State} {c : Byte × List Byte × Nat} (hw : wireCommand s.cfg i = some c)
    (h : Twin P E s s') : TwinOutcome P E (exec i s) (exec i s') := by
  obtain ⟨op, payload, ms⟩ := c
  obtain ⟨p, e, rfl, hp, he⟩ := id h
  have taken : Twin P E { s with due := none } { s with panel := p, lastError := e, due := none } := ⟨p, e, rfl, hp, he⟩
  rw [wire_prims i op payload ms s hw, wire_prims i op payload ms { s with panel := p, lastError := e } hw]
  dsimp only
  split
  · exact (blind_prims _ _ _ taken).endRow
  · exact .next (twin_takeError false _ h)

/-- No instruction reads the panel or LAST_ERROR: from twins it leads to twins. -/
theorem exec_twin (i : Instr) {s s' : State} (h : Twin P E s s') : TwinOutcome P E (exec i s) (exec i s') := by
  obtain ⟨p, e, rfl, hp, he⟩ := id h
  cases hw : wireCommand s.cfg i with
  | some c => exact twin_wire hw h
  | none =>
    cases i with
    | init =>
      rw [exec_init, exec_init]
      unfold execInit
      dsimp only
      split
      · exact (blind_initBody _ _ h).finish true fun _ _ _ => rfl
      · exact .next (twin_takeError false _ h)
    | dispose => exact twin_execDispose h
    | pushRect x y w h' ps =>
      rw [exec_pushRect, exec_pushRect]
      unfold execPushRect
      refine twin_whenReady _ ?_ h
      intro u u' hu
      dsimp only
      split
      · exact blind_body _ _ _ _ _ _ _ _ hu
      · exact .raise _ hu
    | pushRectSolid x y w h' c => exact twin_whenReady _ (blind_body _ _ _ _ _ _) h
    | setRotation r =>
      rw [exec_setRotation, exec_setRotation, execSetRotation_eq, execSetRotation_eq]
      refine twin_whenReady _ ?_ h
      intro u u' hu
      rw [sendMadctl_prims, sendMadctl_prims]
      obtain ⟨p, e, rfl, -⟩ := id hu
      exact blind_prims _ _ _ hu
    | setBacklight on =>
      rw [exec_setBacklight, exec_setBacklight]
      unfold execSetBacklight
      refine twin_whenReady _ ?_ h
      intro u u' hu
      obtain ⟨p, e, rfl, -⟩ := id hu
      dsimp only
      split
      · exact blind_setLine _ _ _ _ hu
      · exact .go hu
    | flush =>
      have start : Twin P E (flushStart s) (flushStart { s with panel := p, lastError := e }) := ⟨p, e, rfl, hp, he⟩
      rw [exec_flush, exec_flush]
      unfold execFlush
      refine (blind_flushTiles _ _ _ start).finish false ?_
      rintro u _ ⟨p, e, rfl, -⟩
      rfl
    | reservedE | reservedF => exact .next (twin_takeError false _ h)
    | markDirtyRect | markAll => exact .next (twin_succeed _ ⟨p, e, rfl, hp, he⟩)
    | pack565 | pack565a | unpack565 | blend565 | modulate565 => exact .next (twin_succeed _ h)
    | swreset | slpout | colmod | caset | raset | madctl | ramwr | invon | invoff | dispon | panelCmd => cases hw

end

/-- Settles O46: twins that agree in LAST_ERROR lead to twins that agree in it. -/
theorem panelIsNeverRead : Obligations.PanelIsNeverRead := by
  intro i s t p ht
  obtain ⟨t₁, t', h₁, h', q, e, rfl, -, he⟩ :=
    exec_twin (P := False) (E := True) i (s := s) (s' := { s with panel := p }) ⟨p, s.lastError, rfl, nofun, fun _ => rfl⟩
  obtain rfl := Host.Outcome.next.inj (ht.symm.trans h₁)
  rw [he trivial] at h'
  exact ⟨q, h'⟩

/-- Settles O40: the end of an operation fixes its result and LAST_ERROR, and twins that agree in the panel differ in
LAST_ERROR only, which the end writes. -/
theorem oneResultPerOperation : Obligations.OneResultPerOperation := by
  intro i code s hi
  obtain ⟨t, ht⟩ := exec_next i s
  obtain ⟨r, h⟩ := exec_endsWith i hi ht
  refine ⟨⟨t, r, ht, h.results, h.code, h.kind⟩, fun old => ?_⟩
  obtain ⟨t₁, t', h₁, h', q, e, rfl, hq, -⟩ :=
    exec_twin (P := True) (E := False) i (s := s) (s' := { s with lastError := old }) ⟨s.panel, old, rfl, fun _ => rfl, nofun⟩
  obtain rfl := Host.Outcome.next.inj (ht.symm.trans h₁)
  obtain ⟨r', k⟩ := exec_endsWith i hi h'
  obtain rfl : r' = r := List.singleton_inj.mp (List.append_cancel_left (k.results.symm.trans h.results))
  have code' : e = t.lastError := k.code.trans h.code.symm
  rw [h', ht, hq trivial, code']

end Sys2Proof.Proofs
end

section
/-! PROOFS. Which instruction writes which register (spec/10_state.md R20, R22, R23, R24, R26), by the parts of the state that
each part of an operation can write. -/

namespace Sys2Proof.Proofs

open Sys2Proof.Machine Sys2Proof.Claims

/-- The parts of the state that R20 and R22 to R26 give a writer. -/
inductive Part where
  | dirty
  | counters
  | handles
  | dc
  | rst
  | bl
  | rotation
  deriving DecidableEq

/-- The two states have the same in a part. -/
def SamePart (s t : State) : Part → Prop
  | .dirty => t.dirty = s.dirty
  | .counters => (t.lastFlushTiles, t.lastFlushBytes) = (s.lastFlushTiles, s.lastFlushBytes)
  | .handles => (t.hSpi, t.hDc, t.hRst, t.hBl) = (s.hSpi, s.hDc, s.hRst, s.hBl)
  | .dc => t.dcLevel = s.dcLevel
  | .rst => t.rstLevel = s.rstLevel
  | .bl => t.blLevel = s.blLevel
  | .rotation => t.curRotation = s.curRotation

/-- `t` is `s` with no part written but those of `ks`. -/
def Writes (ks : List Part) (s t : State) : Prop := ∀ k, k ∉ ks → SamePart s t k

/-- The part that holds a line's level. -/
def levelPart : Line → Part
  | .dc => .dc
  | .rst => .rst
  | .bl => .bl

section
variable {ks : List Part} {s t u : State}

theorem Writes.refl (ks : List Part) (s : State) : Writes ks s s := fun k _ => by cases k <;> rfl

theorem Writes.trans (h : Writes ks s t) (h' : Writes ks t u) : Writes ks s u := fun k hk => by
  have a := h k hk
  have b := h' k hk
  cases k <;> exact Eq.trans b a

theorem Writes.mono {ks' : List Part} (h : Writes ks s t) (hs : ks ⊆ ks') : Writes ks' s t := fun k hk =>
  h k fun h' => hk (hs h')

end

theorem writes_logged (e : Event) (r : Reply) (s : State) : Writes [] s (logged e r (drawn s)) := .refl [] s

theorem writes_setLevel (L : Line) (l : Option Bit) (s : State) : Writes [levelPart L] s (setLevel L l s) := by
  intro k hk
  cases L <;> cases k <;> first | rfl | exact absurd (List.mem_singleton_self _) hk

theorem writes_setHandle (L : Line) (h : Option Nat) (s : State) : Writes [.handles] s (setHandle L h s) := by
  intro k hk
  cases L <;> cases k <;> first | rfl | exact absurd (List.mem_singleton_self _) hk

theorem writes_hSpi (h : Option Nat) (s : State) : Writes [.handles] s { s with hSpi := h } := by
  intro k hk
  cases k with
  | handles => exact absurd (List.mem_singleton_self _) hk
  | _ => rfl

/-! ### The framing -/

/-- A sequence that writes no part but those of `ks`, whatever it ends with. -/
def Within (ks : List Part) (s : State) (x : Ctl) : Prop := x.Ends (Writes ks s) fun _ => Writes ks s

theorem Within.bind {ks : List Part} {s : State} {x : Ctl} {f : State → Ctl} (h : Within ks s x)
    (hf : ∀ t, Within ks t (f t)) : Within ks s (x.bind f) :=
  Ctl.Ends.bind h (fun t k => (hf t).mono (fun _ k' => k.trans k') (fun _ _ k' => k.trans k')) (fun _ _ k => k)

/-- What was written before the sequence is within `ks` too. -/
theorem Within.after {ks : List Part} {s t : State} {x : Ctl} (h : Within ks t x) (hs : Writes ks s t) : Within ks s x :=
  Ctl.Ends.mono h (fun _ k => hs.trans k) (fun _ _ k => hs.trans k)

theorem Within.mono {ks ks' : List Part} {s : State} {x : Ctl} (h : Within ks s x) (hs : ks ⊆ ks') : Within ks' s x :=
  Ctl.Ends.mono h (fun _ k => k.mono hs) (fun _ _ k => k.mono hs)

theorem within_setLine (L : Line) (l : Bit) (s : State) : Within [levelPart L] s (setLine L l s) := by
  have event : ∀ e r, Writes [levelPart L] s (logged e r (drawn s)) := fun e r => (writes_logged e r s).mono nofun
  unfold setLine
  split <;> exact (event _ _).trans (writes_setLevel L _ _)

theorem within_tx (bytes : List Byte) (s : State) : Within [] s (tx bytes s) := by
  unfold tx
  split
  · split <;> exact .refl [] s
  · exact .refl [] s

/-- The parts that a primitive can write. -/
def primParts : Prim → List Part
  | .set L _ => [levelPart L]
  | .write _ => []
  | .wait _ => []
  | .rotate _ => [.rotation]

/-- The primitives of a list write no part but those of `ks`. -/
def PrimsWithin (ks : List Part) (ps : List Prim) : Prop := ∀ p ∈ ps, primParts p ⊆ ks

theorem within_prims {ks : List Part} {ps : List Prim} (h : PrimsWithin ks ps) : ∀ s, Within ks s (runPrims ps s) := by
  induction ps with
  | nil => exact .refl ks
  | cons p ps ih =>
    intro s
    obtain ⟨hp, hps⟩ := List.forall_mem_cons.mp h
    refine Within.bind (Within.mono (ks := primParts p) ?_ hp) (ih hps)
    cases p with
    | set L l => exact within_setLine L l s
    | write bytes => exact within_tx bytes s
    | wait ms => exact .refl [] s
    | rotate r =>
      intro k hk
      cases k with
      | rotation => exact absurd (List.mem_singleton_self _) hk
      | _ => rfl

theorem PrimsWithin.append {ks : List Part} {ps qs : List Prim} (h : PrimsWithin ks ps) (h' : PrimsWithin ks qs) :
    PrimsWithin ks (ps ++ qs) := List.forall_mem_append.mpr ⟨h, h'⟩

theorem PrimsWithin.mono {ks ks' : List Part} {ps : List Prim} (h : PrimsWithin ks ps) (hs : ks ⊆ ks') :
    PrimsWithin ks' ps := fun p hp => List.Subset.trans (h p hp) hs

/-- R94: a command drives the DC line and no other. -/
theorem command_within (c : Cfg) (op : Byte) (payload : List Byte) : PrimsWithin [.dc] (commandPrims c op payload) := by
  unfold commandPrims
  split <;> simp [PrimsWithin, primParts, levelPart]

theorem wait_within (ms : Nat) : PrimsWithin [] (waitPrims ms) := by
  unfold waitPrims
  split <;> simp [PrimsWithin, primParts]

theorem commandWait_within (c : Cfg) (op : Byte) (payload : List Byte) (ms : Nat) :
    PrimsWithin [.dc] (commandPrims c op payload ++ waitPrims ms) :=
  (command_within c op payload).append ((wait_within ms).mono nofun)

theorem rect_within (c : Cfg) (x y w h : Nat) (src : List Word) : PrimsWithin [.dc] (rectPrims c x y w h src) :=
  ((command_within _ _ _).append (command_within _ _ _)).append (command_within _ _ _)

theorem table_within (c : Cfg) (es : List PanelEntry) : PrimsWithin [.dc] (tablePrims c es) := by
  intro p hp
  obtain ⟨e, -, hp⟩ := List.mem_flatMap.mp hp
  exact commandWait_within c e.op e.payload e.delayMs p hp

/-- R116, steps 2 to 7: the bring-up before MADCTL. -/
def beforeMadctlPrims (c : Cfg) : List Prim :=
  pulsePrims ++ (commandPrims c 0x01 [] ++ waitPrims c.tSwresetMs) ++ (commandPrims c 0x11 [] ++ waitPrims c.tSlpoutMs) ++
    commandPrims c 0x3A [c.colmodValue] ++ tablePrims c c.panelInitTable ++
    commandPrims c (if c.invert then 0x21 else 0x20) []

/-- R116, steps 8 and 9: MADCTL and DISPON. -/
theorem bringUpPrims_eq (c : Cfg) : bringUpPrims c = beforeMadctlPrims c ++
    (commandPrims c 0x36 [madctlByte c c.rotation] ++ [.rotate c.rotation]) ++
    (commandPrims c 0x29 [] ++ waitPrims c.tDisponMs) := rfl

theorem beforeMadctl_within (c : Cfg) : PrimsWithin [.rst, .dc] (beforeMadctlPrims c) := by
  have pulse : PrimsWithin [.rst, .dc] pulsePrims := by simp [PrimsWithin, pulsePrims, primParts, levelPart]
  have dc : ∀ {ps}, PrimsWithin [.dc] ps → PrimsWithin [.rst, .dc] ps := fun h => h.mono (by simp)
  exact ((((pulse.append (dc (commandWait_within c _ _ _))).append (dc (commandWait_within c _ _ _))).append
    (dc (command_within c _ _))).append (dc (table_within c _))).append (dc (command_within c _ _))

theorem bringUp_within (c : Cfg) : PrimsWithin [.rst, .dc, .rotation] (bringUpPrims c) := by
  rw [bringUpPrims_eq]
  refine (((beforeMadctl_within c).mono (by simp)).append ((command_within c _ _).mono (by simp) |>.append ?_)).append
    ((commandWait_within c _ _ _).mono (by simp))
  simp [PrimsWithin, primParts]

/-! ### The bodies -/

theorem within_body (tag : OpTag) (x y w h : Nat) (src : List Word) (s : State) :
    Within [.dc] s (pushRectBody tag x y w h src s) := by
  rw [pushRectBody_prims]
  split
  · exact .refl _ s
  · split
    · exact .refl _ s
    · split
      · exact within_prims (rect_within _ _ _ _ _ _) s
      · exact .refl _ s

theorem within_open (r : Resource) (s : State) : Within [.handles] s (openRes r s) := by
  cases r with
  | spi =>
    simp only [openRes, openSpi]
    split
    · exact writes_hSpi _ (logged _ _ (drawn s))
    · exact .refl _ s
  | gpio L =>
    simp only [openRes, openLine]
    split
    · exact writes_setHandle L _ (logged _ _ (drawn s))
    · exact .refl _ s

theorem within_acquire (s : State) : Within [.handles] s (acquire s) :=
  acquire_of_open (fun r t k => (within_open r t).after k) (.refl _ s)

theorem within_initBody (s : State) : Within [.handles, .dc, .rst, .rotation] s (initBody s) := by
  refine Within.bind (Within.bind ((within_acquire s).mono (by simp)) fun t => ?_) fun t => ?_
  · rw [bringUp_prims]
    exact (within_prims (bringUp_within _) t).mono (by simp)
  · exact (within_body _ _ _ _ _ _ { t with drvState := .ready }).mono (by simp)

theorem writes_flushStart (s : State) : Writes [.counters] s (flushStart s) := by
  intro k hk
  cases k with
  | counters => exact absurd (List.mem_singleton_self _) hk
  | _ => rfl

theorem writes_tileServiced (n : Nat) (r : Rect) (s : State) : Writes [.dirty, .counters] s (tileServiced n r s) := by
  intro k hk
  cases k with
  | dirty | counters => exact absurd (by simp) hk
  | _ => rfl

theorem within_flushTiles (ns : List Nat) (s : State) : Within [.dirty, .counters, .dc] s (flushTiles ns s) :=
  flushTiles_of_body (fun u _ k => ((within_body _ _ _ _ _ _ u).mono (by simp)).after k)
    (fun u n r k => k.trans ((writes_tileServiced n r u).mono (by simp))) ns s (.refl _ s)

theorem writes_closeSpi (s : State) : Writes [.handles] s (closeSpi s) := by
  unfold closeSpi
  split
  · exact writes_hSpi none (logged _ _ (drawn s))
  · exact .refl _ s

theorem writes_releaseLine (L : Line) (s : State) : Writes [.handles, levelPart L] s (releaseLine L s) := by
  unfold releaseLine
  split
  · exact Writes.trans (ks := [.handles, levelPart L]) ((writes_setHandle L none (logged _ _ (drawn s))).mono (by simp))
      ((writes_setLevel L none _).mono (by simp))
  · exact .refl _ s

theorem writes_releaseAll (s : State) : Writes [.handles, .dc, .rst, .bl] s (releaseAll s) :=
  ((((writes_closeSpi s).mono (by simp)).trans ((writes_releaseLine .dc _).mono (by simp [levelPart]))).trans
    ((writes_releaseLine .rst _).mono (by simp [levelPart]))).trans ((writes_releaseLine .bl _).mono (by simp [levelPart]))

/-! ### Every instruction -/

/-- The parts that an instruction can write; a wire command only where it is due. -/
def writtenBy : Instr → List Part
  | .init => [.handles, .dc, .rst, .rotation]
  | .pushRect _ _ _ _ _ => [.dc]
  | .pushRectSolid _ _ _ _ _ => [.dc]
  | .setRotation _ => [.dc, .rotation]
  | .setBacklight _ => [.bl]
  | .dispose => [.handles, .dc, .rst, .bl]
  | .markDirtyRect _ _ _ _ => [.dirty]
  | .markAll => [.dirty]
  | .flush => [.dirty, .counters, .dc]
  | .pack565 _ _ _ => []
  | .pack565a _ _ _ _ => []
  | .unpack565 _ => []
  | .blend565 _ _ _ => []
  | .modulate565 _ _ => []
  | .reservedE => []
  | .reservedF => []
  | .madctl _ => [.dc, .rotation]
  | .swreset => [.dc]
  | .slpout => [.dc]
  | .colmod => [.dc]
  | .caset _ _ => [.dc]
  | .raset _ _ => [.dc]
  | .ramwr _ => [.dc]
  | .invon => [.dc]
  | .invoff => [.dc]
  | .dispon => [.dc]
  | .panelCmd _ _ _ => [.dc]

/-- The end of an operation writes no part. -/
theorem writes_keptByEnd (ks : List Part) (s : State) : KeptByEnd (Writes ks s) where
  succeed _ u h := h.trans (.refl ks u)
  takeError b e u h := h.trans fun k _ => by cases k <;> simp [SamePart]

/-- A wire command writes the DC level and, if it is MADCTL, the rotation. -/
theorem wire_writes (i : Instr) {s t : State} {c : Byte × List Byte × Nat} (hw : wireCommand s.cfg i = some c)
    (ht : exec i s = .next t) : Writes (writtenBy i) s t := by
  obtain ⟨op, payload, ms⟩ := c
  have rotate : PrimsWithin (writtenBy i) (rotatePrims i) := by
    cases i <;> simp [PrimsWithin, rotatePrims, primParts, writtenBy]
  have dc : [Part.dc] ⊆ writtenBy i := by
    cases i with
    | swreset | slpout | colmod | caset | raset | madctl | ramwr | invon | invoff | dispon | panelCmd => simp [writtenBy]
    | _ => cases hw
  rw [wire_prims i op payload ms s hw] at ht
  split at ht
  · refine (writes_keptByEnd _ s).endRow ?_ ht
    exact within_prims (((commandWait_within _ _ _ _).mono dc).append rotate) { s with due := none }
  · obtain rfl := Host.Outcome.next.inj ht
    exact (writes_keptByEnd _ s).takeError _ _ s (.refl _ s)

theorem exec_writes (i : Instr) {s t : State} (ht : exec i s = .next t) : Writes (writtenBy i) s t := by
  have ends := writes_keptByEnd (writtenBy i) s
  have refl := Writes.refl (writtenBy i) s
  cases hw : wireCommand s.cfg i with
  | some c => exact wire_writes i hw ht
  | none =>
    cases i with
    | init =>
      rw [exec_init, execInit] at ht
      split at ht
      · exact ends.finish (within_initBody s) ht
      · obtain rfl := Host.Outcome.next.inj ht
        exact ends.takeError _ _ s refl
    | dispose =>
      rw [exec_dispose, execDispose] at ht
      split at ht
      · obtain rfl := Host.Outcome.next.inj ht
        exact refl
      · obtain rfl := Host.Outcome.next.inj ht
        exact ends.succeed _ { releaseAll s with drvState := .disposed } (writes_releaseAll s)
    | pushRect x y w h ps =>
      rw [exec_pushRect, execPushRect] at ht
      refine ends.whenReady refl (fun _ => ?_) ht
      split
      · exact within_body _ _ _ _ _ _ s
      · exact refl
    | pushRectSolid x y w h c => exact ends.whenReady refl (fun _ => within_body _ _ _ _ _ _ s) ht
    | setRotation r =>
      rw [exec_setRotation, execSetRotation_eq] at ht
      refine ends.whenReady refl (fun _ => ?_) ht
      rw [sendMadctl_prims]
      exact within_prims (((command_within _ _ _).mono (by simp [writtenBy])).append
        (by simp [PrimsWithin, primParts, writtenBy])) s
    | setBacklight on =>
      rw [exec_setBacklight, execSetBacklight] at ht
      refine ends.whenReady refl (fun _ => ?_) ht
      split
      · exact within_setLine .bl _ s
      · exact refl
    | flush =>
      exact ends.finish ((within_flushTiles _ (flushStart s)).after ((writes_flushStart s).mono (by simp))) ht
    | reservedE | reservedF => obtain rfl := Host.Outcome.next.inj ht; exact ends.takeError _ _ s refl
    | markDirtyRect | markAll =>
      obtain rfl := Host.Outcome.next.inj ht
      intro k hk
      cases k with
      | dirty => exact absurd (List.mem_singleton_self _) hk
      | _ => rfl
    | pack565 | pack565a | unpack565 | blend565 | modulate565 => obtain rfl := Host.Outcome.next.inj ht; exact refl
    | swreset | slpout | colmod | caset | raset | madctl | ramwr | invon | invoff | dispon | panelCmd => cases hw

/-! ### The writers of a part -/

section
variable {i : Instr}

theorem writers_dirty (h : Part.dirty ∈ writtenBy i) :
    i = .markAll ∨ i = .flush ∨ ∃ x y w h, i = .markDirtyRect x y w h := by
  cases i with
  | markAll => exact .inl rfl
  | flush => exact .inr (.inl rfl)
  | markDirtyRect x y w h' => exact .inr (.inr ⟨x, y, w, h', rfl⟩)
  | _ => simp [writtenBy] at h

theorem writers_counters (h : Part.counters ∈ writtenBy i) : i = .flush := by
  cases i with
  | flush => rfl
  | _ => simp [writtenBy] at h

theorem writers_handles_or_rst (h : Part.handles ∈ writtenBy i ∨ Part.rst ∈ writtenBy i) : i = .init ∨ i = .dispose := by
  cases i with
  | init => exact .inl rfl
  | dispose => exact .inr rfl
  | _ => simp [writtenBy] at h

theorem writers_bl (h : Part.bl ∈ writtenBy i) : i = .dispose ∨ ∃ on, i = .setBacklight on := by
  cases i with
  | dispose => exact .inl rfl
  | setBacklight on => exact .inr ⟨on, rfl⟩
  | _ => simp [writtenBy] at h

theorem writers_rotation (h : Part.rotation ∈ writtenBy i) :
    i = .init ∨ (∃ r, i = .setRotation r) ∨ ∃ r, i = .madctl r := by
  cases i with
  | init => exact .inl rfl
  | setRotation r => exact .inr (.inl ⟨r, rfl⟩)
  | madctl r => exact .inr (.inr ⟨r, rfl⟩)
  | _ => simp [writtenBy] at h

/-- Beside the wire commands, six operations drive the DC line. -/
theorem writers_dc (h : Part.dc ∈ writtenBy i) (hc : hostCode i ≠ none) :
    i = .init ∨ (∃ x y w h ps, i = .pushRect x y w h ps) ∨
    (∃ x y w h c, i = .pushRectSolid x y w h c) ∨ (∃ r, i = .setRotation r) ∨ i = .flush ∨ i = .dispose := by
  cases i with
  | init => exact .inl rfl
  | pushRect x y w h' ps => exact .inr (.inl ⟨x, y, w, h', ps, rfl⟩)
  | pushRectSolid x y w h' c => exact .inr (.inr (.inl ⟨x, y, w, h', c, rfl⟩))
  | setRotation r => exact .inr (.inr (.inr (.inl ⟨r, rfl⟩)))
  | flush => exact .inr (.inr (.inr (.inr (.inl rfl))))
  | dispose => exact .inr (.inr (.inr (.inr (.inr rfl))))
  | swreset | slpout | colmod | caset | raset | madctl | ramwr | invon | invoff | dispon | panelCmd => exact absurd rfl hc
  | _ => simp [writtenBy] at h

end

/-! ### The dirty flags (R25, R26) -/

/-- A flag that is set is a flag of the file. -/
theorem lt_of_flagAt {fs : List Bool} {n : Nat} (h : flagAt fs n = true) : n < fs.length := by
  by_contra hn
  simp [flagAt, List.getD_eq_getElem?_getD, List.getElem?_eq_none (Nat.not_lt.mp hn)] at h

/-- FLUSH sets no flag. -/
theorem flush_flags {s t : State} (ht : exec .flush s = .next t) (n : Nat) (h : flagAt t.dirty n = true) :
    flagAt s.dirty n = true := by
  have ends : KeptByEnd fun u => flagAt u.dirty n = true → flagAt s.dirty n = true :=
    ⟨fun _ _ k => k, fun b e u k => by rwa [takeError_dirty]⟩
  refine ends.finish (flushTiles_of_body (fun u _ k => ?_) (fun u m r k => ?_) _ (flushStart s) id) ht h
  · exact (pushRectBody_steady _ _ _ _ _ _ u).mono (fun _ st => by rwa [st.dirty]) (fun _ _ st => by rwa [st.dirty])
  · rw [tileServiced_dirty, flagAt_clear]
    split
    · nofun
    · exact k

/-- Every other instruction clears none. -/
theorem exec_flags (i : Instr) {s t : State} (hi : i ≠ .flush) (ht : exec i s = .next t) (n : Nat)
    (h : flagAt s.dirty n = true) : flagAt t.dirty n = true := by
  have hn := lt_of_flagAt h
  by_cases hd : Part.dirty ∈ writtenBy i
  · obtain rfl | rfl | ⟨x, y, w, h', rfl⟩ := writers_dirty hd
    · obtain rfl := Host.Outcome.next.inj ht
      exact flagAt_allFlags s.dirty n hn
    · exact absurd rfl hi
    · obtain rfl := Host.Outcome.next.inj ht
      rw [succeed_dirty, flagAt_markedFlags _ _ _ _ _ _ _ hn, h, Bool.true_or]
  · have same : t.dirty = s.dirty := exec_writes i ht _ hd
    rw [same, h]

theorem wireCommand_of_hostCode_none {i : Instr} (h : hostCode i = none) (c : Cfg) : ∃ p, wireCommand c i = some p := by
  cases i with
  | swreset | slpout | colmod | caset | raset | madctl | ramwr | invon | invoff | dispon | panelCmd => exact ⟨_, rfl⟩
  | _ => cases h

/-- R24: a wire command that is not due leaves the DC level, and so does every operation but six. -/
theorem exec_dcLevel (i : Instr) {s t : State} (ht : exec i s = .next t) (hd : hostCode i = none → s.due ≠ some i)
    (hw : hostCode i ≠ none → Part.dc ∉ writtenBy i) : t.dcLevel = s.dcLevel := by
  by_cases hc : hostCode i = none
  · obtain ⟨p, hp⟩ := wireCommand_of_hostCode_none hc s.cfg
    rw [exec_wire_not_due i hp (hd hc)] at ht
    obtain rfl := Host.Outcome.next.inj ht
    exact takeError_dcLevel _ _ s
  · exact exec_writes i ht _ (hw hc)

/-- Settles O44: each clause is the table of writers, read for one part. -/
theorem registersHaveTheirWriters : Obligations.RegistersHaveTheirWriters := by
  intro i s t ht
  have writes := exec_writes i ht
  obtain ⟨-, -, inbox, -⟩ := exec_fixed i ht
  refine ⟨fun h1 h2 h3 => ?_, ?_, fun hi => exec_flags i hi ht, fun hi => ?_, fun h1 h2 => ?_, fun h1 h2 => ?_,
    fun h1 h2 h3 h4 h5 h6 h7 => ?_, fun h1 h2 h3 => ?_, fun hc => ?_, inbox⟩
  · exact writes .dirty fun h => by
      obtain rfl | rfl | ⟨x, y, w, h', rfl⟩ := writers_dirty h
      exacts [h1 rfl, h2 rfl, h3 _ _ _ _ rfl]
  · rintro rfl
    exact flush_flags ht
  · exact Prod.mk.inj (writes .counters fun h => hi (writers_counters h))
  · have handles := writes .handles fun h => (writers_handles_or_rst (.inl h)).elim h1 h2
    have rst : t.rstLevel = s.rstLevel := writes .rst fun h => (writers_handles_or_rst (.inr h)).elim h1 h2
    simp only [SamePart, Prod.mk.injEq] at handles
    obtain ⟨spi, dc, rst', bl⟩ := handles
    exact ⟨spi, dc, rst', bl, rst⟩
  · exact writes .bl fun h => (writers_bl h).elim h1 fun ⟨on, k⟩ => h2 on k
  · refine exec_dcLevel i ht h7 fun hc h => ?_
    obtain rfl | ⟨x, y, w, h', ps, rfl⟩ | ⟨x, y, w, h', c, rfl⟩ | ⟨r, rfl⟩ | rfl | rfl := writers_dc h hc
    exacts [h1 rfl, h2 _ _ _ _ _ rfl, h3 _ _ _ _ _ rfl, h4 _ rfl, h5 rfl, h6 rfl]
  · refine writes .rotation fun h => ?_
    obtain rfl | ⟨r, rfl⟩ | ⟨r, rfl⟩ := writers_rotation h
    exacts [h1 rfl, h2 _ rfl, h3 _ rfl]
  · obtain ⟨code, hcode⟩ := Option.ne_none_iff_exists'.mp hc
    exact exec_due i (wireCommand_of_hostCode hcode s.cfg) ht

end Sys2Proof.Proofs
end

section
/-! PROOFS. CUR_ROTATION is written only after the whole MADCTL command has gone through (spec/10_state.md R20, 42_framer.md R101,
43_sequencer.md R116, R119). -/

namespace Sys2Proof.Proofs

open Sys2Proof.Machine Sys2Proof.Claims

/-- R20: from `s` to `t` the rotation on record is as it was, or it is one whose MADCTL command has gone through on the handles
that `t` holds. -/
def Recorded (s t : State) : Prop :=
  t.curRotation = s.curRotation ∨ ∃ (r : BitVec 2) (pre post : List Entry), t.curRotation = some r ∧
    t.events = s.events ++ pre ++ commandEntries t 0x36 [madctlByte s.cfg r] ++ post

/-- From `s` to `t` no rotation has been recorded: CFG and the rotation are as they were, and events were only appended. -/
structure Unrotated (s t : State) : Prop where
  cfg : t.cfg = s.cfg
  rotation : t.curRotation = s.curRotation
  events : ∃ new, t.events = s.events ++ new

theorem commandEntries_congr {s t : State} (cfg : t.cfg = s.cfg) (spi : t.hSpi = s.hSpi) (dc : t.hDc = s.hDc) (op : Byte)
    (payload : List Byte) : commandEntries t op payload = commandEntries s op payload := by
  have hw : writeEntry t = writeEntry s := by funext bytes; simp [writeEntry, spi]
  simp only [commandEntries, dataEntries, setEntry, lineHandle, cfg, dc, hw]

theorem unrotated_refl (s : State) : Unrotated s s := ⟨rfl, rfl, [], (List.append_nil _).symm⟩

theorem Unrotated.trans {s t u : State} (h : Unrotated s t) (h' : Unrotated t u) : Unrotated s u := by
  obtain ⟨a, ha⟩ := h.events
  obtain ⟨b, hb⟩ := h'.events
  exact ⟨h'.cfg.trans h.cfg, h'.rotation.trans h.rotation, a ++ b, by rw [hb, ha, List.append_assoc]⟩

theorem Recorded.of_unrotated {s t : State} (h : Unrotated s t) : Recorded s t := .inl h.rotation

/-- What follows without another rotation, on the same handles, keeps the record. -/
theorem Recorded.trans {s t u : State} (h : Recorded s t) (h' : Unrotated t u) (st : Steady t u) : Recorded s u := by
  obtain same | ⟨r, pre, post, rotation, events⟩ := h
  · exact .inl (h'.rotation.trans same)
  · obtain ⟨new, hnew⟩ := h'.events
    refine .inr ⟨r, pre, post ++ new, h'.rotation.trans rotation, ?_⟩
    rw [hnew, events, commandEntries_congr st.cfg st.hSpi st.hDc, List.append_assoc]

theorem recorded_keptByEnd (s : State) : KeptByEnd (Recorded s) where
  succeed _ _ h := h
  takeError b e u h := by
    have handles : commandEntries (takeError b e u) = commandEntries u := by
      funext op payload; exact commandEntries_congr (by simp) (by simp) (by simp) op payload
    unfold Recorded
    rw [takeError_curRotation, takeError_events, handles]
    exact h

/-! ### The framing -/

theorem Ends.and {G G' : State → Prop} {B B' : OpError → State → Prop} {x : Ctl} (h : x.Ends G B) (h' : x.Ends G' B') :
    x.Ends (fun t => G t ∧ G' t) fun e t => B e t ∧ B' e t := by
  cases x <;> exact ⟨h, h'⟩

/-- A sequence of changes that does not write the rotation. -/
theorem unrotated_of_within {ks : List Part} {s : State} {x : Ctl} (hc : OnlyChanges s x) (hw : Within ks s x)
    (hk : Part.rotation ∉ ks) : x.Ends (Unrotated s) fun _ => Unrotated s := by
  have key : ∀ t, Changed s t → Writes ks s t → Unrotated s t := fun t c w => ⟨(bits_fixed c).1, w _ hk, bits_events c⟩
  exact (Ends.and hc hw).mono (fun t k => key t k.1 k.2) (fun _ t k => key t k.1 k.2)

theorem unrotated_prims {ks : List Part} {ps : List Prim} (h : PrimsWithin ks ps) (hk : Part.rotation ∉ ks) (s : State) :
    (runPrims ps s).Ends (Unrotated s) fun _ => Unrotated s :=
  unrotated_of_within (changes_prims ps s) (within_prims h s) hk

/-- After the record, a sequence that leaves the handles and does not write the rotation keeps it. -/
theorem Recorded.ends {s t : State} {x : Ctl} (h : Recorded s t) (hs : x.Ends (Steady t) fun _ => Steady t)
    (hu : x.Ends (Unrotated t) fun _ => Unrotated t) : x.Ends (Recorded s) fun _ => Recorded s :=
  (Ends.and hu hs).mono (fun _ k => h.trans k.1 k.2) (fun _ _ k => h.trans k.1 k.2)

/-- R101: MADCTL records its rotation where it has gone through, and leaves the record where it has not. -/
theorem madctl_records (r : BitVec 2) {s t : State} (h : Unrotated s t) :
    (runPrims (commandPrims s.cfg 0x36 [madctlByte s.cfg r] ++ [.rotate r]) t).Ends (Recorded s) fun _ => Recorded s := by
  rw [runPrims_append]
  cases hx : runPrims (commandPrims s.cfg 0x36 [madctlByte s.cfg r]) t with
  | raise e u =>
    have hu := unrotated_prims (command_within s.cfg 0x36 [madctlByte s.cfg r]) (by decide) t
    rw [hx] at hu
    exact .of_unrotated (h.trans hu)
  | go u =>
    obtain ⟨pre, hpre⟩ := h.events
    have hu := runPrims_go _ hx
    have st : Steady t u := hu ▸ foldl_afterPrim_steady _ t
    have sent : entriesOf t (commandPrims s.cfg 0x36 [madctlByte s.cfg r]) = commandEntries t 0x36 [madctlByte s.cfg r] := by
      rw [← h.cfg, entriesOf_command]
    have events : u.events = s.events ++ pre ++ commandEntries u 0x36 [madctlByte s.cfg r] := by
      rw [commandEntries_congr st.cfg st.hSpi st.hDc, ← hpre, ← sent, hu]
      exact foldl_afterPrim_events _ t
    exact .inr ⟨r, pre, [], rfl, events.trans (List.append_nil _).symm⟩

/-- R20: in a list of primitives with one MADCTL, the record is kept. -/
theorem prims_record {ks : List Part} {ps qs : List Prim} (hp : PrimsWithin ks ps) (hq : PrimsWithin ks qs)
    (hk : Part.rotation ∉ ks) (r : BitVec 2) {s t : State} (h : Unrotated s t) :
    (runPrims (ps ++ (commandPrims s.cfg 0x36 [madctlByte s.cfg r] ++ [.rotate r]) ++ qs) t).Ends (Recorded s)
      fun _ => Recorded s := by
  rw [runPrims_append, runPrims_append]
  refine (((unrotated_prims hp hk t).mono (fun _ k => h.trans k) (fun _ _ k => h.trans k)).bind
    (fun u k => madctl_records r k) (fun _ _ k => .of_unrotated k)).bind (fun u k => ?_) (fun _ _ k => k)
  exact k.ends ((runPrims_steady qs u).mono (fun _ st => st) (fun _ _ st => st.1)) (unrotated_prims hq hk u)

/-! ### The three instructions that write CUR_ROTATION -/

/-- R116: INIT sends MADCTL on the handles it has acquired. -/
theorem initBody_recorded (s : State) : (initBody s).Ends (Recorded s) fun _ => Recorded s := by
  have acquired : (acquire s).Ends (Unrotated s) fun _ => Unrotated s := by
    refine acquire_of_open (fun r t k => ?_) (unrotated_refl s)
    exact (unrotated_of_within (changes_open r t) (within_open r t) (by decide)).mono (fun _ k' => k.trans k')
      (fun _ _ k' => k.trans k')
  unfold initBody
  refine (acquired.bind (G' := Recorded s) (fun t k => ?_) (fun _ _ k => .of_unrotated k)).bind (fun t k => ?_) (fun _ _ k => k)
  · rw [bringUp_prims, bringUpPrims_eq, k.cfg]
    exact prims_record (ks := [.rst, .dc]) (beforeMadctl_within _) ((commandWait_within _ _ _ _).mono (by simp)) (by decide) _ k
  · have ready : Recorded s { t with drvState := .ready } := k
    exact ready.ends (pushRectBody_steady _ _ _ _ _ _ _) (unrotated_of_within (changes_body _ _ _ _ _ _ _)
      (within_body _ _ _ _ _ _ _) (by decide))

theorem exec_recorded (i : Instr) {s t : State} (ht : exec i s = .next t) : Recorded s t := by
  have ends := recorded_keptByEnd s
  have refl := Recorded.of_unrotated (unrotated_refl s)
  by_cases hk : Part.rotation ∈ writtenBy i
  · obtain rfl | ⟨r, rfl⟩ | ⟨r, rfl⟩ := writers_rotation hk
    · rw [exec_init, execInit] at ht
      split at ht
      · exact ends.finish (initBody_recorded s) ht
      · obtain rfl := Host.Outcome.next.inj ht
        exact ends.takeError _ _ s refl
    · rw [exec_setRotation, execSetRotation_eq] at ht
      refine ends.whenReady refl (fun _ => ?_) ht
      rw [sendMadctl_prims]
      exact madctl_records r (unrotated_refl s)
    · rw [wire_prims (.madctl r) _ _ _ s rfl] at ht
      split at ht
      · have taken : Unrotated s { s with due := none } := ⟨rfl, rfl, [], (List.append_nil _).symm⟩
        rw [waitPrims_zero, List.append_nil] at ht
        exact ends.endRow (madctl_records r taken) ht
      · obtain rfl := Host.Outcome.next.inj ht
        exact ends.takeError _ _ s refl
  · exact .inl (exec_writes i ht _ hk)

/-- Settles O45: a rotation that has changed is one that the instruction recorded. -/
theorem rotationRecordedAfterWrite : Obligations.RotationRecordedAfterWrite := fun i _ _ ht hne =>
  (exec_recorded i ht).resolve_left hne

end Sys2Proof.Proofs
end

section
/-! PROOFS. The memories and the flags over steps (spec/20_memory.md R33, 10_state.md R25): they keep their form, a host write
puts one word in its place, and the histories only grow (R46, R156). -/

namespace Sys2Proof.Proofs

open Sys2Proof.Machine Sys2Proof.Safety

/-! ### The form of the memories and of the grid (R25, R33) -/

/-- The memories are canonical and the grid has its flags. -/
def MemoryAndGrid (s : State) : Prop := MemoryCanonical s ∧ GridShaped s

theorem act_memoryAndGrid {s t : State} (a : Act s t) : MemoryAndGrid s → MemoryAndGrid t := by
  rintro ⟨memory, grid⟩
  exact ⟨act_memory a memory, act_grid a grid⟩

/-- R33: a word written at a pixel keeps the frame buffer canonical and within the display. -/
theorem memoryCanonical_write {s : State} {a : Nat} (v : Word) (ha : a < pixelCount s.cfg) (h : MemoryCanonical s) :
    MemoryCanonical { s with fb := Memory.write s.fb a v } := by
  obtain ⟨fb, gram, pixels⟩ := h
  refine ⟨Memory.wf_write s.fb a v fb, gram, fun e he => ?_⟩
  obtain rfl | old := Memory.mem_write s.fb a v e he
  · exact ha
  · exact pixels e old

/-- R31, R144: block reset gives every tile its flag. -/
theorem gridShaped_resetBlock {s : State} (h : GridShaped s) : GridShaped (resetBlock s) := ⟨h.1, List.length_replicate⟩

/-- Settles O51: every act keeps the form of both, a host write changes the frame buffer at a pixel of the display, and block
reset leaves the memories and gives each tile a flag. -/
theorem stepKeepsMemoryAndGrid : Obligations.StepKeepsMemoryAndGrid := fun _ _ h ht =>
  step_keeps_of_acts (P := MemoryAndGrid) (fun _ _ hp => hp) (fun _ _ => act_memoryAndGrid)
    (fun _ _ v ha hp => ⟨memoryCanonical_write v ha hp.1, hp.2⟩)
    (fun _ _ _ hp => ⟨hp.1, gridShaped_resetBlock hp.2⟩) h ht ⟨h.memory, h.grid⟩

/-! ### Marking twice (R49, R82, R84) -/

/-- R82: a flag that is set, or hit once, gains nothing from a second hit. -/
theorem orFlagsFrom_orFlagsFrom (hit : Nat → Bool) (fs : List Bool) :
    ∀ n, orFlagsFrom hit n (orFlagsFrom hit n fs) = orFlagsFrom hit n fs := by
  induction fs with
  | nil => exact fun _ => rfl
  | cons f fs ih => exact fun n => by rw [orFlagsFrom, orFlagsFrom, ih, Bool.or_assoc, Bool.or_self]

theorem markedFlags_markedFlags (c : Cfg) (x y w h : BitVec 32) (fs : List Bool) :
    markedFlags c x y w h (markedFlags c x y w h fs) = markedFlags c x y w h fs := orFlagsFrom_orFlagsFrom _ fs 0

theorem allFlags_allFlags (fs : List Bool) : allFlags (allFlags fs) = allFlags fs := by
  rw [allFlags_eq (allFlags fs), allFlags_length, allFlags_eq]

/-- Settles O10: both operations succeed, with CFG as it was, and each one's flags are left alone by itself. -/
theorem markingIsIdempotent : Obligations.MarkingIsIdempotent := by
  rintro i s (rfl | ⟨x, y, w, h, rfl⟩)
  · exact ⟨_, _, rfl, rfl, allFlags_allFlags s.dirty⟩
  · exact ⟨_, _, rfl, rfl, markedFlags_markedFlags s.cfg x y w h s.dirty⟩

/-! ### The histories (R46, R156) -/

/-- Settles O47: an instruction appends events and at most one result; a host write and block reset touch neither history. -/
theorem historyIsOnlyAppended : Obligations.HistoryIsOnlyAppended := by
  have same : ∀ {α : Type} (l : List α), ∃ new, l = l ++ new := fun l => ⟨[], (List.append_nil l).symm⟩
  intro s t ht
  obtain ⟨-, rfl | ⟨rest, ⟨i, hi⟩ | ⟨a, v, -, rfl⟩ | ⟨-, rfl⟩⟩⟩ := step_cases ht
  · exact ⟨same _, same _⟩
  · obtain ⟨-, -, -, ⟨r, results, -⟩ | ⟨results, -⟩, events⟩ := exec_fixed i hi
    · exact ⟨events, [r], results⟩
    · exact ⟨events, results ▸ same _⟩
  · exact ⟨same _, same _⟩
  · exact ⟨same _, same _⟩

/-! ### Host writes (R33, R139) -/

/-- R139: a frame-buffer write is taken from the inputs and performed. -/
theorem step_fbWrite {s : State} {a : Nat} {v : Word} {rest : List Input} (hwf : s.cfg.wf = true)
    (hi : s.inbox = .fbWrite a v :: rest) : step s = hostWrite a v { s with inbox := rest } := by
  simp [step, hwf, performNext, hi, performInput]

/-- Settles O56: the write is that of the canonical memory, where a pixel has the index. -/
theorem hostWritesFrameBuffer : Obligations.HostWritesFrameBuffer := by
  intro s a v rest hwf hi
  rw [step_fbWrite hwf hi]
  refine ⟨fun ha => ?_, fun ha => if_neg (Nat.not_lt.mpr ha)⟩
  exact ⟨_, if_pos ha, rfl, memRead_write_same { s with inbox := rest } a v,
    fun b hb => memRead_write_other { s with inbox := rest } a b v hb⟩

end Sys2Proof.Proofs
end

section
/-! PROOFS. Who reads the frame buffer (spec/20_memory.md R34): no instruction writes it, and what an instruction does is the same
over any other frame buffer; for FLUSH, over any that agrees on the pixels of the dirty tiles. -/

namespace Sys2Proof.Proofs

open Sys2Proof.Machine Sys2Proof.Claims

/-- The sequence with `m` as the frame buffer at its end. -/
def ctlWithFb (m : Memory) : Ctl → Ctl
  | .go s => .go { s with fb := m }
  | .raise e s => .raise e { s with fb := m }

/-- The outcome with `m` as the frame buffer of its next state. -/
def outcomeWithFb (m : Memory) : Host.Outcome State Fault Refusal → Host.Outcome State Fault Refusal
  | .next s => .next { s with fb := m }
  | .fault f => .fault f
  | .refused r => .refused r

/-- From `s`, the sequence does over `m` what it does over the frame buffer of `s`. -/
def SameOverFb (m : Memory) (f : State → Ctl) (s : State) : Prop := f { s with fb := m } = ctlWithFb m (f s)

section
variable {m : Memory}

theorem SameOverFb.bind {f g : State → Ctl} {s : State} (hf : SameOverFb m f s)
    (hg : (f s).Ends (SameOverFb m g) fun _ _ => True) : SameOverFb m (fun s => (f s).bind g) s := by
  have hf : f { s with fb := m } = ctlWithFb m (f s) := hf
  show (f { s with fb := m }).bind g = ctlWithFb m ((f s).bind g)
  rw [hf]
  cases hx : f s with
  | go t => rw [hx] at hg; exact hg
  | raise e t => rfl

theorem sameOverFb_bind {f g : State → Ctl} {s : State} (hf : SameOverFb m f s) (hg : ∀ t, SameOverFb m g t) :
    SameOverFb m (fun s => (f s).bind g) s :=
  hf.bind (by cases f s with | go t => exact hg t | raise e t => trivial)

/-! ### The primitives and the bodies -/

theorem setLine_overFb (L : Line) (l : Bit) (s : State) : SameOverFb m (setLine L l) s := by
  have hn : nextAnswer { s with fb := m } = nextAnswer s := rfl
  unfold SameOverFb setLine
  rw [hn]
  split <;> cases L <;> rfl

theorem tx_overFb (bytes : List Byte) (s : State) : SameOverFb m (tx bytes) s := by
  have hn : nextAnswer { s with fb := m } = nextAnswer s := rfl
  unfold SameOverFb tx
  rw [hn]
  split
  · split <;> rfl
  · rfl

theorem prims_overFb (ps : List Prim) : ∀ s, SameOverFb m (runPrims ps) s := by
  induction ps with
  | nil => exact fun _ => rfl
  | cons p ps ih =>
    intro s
    refine sameOverFb_bind (f := runPrim p) ?_ ih
    cases p with
    | set L l => exact setLine_overFb L l s
    | write bytes => exact tx_overFb bytes s
    | wait ms => rfl
    | rotate r => rfl

theorem body_overFb (tag : OpTag) (x y w h : Nat) (src : List Word) (s : State) :
    SameOverFb m (pushRectBody tag x y w h src) s := by
  have prims := prims_overFb (m := m) (rectPrims s.cfg x y w h src) s
  unfold SameOverFb at prims ⊢
  rw [pushRectBody_prims, pushRectBody_prims]
  dsimp only
  rw [prims]
  split
  · rfl
  · split
    · rfl
    · split <;> rfl

theorem open_overFb (r : Resource) (s : State) : SameOverFb m (openRes r) s := by
  have hn : nextAnswer { s with fb := m } = nextAnswer s := rfl
  unfold SameOverFb
  cases r with
  | spi => simp only [openRes, openSpi, hn]; split <;> rfl
  | gpio L => simp only [openRes, openLine, hn]; split <;> cases L <;> rfl

theorem initBody_overFb (s : State) : SameOverFb m initBody s := by
  have backlight : ∀ t, SameOverFb m (fun u => if hasBl u.cfg then openLine .bl u else .go u) t := by
    intro t
    unfold SameOverFb
    dsimp only
    split
    · exact open_overFb (.gpio .bl) t
    · rfl
  have bring : ∀ t, SameOverFb m bringUp t := by
    intro t
    unfold SameOverFb
    rw [bringUp_prims, bringUp_prims]
    exact prims_overFb _ t
  have acquired : SameOverFb m acquire s :=
    sameOverFb_bind (sameOverFb_bind (sameOverFb_bind (open_overFb .spi s) (open_overFb (.gpio .dc)))
      (open_overFb (.gpio .rst))) backlight
  exact sameOverFb_bind (sameOverFb_bind acquired bring) fun t => body_overFb _ _ _ _ _ _ { t with drvState := .ready }

theorem closeSpi_overFb (s : State) : closeSpi { s with fb := m } = { closeSpi s with fb := m } := by
  unfold closeSpi
  dsimp only
  split <;> rfl

theorem releaseLine_overFb (L : Line) (s : State) : releaseLine L { s with fb := m } = { releaseLine L s with fb := m } := by
  have hl : lineHandle { s with fb := m } L = lineHandle s L := by cases L <;> rfl
  unfold releaseLine
  rw [hl]
  split
  · cases L <;> rfl
  · rfl

theorem releaseAll_overFb (s : State) : releaseAll { s with fb := m } = { releaseAll s with fb := m } := by
  simp only [releaseAll, closeSpi_overFb, releaseLine_overFb]

/-! ### The ends of the operations -/

theorem takeError_overFb (b : Bool) (e : OpError) (s : State) :
    .next (takeError b e { s with fb := m }) = outcomeWithFb m (.next (takeError b e s)) := by
  unfold takeError
  split <;> rfl

theorem finish_overFb (b : Bool) (v : State → Value) (hv : ∀ s, v { s with fb := m } = v s) (x : Ctl) :
    finish b v (ctlWithFb m x) = outcomeWithFb m (finish b v x) := by
  cases x with
  | go s => exact congrArg (fun w => Host.Outcome.next (succeed w { s with fb := m })) (hv s)
  | raise e s => exact takeError_overFb b e s

theorem endRow_overFb (x : Ctl) : endRow (ctlWithFb m x) = outcomeWithFb m (endRow x) := by
  cases x with
  | go s => rfl
  | raise e s => exact takeError_overFb false e s

theorem whenReady_overFb (tag : OpTag) {f : State → Ctl} {s : State} (hf : SameOverFb m f s) :
    whenReady tag f { s with fb := m } = outcomeWithFb m (whenReady tag f s) := by
  unfold whenReady
  rw [hf]
  dsimp only
  split
  · exact finish_overFb false _ (fun _ => rfl) (f s)
  · exact takeError_overFb false _ s

/-! ### Every instruction but FLUSH -/

/-- R96 to R106: a wire command, due or not. -/
theorem wire_overFb (i : Instr) {s : State} {c : Byte × List Byte × Nat} (hw : wireCommand s.cfg i = some c) :
    exec i { s with fb := m } = outcomeWithFb m (exec i s) := by
  obtain ⟨op, payload, ms⟩ := c
  have prims := prims_overFb (m := m) (commandPrims s.cfg op payload ++ waitPrims ms ++ rotatePrims i) { s with due := none }
  rw [wire_prims i op payload ms s hw, wire_prims i op payload ms { s with fb := m } hw]
  dsimp only
  split
  · exact (congrArg endRow prims).trans (endRow_overFb _)
  · exact takeError_overFb false _ s

/-- R34: an instruction other than FLUSH does not read the frame buffer. -/
theorem exec_overFb (i : Instr) (hi : i ≠ .flush) (s : State) :
    exec i { s with fb := m } = outcomeWithFb m (exec i s) := by
  cases hw : wireCommand s.cfg i with
  | some c => exact wire_overFb i hw
  | none =>
    cases i with
    | init =>
      simp only [exec_init, execInit]
      split
      · exact (congrArg _ (initBody_overFb s)).trans (finish_overFb true _ (fun _ => rfl) (initBody s))
      · exact takeError_overFb _ _ s
    | dispose =>
      simp only [exec_dispose, execDispose]
      split
      · rfl
      · rw [releaseAll_overFb]; rfl
    | pushRect x y w h ps =>
      simp only [exec_pushRect, execPushRect]
      refine whenReady_overFb _ ?_
      unfold SameOverFb
      dsimp only
      split
      · exact body_overFb _ _ _ _ _ _ s
      · rfl
    | pushRectSolid x y w h c => exact whenReady_overFb _ (body_overFb _ _ _ _ _ _ s)
    | setRotation r =>
      simp only [exec_setRotation, execSetRotation_eq]
      refine whenReady_overFb _ ?_
      unfold SameOverFb
      rw [sendMadctl_prims, sendMadctl_prims]
      exact prims_overFb _ s
    | setBacklight on =>
      simp only [exec_setBacklight, execSetBacklight]
      refine whenReady_overFb _ ?_
      unfold SameOverFb
      dsimp only
      split
      · exact setLine_overFb .bl _ s
      · rfl
    | flush => exact absurd rfl hi
    | reservedE | reservedF => exact takeError_overFb _ _ s
    | markDirtyRect | markAll | pack565 | pack565a | unpack565 | blend565 | modulate565 => rfl
    | swreset | slpout | colmod | caset | raset | madctl | ramwr | invon | invoff | dispon | panelCmd => cases hw

/-! ### FLUSH -/

/-- The two frame buffers agree on the pixels of those of the tiles `ns` that are dirty in `s`. -/
def AgreeOnDirty (m : Memory) (ns : List Nat) (s : State) : Prop :=
  ∀ n ∈ ns, flagAt s.dirty n = true → ∀ a ∈ rectIndices s.cfg (tileRectAt s.cfg n), memRead { s with fb := m } a = memRead s a

/-- R87: what EXTRACT reads is the pixels of its rectangle. -/
theorem extractRect_overFb {r : Rect} {s : State} (h : ∀ a ∈ rectIndices s.cfg r, memRead { s with fb := m } a = memRead s a) :
    extractRect r { s with fb := m } = extractRect r s := List.map_congr_left h

theorem flushTile_overFb {n : Nat} {s : State}
    (h : flagAt s.dirty n = true → ∀ a ∈ rectIndices s.cfg (tileRectAt s.cfg n), memRead { s with fb := m } a = memRead s a) :
    SameOverFb m (flushTile n) s := by
  unfold SameOverFb flushTile
  dsimp only
  split
  case isTrue hd =>
    rw [extractRect_overFb (h hd)]
    exact sameOverFb_bind (body_overFb _ _ _ _ _ _ s) (g := fun u => .go (tileServiced n (tileRectAt s.cfg n) u)) fun _ => rfl
  case isFalse => rfl

/-- R85: one tile of the loop sets no flag, so the frame buffers still agree on what is dirty. -/
theorem flushTile_agree {ns : List Nat} (n : Nat) {s : State} (h : AgreeOnDirty m ns s) :
    (flushTile n s).Ends (AgreeOnDirty m ns) fun _ _ => True := by
  unfold flushTile
  split
  · refine (pushRectBody_steady _ _ _ _ _ _ s).bind (fun u st k hk hd => ?_) fun _ _ _ => trivial
    rw [tileServiced_dirty, flagAt_clear, st.dirty] at hd
    have old : flagAt s.dirty k = true := by
      split at hd
      · cases hd
      · exact hd
    have read : memRead (tileServiced n (tileRectAt s.cfg n) u) = memRead s := by
      funext a; simp only [memRead, tileServiced_fb, st.fb]
    rw [read, tileServiced_cfg, st.cfg]
    exact h k hk old
  · exact h

theorem flushTiles_overFb (ns : List Nat) : ∀ s, AgreeOnDirty m ns s → SameOverFb m (flushTiles ns) s := by
  induction ns with
  | nil => exact fun _ _ => rfl
  | cons n ns ih =>
    intro s h
    obtain ⟨head, tail⟩ := List.forall_mem_cons.mp h
    exact (flushTile_overFb head).bind ((flushTile_agree n tail).mono ih fun _ _ k => k)

/-- R34: FLUSH reads the pixels of the dirty tiles only. -/
theorem execFlush_overFb {s : State} (h : AgreeOnDirty m (List.range (tileCount s.cfg)) s) :
    exec .flush { s with fb := m } = outcomeWithFb m (exec .flush s) := by
  have loop := flushTiles_overFb (List.range (tileCount s.cfg)) (flushStart s) h
  exact (congrArg _ loop).trans (finish_overFb false _ (fun _ => rfl) _)

end

/-- R33, R86: the pixels of a tile are pixels of the display. -/
theorem lt_pixelCount_of_mem_tile {c : Cfg} {n a : Nat} (ha : a ∈ rectIndices c (tileRectAt c n)) : a < pixelCount c := by
  simp only [rectIndices, List.mem_flatMap, List.mem_map, List.mem_range] at ha
  obtain ⟨j, hj, i, hi, rfl⟩ := ha
  simp only [tileRectAt, tileRect] at hi hj ⊢
  have hx : n % tilesX c * c.tileW + i < c.panelW.toNat := by omega
  have hy : n / tilesX c * c.tileH + j < c.panelH.toNat := by omega
  exact (flatIndex_lt hx hy).trans_eq (Nat.mul_comm _ _)

/-- Settles O43: the frame buffer is among what every instruction leaves; over another one each instruction does the same, FLUSH
where the two agree on the tiles it finds dirty. -/
theorem onlyFlushReadsFrameBuffer : Obligations.OnlyFlushReadsFrameBuffer := by
  intro i s t ht
  obtain ⟨-, fb, -⟩ := exec_fixed i ht
  refine ⟨fb, fun a => by rw [memRead, fb, memRead], fun m hi => ?_, fun m hi agree => ?_,
    fun _ n _ a ha => lt_pixelCount_of_mem_tile ha⟩
  · rw [exec_overFb i hi, ht]; rfl
  · subst hi
    rw [execFlush_overFb fun n hn hd => agree n (List.mem_filter.mpr ⟨hn, hd⟩), ht]; rfl

end Sys2Proof.Proofs
end

section
/-! PROOFS. Records and instructions (spec/30_encoding.md R52 to R64): the decoder undoes the encoder, every operation code has an
instruction, and a step performs what its record decodes to. -/

namespace Sys2Proof.Proofs

open Sys2Proof.Machine Sys2Proof.Claims

/-! ### The decoder undoes the encoder (R52, R53, R59, R61) -/

theorem word32_be32 (v : BitVec 32) :
    word32 (v.extractLsb' 24 8) (v.extractLsb' 16 8) (v.extractLsb' 8 8) (v.extractLsb' 0 8) = v := by
  unfold word32
  rw [BitVec.extractLsb'_append_extractLsb'_eq_extractLsb' (by rfl),
    BitVec.extractLsb'_append_extractLsb'_eq_extractLsb' (by rfl),
    BitVec.extractLsb'_append_extractLsb'_eq_extractLsb' (by rfl), BitVec.extractLsb'_eq_self]

theorem wordsOf_be16Stream (ps : List Word) : wordsOf (be16Stream ps) = some ps := by
  induction ps with
  | nil => rfl
  | cons p ps ih =>
    show (wordsOf (be16Stream ps)).map (word16 (p.extractLsb' 8 8) (p.extractLsb' 0 8) :: ·) = some (p :: ps)
    rw [ih, word16_be16, Option.map_some]

theorem fourWords_be16 (x y w h : Word) (rest : List Byte) :
    fourWords (be16 x ++ be16 y ++ be16 w ++ be16 h ++ rest) = some ((x, y, w, h), rest) := by
  simp [be16, fourWords, word16_be16]

theorem fourLongs_be32 (x y w h : BitVec 32) : fourLongs (be32 x ++ be32 y ++ be32 w ++ be32 h) = some (x, y, w, h) := by
  simp [be32, fourLongs, word32_be32]

theorem decodeTwoWords_be16 (first : Byte) (f : Word → Word → Instr) (a b : Word) :
    decodeTwoWords first f (be16 a ++ be16 b) = .ok (f a b) := by
  simp [be16, decodeTwoWords, word16_be16]

/-- R54: a rotation code is the low two bits of its byte. -/
theorem extract_rotationByte (r : BitVec 2) : (r.setWidth 8).extractLsb' 0 2 = r := by
  revert r; decide

/-- R52, R53, R59, R61: of a well-formed instruction the decoder reads every operand back from its own place. -/
theorem decode_encode (i : Instr) (hi : i.wf = true) : decode (encode i) = .ok i := by
  cases i with
  | init | dispose | markAll | flush | pack565 | pack565a | reservedE | reservedF | swreset | slpout | colmod | invon | invoff
  | dispon => rfl
  | pushRect x y w h ps =>
    show decodePushRect 0x01 (be16 x ++ be16 y ++ be16 w ++ be16 h ++ be16Stream ps) = _
    simp only [decodePushRect, fourWords_be16, wordsOf_be16Stream]
  | pushRectSolid x y w h c =>
    show decodePushRectSolid 0x02 (be16 x ++ be16 y ++ be16 w ++ be16 h ++ be16 c) = _
    simp only [decodePushRectSolid, fourWords_be16]
    exact congrArg (fun c => Except.ok (Instr.pushRectSolid x y w h c)) (word16_be16 c)
  | setRotation r => exact congrArg (fun r => Except.ok (Instr.setRotation r)) (extract_rotationByte r)
  | setBacklight on => cases on <;> rfl
  | markDirtyRect x y w h =>
    show decodeMarkDirtyRect 0x06 (be32 x ++ be32 y ++ be32 w ++ be32 h) = _
    simp only [decodeMarkDirtyRect, fourLongs_be32]
  | unpack565 c => exact congrArg (fun c => Except.ok (Instr.unpack565 c)) (word16_be16 c)
  | blend565 src dst alpha =>
    exact congrArg₂ (fun s d => Except.ok (Instr.blend565 s d alpha)) (word16_be16 src) (word16_be16 dst)
  | modulate565 a b => exact decodeTwoWords_be16 0x0D .modulate565 a b
  | caset xs xe => exact decodeTwoWords_be16 0x2A .caset xs xe
  | raset ys ye => exact decodeTwoWords_be16 0x2B .raset ys ye
  | madctl r => exact congrArg (fun r => Except.ok (Instr.madctl r)) (extract_rotationByte r)
  | ramwr ps =>
    show decodeRamwr 0x2C (be16Stream ps) = _
    simp only [decodeRamwr, wordsOf_be16Stream]
  | panelCmd op payload delayMs => exact if_pos hi

/-- Settles O58: each instruction's operands are read back by its own decoder. -/
theorem decodeOfEncode : Obligations.DecodeOfEncode := decode_encode

/-- A record written out by hand decodes to the instruction whose encoding it is. -/
theorem decode_of_eq_encode {r : Record} {i : Instr} (hr : r = encode i) (hi : i.wf = true) : decode r = .ok i := by
  rw [hr, decode_encode i hi]

/-- Settles O60: each of the six records is the encoding of its operation. -/
theorem writtenRecordsDecode : Obligations.WrittenRecordsDecode := by
  refine ⟨?_, ?_, ?_, ?_, ?_, ?_⟩ <;> exact decode_of_eq_encode (by decide) (by decide)

/-! ### Every operation code has an instruction (R52, R55) -/

/-- R52, R123: an instruction of each operation code. -/
def instrOfCode (code : BitVec 4) : Instr :=
  match code.toNat with
  | 0x0 => .init
  | 0x1 => .pushRect 0 0 0 0 []
  | 0x2 => .pushRectSolid 0 0 0 0 0
  | 0x3 => .setRotation 0
  | 0x4 => .setBacklight false
  | 0x5 => .dispose
  | 0x6 => .markDirtyRect 0 0 0 0
  | 0x7 => .markAll
  | 0x8 => .flush
  | 0x9 => .pack565 0 0 0
  | 0xA => .pack565a 0 0 0 0
  | 0xB => .unpack565 0
  | 0xC => .blend565 0 0 0
  | 0xD => .modulate565 0 0
  | 0xE => .reservedE
  | _ => .reservedF

/-- Its record has the code as first byte, on the host port. -/
theorem encode_instrOfCode : ∀ code : BitVec 4, (instrOfCode code).wf = true ∧
    encode (instrOfCode code) = ⟨.host, code.setWidth 8 :: (encode (instrOfCode code)).bytes.tail⟩ := by decide

theorem decode_instrOfCode (code : BitVec 4) :
    decode ⟨.host, code.setWidth 8 :: (encode (instrOfCode code)).bytes.tail⟩ = .ok (instrOfCode code) := by
  obtain ⟨wf, record⟩ := encode_instrOfCode code
  rw [← record, decode_encode _ wf]

section
variable {first : Byte} {rest : List Byte} {i : Instr}

/-! What each reader of operands can answer. -/

theorem of_decodeBare {j : Instr} (h : decodeBare first j rest = .ok i) : i = j := by
  unfold decodeBare at h
  split at h
  · exact (Except.ok.inj h).symm
  · cases h

theorem of_decodePushRect (h : decodePushRect first rest = .ok i) : ∃ x y w h ps, i = .pushRect x y w h ps := by
  unfold decodePushRect at h
  split at h
  · cases h
  · split at h
    · exact ⟨_, _, _, _, _, (Except.ok.inj h).symm⟩
    · cases h

theorem of_decodePushRectSolid (h : decodePushRectSolid first rest = .ok i) : ∃ x y w h c, i = .pushRectSolid x y w h c := by
  unfold decodePushRectSolid at h
  split at h
  · exact ⟨_, _, _, _, _, (Except.ok.inj h).symm⟩
  · cases h

theorem of_decodeMarkDirtyRect (h : decodeMarkDirtyRect first rest = .ok i) : ∃ x y w h, i = .markDirtyRect x y w h := by
  unfold decodeMarkDirtyRect at h
  split at h
  · exact ⟨_, _, _, _, (Except.ok.inj h).symm⟩
  · cases h

theorem of_decodeByte {f : Byte → Instr} (h : decodeByte first f rest = .ok i) : ∃ a, i = f a := by
  unfold decodeByte at h
  split at h
  · exact ⟨_, (Except.ok.inj h).symm⟩
  · cases h

theorem of_decodeTwoWords {f : Word → Word → Instr} (h : decodeTwoWords first f rest = .ok i) : ∃ a b, i = f a b := by
  unfold decodeTwoWords at h
  split at h
  · exact ⟨_, _, (Except.ok.inj h).symm⟩
  · cases h

theorem of_decodePack565 (h : decodePack565 first rest = .ok i) : ∃ r g b, i = .pack565 r g b := by
  unfold decodePack565 at h
  split at h
  · exact ⟨_, _, _, (Except.ok.inj h).symm⟩
  · cases h

theorem of_decodePack565a (h : decodePack565a first rest = .ok i) : ∃ r g b a, i = .pack565a r g b a := by
  unfold decodePack565a at h
  split at h
  · exact ⟨_, _, _, _, (Except.ok.inj h).symm⟩
  · cases h

theorem of_decodeUnpack565 (h : decodeUnpack565 first rest = .ok i) : ∃ c, i = .unpack565 c := by
  unfold decodeUnpack565 at h
  split at h
  · exact ⟨_, (Except.ok.inj h).symm⟩
  · cases h

theorem of_decodeBlend565 (h : decodeBlend565 first rest = .ok i) : ∃ s d a, i = .blend565 s d a := by
  unfold decodeBlend565 at h
  split at h
  · exact ⟨_, _, _, (Except.ok.inj h).symm⟩
  · cases h

/-- R52, R55: what the host port reads has the code of the first byte. -/
theorem decodeHost_code (h : decodeHost first rest = .ok i) : hostCode i = some (opCode first) := by
  have code : ∀ k : BitVec 4, (opCode first).toNat = k.toNat → hostCode i = some k → hostCode i = some (opCode first) :=
    fun k hk hi => hi.trans (congrArg some (BitVec.eq_of_toNat_eq hk.symm))
  unfold decodeHost at h
  split at h
  case h_1 k => obtain rfl := of_decodeBare h; exact code 0x0 k rfl
  case h_2 k => obtain ⟨_, _, _, _, _, rfl⟩ := of_decodePushRect h; exact code 0x1 k rfl
  case h_3 k => obtain ⟨_, _, _, _, _, rfl⟩ := of_decodePushRectSolid h; exact code 0x2 k rfl
  case h_4 k => obtain ⟨_, rfl⟩ := of_decodeByte h; exact code 0x3 k rfl
  case h_5 k => obtain ⟨_, rfl⟩ := of_decodeByte h; exact code 0x4 k rfl
  case h_6 k => obtain rfl := of_decodeBare h; exact code 0x5 k rfl
  case h_7 k => obtain ⟨_, _, _, _, rfl⟩ := of_decodeMarkDirtyRect h; exact code 0x6 k rfl
  case h_8 k => obtain rfl := of_decodeBare h; exact code 0x7 k rfl
  case h_9 k => obtain rfl := of_decodeBare h; exact code 0x8 k rfl
  case h_10 k => obtain ⟨_, _, _, rfl⟩ := of_decodePack565 h; exact code 0x9 k rfl
  case h_11 k => obtain ⟨_, _, _, _, rfl⟩ := of_decodePack565a h; exact code 0xA k rfl
  case h_12 k => obtain ⟨_, rfl⟩ := of_decodeUnpack565 h; exact code 0xB k rfl
  case h_13 k => obtain ⟨_, _, _, rfl⟩ := of_decodeBlend565 h; exact code 0xC k rfl
  case h_14 k => obtain ⟨_, _, rfl⟩ := of_decodeTwoWords h; exact code 0xD k rfl
  case h_15 k => obtain rfl := of_decodeBare h; exact code 0xE k rfl
  case h_16 =>
    obtain rfl := of_decodeBare h
    refine code 0xF ?_ rfl
    have := (opCode first).isLt
    show (opCode first).toNat = 15
    simp only [imp_false] at *
    omega

end

/-- Settles O59: each code has its instruction's own record, and the host port reads an instruction of the record's code. -/
theorem hostDecodeIsTotal : Obligations.HostDecodeIsTotal := by
  have hasCode : ∀ (first : Byte) (rest : List Byte) (i : Instr), decode ⟨.host, first :: rest⟩ = .ok i →
      hostCode i = some (first.extractLsb' 0 4) := fun _ _ _ => decodeHost_code
  refine ⟨fun code => ⟨_, _, decode_instrOfCode code, ?_, ?_, ?_⟩, hasCode⟩
  · rw [hasCode _ _ _ (decode_instrOfCode code), BitVec.extractLsb'_setWidth_of_le (by decide)]
    simp
  · rintro rfl; rfl
  · rintro rfl; rfl

/-! ### Steps (R132, R139) -/

theorem decode_of_decodeTableWord {nbits w : Nat} {i : Instr} (h : decodeTableWord nbits w = some i) :
    decode (tableRecord nbits w) = .ok i := by
  unfold decodeTableWord at h
  split at h
  · rw [← Option.some.inj h]; assumption
  · cases h

/-- R139: a step with a record next performs what it decodes to, or refuses it by name. -/
theorem step_op {s : State} {r : Record} {rest : List Input} (hwf : s.cfg.wf = true) (hs : s.inbox = .op r :: rest) :
    step s = performRecord r { s with inbox := rest } := by
  simp only [step, hwf, if_true, performNext, hs, performInput]

theorem step_no_input {s : State} (hwf : s.cfg.wf = true) (hs : s.inbox = []) : step s = .next s := by
  simp only [step, hwf, if_true, performNext, hs]

theorem performRecord_ok {r : Record} {i : Instr} (h : decode r = .ok i) (s : State) : performRecord r s = exec i s := by
  simp only [performRecord, h]

theorem performRecord_error {r : Record} {why : DecodeError} (h : decode r = .error why) (s : State) :
    performRecord r s = .refused (.undecodable why) := by
  simp only [performRecord, h]

/-- Settles O57: the next input is taken and its record performed; a word of the table is a record put first. -/
theorem stepRunsDecodedInstruction : Obligations.StepRunsDecodedInstruction := by
  intro s hwf
  refine ⟨fun r i rest hs hd => ?_, fun r why rest hs hd => ?_, step_no_input hwf, fun nbits w i hd => ?_⟩
  · rw [step_op hwf hs, performRecord_ok hd]
  · rw [step_op hwf hs, performRecord_error hd]
  · rw [step_op (s := s.withFetchWord nbits w) hwf rfl, performRecord_ok (decode_of_decodeTableWord hd)]
    rfl

end Sys2Proof.Proofs
end

section
/-! PROOFS. The command bytes that an operation sends (spec/30_encoding.md R59, R67; 42_framer.md R94 to R107): every write it
issues has the DC line at the data level, or is one command byte of that operation. -/

namespace Sys2Proof.Proofs

open Sys2Proof.Machine Sys2Proof.Claims

/-! ### Histories in which every command byte is allowed -/

/-- R58: with the DC line at `level`, these bytes are data, or they are one command byte that `may` allows. -/
def BytesAllowed (c : Cfg) (may : Byte → Prop) (level : Option Bit) (bytes : List Byte) : Prop :=
  level = some (dcDataLevel c) ∨ (level = some c.dcCmdLevel ∧ ∃ b, bytes = [b] ∧ may b)

/-- From DC level `level`, every write among the entries is allowed. -/
def EntriesAllowed (c : Cfg) (may : Byte → Prop) (level : Option Bit) (new : List Entry) : Prop :=
  ∀ (pre post : List Entry) (e : Entry) (h : Option Nat) (bytes : List Byte), new = pre ++ e :: post →
    e.ev = .spiWrite h bytes → BytesAllowed c may (pre.foldl dcAfterEntry level) bytes

/-- From `s` to `t` events were appended that leave the DC level of `t`, and every write among them is allowed. -/
def Commanded (may : Byte → Prop) (s t : State) : Prop :=
  t.cfg = s.cfg ∧ ∃ new, t.events = s.events ++ new ∧ t.dcLevel = new.foldl dcAfterEntry s.dcLevel ∧
    EntriesAllowed s.cfg may s.dcLevel new

section
variable {may : Byte → Prop} {c : Cfg} {s t u : State}

theorem entriesAllowed_append {level : Option Bit} {a b : List Entry} (ha : EntriesAllowed c may level a)
    (hb : EntriesAllowed c may (a.foldl dcAfterEntry level) b) : EntriesAllowed c may level (a ++ b) := by
  intro pre post e h bytes hsplit hev
  obtain ⟨mid, rfl, hb'⟩ | ⟨mid, ha', hmid⟩ := List.append_eq_append_iff.mp hsplit
  · rw [List.foldl_append]
    exact hb mid post e h bytes hb' hev
  · cases mid with
    | nil =>
      obtain rfl : a = pre := by rw [ha', List.append_nil]
      exact hb [] post e h bytes hmid.symm hev
    | cons e' mid =>
      obtain ⟨rfl, -⟩ := List.cons_eq_cons.mp hmid
      exact ha pre mid e h bytes ha' hev

theorem entriesAllowed_singleton {level : Option Bit} {e : Entry}
    (he : ∀ h bytes, e.ev = .spiWrite h bytes → BytesAllowed c may level bytes) : EntriesAllowed c may level [e] := by
  intro pre post e' h bytes hsplit hev
  obtain ⟨rfl, hnil⟩ | ⟨-, hnil⟩ := List.singleton_eq_append_iff.mp hsplit
  · obtain ⟨rfl, -⟩ := List.cons_eq_cons.mp hnil
    exact he h bytes hev
  · cases hnil

/-- Where nothing is logged, nothing is sent. -/
theorem commanded_of_silent (cfg : t.cfg = s.cfg) (events : t.events = s.events) (dc : t.dcLevel = s.dcLevel) :
    Commanded may s t :=
  ⟨cfg, [], by rw [events, List.append_nil], dc, fun pre post e _ _ h => by simp at h⟩

theorem Commanded.refl (may : Byte → Prop) (s : State) : Commanded may s s := commanded_of_silent rfl rfl rfl

theorem commanded_of_entry (e : Entry) (cfg : t.cfg = s.cfg) (events : t.events = s.events ++ [e])
    (dc : t.dcLevel = dcAfterEntry s.dcLevel e)
    (he : ∀ h bytes, e.ev = .spiWrite h bytes → BytesAllowed s.cfg may s.dcLevel bytes) : Commanded may s t :=
  ⟨cfg, [e], events, dc, entriesAllowed_singleton he⟩

theorem Commanded.trans (h : Commanded may s t) (h' : Commanded may t u) : Commanded may s u := by
  obtain ⟨cfg, a, ha, dca, alla⟩ := h
  obtain ⟨cfg', b, hb, dcb, allb⟩ := h'
  rw [cfg, dca] at allb
  refine ⟨cfg'.trans cfg, a ++ b, by rw [hb, ha, List.append_assoc], ?_, entriesAllowed_append alla allb⟩
  rw [dcb, dca, List.foldl_append]

end

/-- The end of an operation sends nothing. -/
theorem commanded_keptByEnd (may : Byte → Prop) (s : State) : KeptByEnd (Commanded may s) where
  succeed _ u h := h.trans (commanded_of_silent rfl rfl rfl)
  takeError _ _ u h := h.trans (commanded_of_silent (by simp) (by simp) (by simp))

/-! ### Sequences -/

/-- A sequence whose command bytes are all allowed, whatever it ends with. -/
def Commands (may : Byte → Prop) (s : State) (x : Ctl) : Prop := x.Ends (Commanded may s) fun _ => Commanded may s

theorem Commands.after {may : Byte → Prop} {s t : State} {x : Ctl} (h : Commands may t x) (hs : Commanded may s t) :
    Commands may s x := Ctl.Ends.mono h (fun _ k => hs.trans k) (fun _ _ k => hs.trans k)

theorem Commands.bind {may : Byte → Prop} {s : State} {x : Ctl} {f : State → Ctl} (h : Commands may s x)
    (hf : ∀ t, Commanded may s t → Commands may t (f t)) : Commands may s (x.bind f) :=
  Ctl.Ends.bind h (fun t k => (hf t k).after k) (fun _ _ k => k)

theorem commands_setLine (may : Byte → Prop) (L : Line) (l : Bit) (s : State) : Commands may s (setLine L l s) := by
  unfold setLine
  split
  · exact commanded_of_entry ⟨.gpioSet L (lineHandle s L) l, .ok⟩ (by cases L <;> rfl) (by cases L <;> rfl)
      (by cases L <;> rfl) nofun
  · exact commanded_of_entry ⟨.gpioSet L (lineHandle s L) l, .err⟩ (by cases L <;> rfl) (by cases L <;> rfl)
      (by cases L <;> rfl) nofun

theorem commands_tx {may : Byte → Prop} {bytes : List Byte} {s : State} (h : BytesAllowed s.cfg may s.dcLevel bytes) :
    Commands may s (tx bytes s) := by
  have write : ∀ (r : Reply) (t : State), t.cfg = s.cfg → t.events = s.events ++ [⟨.spiWrite s.hSpi bytes, r⟩] →
      t.dcLevel = s.dcLevel → Commanded may s t := fun r t cfg events dc =>
    commanded_of_entry ⟨.spiWrite s.hSpi bytes, r⟩ cfg events dc fun _ _ hev => (Event.spiWrite.inj hev).2 ▸ h
  unfold tx
  split
  · split <;> exact write _ _ rfl rfl rfl
  · exact write _ _ rfl rfl rfl

/-! ### Lists of primitives -/

/-- From DC level `level`, a transaction is allowed; the other primitives send nothing. -/
def PrimAllowed (c : Cfg) (may : Byte → Prop) (level : Option Bit) : Prim → Prop
  | .set _ _ => True
  | .write bytes => BytesAllowed c may level bytes
  | .wait _ => True
  | .rotate _ => True

/-- From DC level `level`, every transaction of the list is allowed. -/
def PrimsAllowedFrom (c : Cfg) (may : Byte → Prop) : Option Bit → List Prim → Prop
  | _, [] => True
  | level, p :: ps => PrimAllowed c may level p ∧ PrimsAllowedFrom c may (levelStep .dc level p) ps

/-- Every transaction of the list is allowed, whatever the DC level is when it starts. -/
def PrimsAllowed (c : Cfg) (may : Byte → Prop) (ps : List Prim) : Prop := ∀ level, PrimsAllowedFrom c may level ps

theorem commands_prim {may : Byte → Prop} {p : Prim} {s : State} (h : PrimAllowed s.cfg may s.dcLevel p) :
    Commands may s (runPrim p s) := by
  cases p with
  | set L l => exact commands_setLine may L l s
  | write bytes => exact commands_tx h
  | wait ms => exact commanded_of_entry ⟨.delay ms, .none⟩ rfl rfl rfl nofun
  | rotate r => exact commanded_of_silent rfl rfl rfl

theorem commands_primsFrom {may : Byte → Prop} (ps : List Prim) :
    ∀ s : State, PrimsAllowedFrom s.cfg may s.dcLevel ps → Commands may s (runPrims ps s) := by
  induction ps with
  | nil => exact fun s _ => .refl may s
  | cons p ps ih =>
    rintro s ⟨hp, hps⟩
    have ran := commands_prim hp
    rw [runPrims_cons]
    cases hrun : runPrim p s with
    | raise e u => rw [hrun] at ran; exact ran
    | go u =>
      rw [hrun] at ran
      have level : u.dcLevel = levelStep .dc s.dcLevel p := runPrim_go p hrun ▸ afterPrim_level .dc s p
      have cfg : u.cfg = s.cfg := ran.1
      exact (ih u (by rw [level, cfg]; exact hps)).after ran

theorem commands_prims {may : Byte → Prop} {ps : List Prim} {s : State} (h : PrimsAllowed s.cfg may ps) :
    Commands may s (runPrims ps s) := commands_primsFrom ps s (h s.dcLevel)

section
variable {c : Cfg} {may : Byte → Prop}

theorem PrimsAllowed.append {ps qs : List Prim} (h : PrimsAllowed c may ps) (h' : PrimsAllowed c may qs) :
    PrimsAllowed c may (ps ++ qs) := by
  intro level
  have hp := h level
  clear h
  induction ps generalizing level with
  | nil => exact h' level
  | cons p ps ih => exact ⟨hp.1, ih _ hp.2⟩

theorem dataWrites_allowed (chunks : List (List Byte)) :
    PrimsAllowedFrom c may (some (dcDataLevel c)) (chunks.map .write) := by
  induction chunks with
  | nil => trivial
  | cons bytes chunks ih => exact ⟨.inl rfl, ih⟩

/-- R94: a command sends its opcode at the command level, and its payload at the data level. -/
theorem command_allowed {op : Byte} (h : may op) (payload : List Byte) : PrimsAllowed c may (commandPrims c op payload) := by
  intro level
  refine ⟨trivial, .inr ⟨rfl, op, rfl, h⟩, ?_⟩
  split
  · trivial
  · exact ⟨trivial, dataWrites_allowed _⟩

theorem wait_allowed (ms : Nat) : PrimsAllowed c may (waitPrims ms) := by
  intro level
  unfold waitPrims
  split <;> simp [PrimsAllowedFrom, PrimAllowed]

theorem commandWait_allowed {op : Byte} (h : may op) (payload : List Byte) (ms : Nat) :
    PrimsAllowed c may (commandPrims c op payload ++ waitPrims ms) :=
  (command_allowed h payload).append (wait_allowed ms)

/-- R101: MADCTL and the note of its rotation. -/
theorem madctl_allowed (h : may 0x36) (r : BitVec 2) :
    PrimsAllowed c may (commandPrims c 0x36 [madctlByte c r] ++ [.rotate r]) :=
  (command_allowed h _).append fun _ => ⟨trivial, trivial⟩

/-- R95, R107: a rectangle sends CASET, RASET and RAMWR. -/
theorem rect_allowed (h : ∀ b ∈ [0x2A, 0x2B, 0x2C], may b) (x y w k : Nat) (src : List Word) :
    PrimsAllowed c may (rectPrims c x y w k src) :=
  ((command_allowed (h 0x2A (by simp)) _).append (command_allowed (h 0x2B (by simp)) _)).append
    (command_allowed (h 0x2C (by simp)) _)

/-- R116, step 6: the panel table sends its own opcodes. -/
theorem table_allowed (es : List PanelEntry) (h : ∀ e ∈ es, may e.op) : PrimsAllowed c may (tablePrims c es) := by
  induction es with
  | nil => exact fun _ => trivial
  | cons e es ih =>
    obtain ⟨he, hes⟩ := List.forall_mem_cons.mp h
    exact (commandWait_allowed he _ _).append (ih hes)

end

/-- R116, steps 2 to 9. -/
theorem bringUp_allowed (c : Cfg) : PrimsAllowed c (mayCommand c .init) (bringUpPrims c) := by
  have pulse : PrimsAllowed c (mayCommand c .init) pulsePrims := fun _ => by simp [pulsePrims, PrimsAllowedFrom, PrimAllowed]
  have own : ∀ b : Byte, b ∈ [0x01, 0x11, 0x3A, if c.invert then 0x21 else 0x20, 0x36, 0x29, 0x2A, 0x2B, 0x2C] →
      mayCommand c .init b := fun _ => .inl
  exact ((((((pulse.append (commandWait_allowed (own 0x01 (by simp)) _ _)).append
    (commandWait_allowed (own 0x11 (by simp)) _ _)).append (command_allowed (own 0x3A (by simp)) _)).append
    (table_allowed _ fun e he => .inr ⟨e, he, rfl⟩)).append (command_allowed (own _ (by simp)) _)).append
    (madctl_allowed (own 0x36 (by simp)) _)).append (commandWait_allowed (own 0x29 (by simp)) _ _)

/-! ### The bodies -/

theorem commands_body {may : Byte → Prop} (h : ∀ b ∈ [0x2A, 0x2B, 0x2C], may b) (tag : OpTag) (x y w k : Nat)
    (src : List Word) (s : State) : Commands may s (pushRectBody tag x y w k src s) := by
  rw [pushRectBody_prims]
  split
  · exact .refl may s
  · split
    · exact .refl may s
    · split
      · exact commands_prims (rect_allowed h _ _ _ _ _)
      · exact .refl may s

theorem commands_open (may : Byte → Prop) (r : Resource) (s : State) : Commands may s (openRes r s) := by
  cases r with
  | spi =>
    simp only [openRes, openSpi]
    split <;> exact commanded_of_entry _ rfl rfl rfl nofun
  | gpio L =>
    simp only [openRes, openLine]
    split
    · cases L <;> exact commanded_of_entry _ rfl rfl rfl nofun
    · exact commanded_of_entry _ rfl rfl rfl nofun

/-- R116: INIT sends the bring-up and the rectangle of its clear. -/
theorem commands_initBody (s : State) : Commands (mayCommand s.cfg .init) s (initBody s) := by
  have acquired : Commands (mayCommand s.cfg .init) s (acquire s) :=
    acquire_of_open (fun r t k => (commands_open _ r t).after k) (.refl _ s)
  refine Commands.bind (Commands.bind acquired fun t k => ?_) fun t _ => ?_
  · rw [bringUp_prims]
    exact commands_prims (k.1 ▸ bringUp_allowed t.cfg)
  · have ready : Commanded (mayCommand s.cfg .init) t { t with drvState := .ready } := commanded_of_silent rfl rfl rfl
    have rect : ∀ b ∈ [0x2A, 0x2B, 0x2C], mayCommand s.cfg .init b := fun _ hb =>
      .inl (List.mem_append_right [0x01, 0x11, 0x3A, _, 0x36, 0x29] hb)
    exact (commands_body rect _ _ _ _ _ _ _).after ready

theorem commands_flushTiles {may : Byte → Prop} (h : ∀ b ∈ [0x2A, 0x2B, 0x2C], may b) (ns : List Nat) {s t : State}
    (hs : Commanded may s t) : Commands may s (flushTiles ns t) :=
  flushTiles_of_body (fun u _ k => (commands_body h _ _ _ _ _ _ u).after k)
    (fun _ _ _ k => k.trans (commanded_of_silent rfl rfl rfl)) ns t hs

theorem commanded_closeSpi (may : Byte → Prop) (s : State) : Commanded may s (closeSpi s) := by
  unfold closeSpi
  split
  · exact commanded_of_entry ⟨.spiClose _, .ignored⟩ rfl rfl rfl nofun
  · exact .refl may s

theorem commanded_releaseLine (may : Byte → Prop) (L : Line) (s : State) : Commanded may s (releaseLine L s) := by
  unfold releaseLine
  split
  · cases L <;> exact commanded_of_entry ⟨.gpioRelease _ _, .ignored⟩ rfl rfl rfl nofun
  · exact .refl may s

theorem commanded_releaseAll (may : Byte → Prop) (s : State) : Commanded may s (releaseAll s) :=
  (((commanded_closeSpi may s).trans (commanded_releaseLine may .dc _)).trans (commanded_releaseLine may .rst _)).trans
    (commanded_releaseLine may .bl _)

/-! ### Every instruction -/

/-- Between operations, every instruction sends no command but its own; a wire command by itself is turned away. -/
theorem exec_commanded (i : Instr) {s t : State} (hd : s.due = none) (ht : exec i s = .next t) :
    Commanded (mayCommand s.cfg i) s t := by
  have ends := commanded_keptByEnd (mayCommand s.cfg i) s
  have refl := Commanded.refl (mayCommand s.cfg i) s
  cases hw : wireCommand s.cfg i with
  | some p =>
    rw [exec_wire_not_due i hw (by simp [hd])] at ht
    obtain rfl := Host.Outcome.next.inj ht
    exact ends.takeError _ _ s refl
  | none =>
    cases i with
    | init =>
      rw [exec_init, execInit] at ht
      split at ht
      · exact ends.finish (commands_initBody s) ht
      · obtain rfl := Host.Outcome.next.inj ht
        exact ends.takeError _ _ s refl
    | pushRect x y w h ps =>
      rw [exec_pushRect, execPushRect] at ht
      refine ends.whenReady refl (fun _ => ?_) ht
      split
      · exact commands_body (fun _ k => k) _ _ _ _ _ _ s
      · exact refl
    | pushRectSolid x y w h c => exact ends.whenReady refl (fun _ => commands_body (fun _ k => k) _ _ _ _ _ _ s) ht
    | setRotation r =>
      rw [exec_setRotation, execSetRotation_eq] at ht
      refine ends.whenReady refl (fun _ => ?_) ht
      rw [sendMadctl_prims]
      exact commands_prims (madctl_allowed (may := mayCommand s.cfg (.setRotation r)) rfl r)
    | setBacklight on =>
      rw [exec_setBacklight, execSetBacklight] at ht
      refine ends.whenReady refl (fun _ => ?_) ht
      split
      · exact commands_setLine _ .bl _ s
      · exact refl
    | dispose =>
      rw [exec_dispose, execDispose] at ht
      split at ht
      · obtain rfl := Host.Outcome.next.inj ht
        exact ends.succeed _ s refl
      · obtain rfl := Host.Outcome.next.inj ht
        exact ends.succeed _ _ ((commanded_releaseAll _ s).trans (commanded_of_silent rfl rfl rfl))
    | flush =>
      have start : Commanded (mayCommand s.cfg .flush) s (flushStart s) := commanded_of_silent rfl rfl rfl
      exact ends.finish (commands_flushTiles (fun _ k => k) _ start) ht
    | reservedE | reservedF => obtain rfl := Host.Outcome.next.inj ht; exact ends.takeError _ _ s refl
    | markDirtyRect | markAll | pack565 | pack565a | unpack565 | blend565 | modulate565 =>
      obtain rfl := Host.Outcome.next.inj ht
      exact commanded_of_silent rfl rfl rfl
    | swreset | slpout | colmod | caset | raset | madctl | ramwr | invon | invoff | dispon | panelCmd => cases hw

/-- Settles O28: the DC level is followed along the entries an instruction appends, and each write is looked at where it stands. -/
theorem eachOperationSendsItsCommands : Obligations.EachOperationSendsItsCommands := by
  intro i s t hd ht
  obtain ⟨-, new, events, -, allowed⟩ := exec_commanded i hd ht
  exact ⟨new, events, allowed⟩

end Sys2Proof.Proofs
end

section
/-! PROOFS. The colour codec (spec/40_codec.md R72 to R80): what each of its five operations answers, and the laws of packing,
blending and modulating, lane by lane. -/

namespace Sys2Proof.Proofs

open Sys2Proof.Machine Sys2Proof.Claims

/-! ### The five operations: a value, and nothing else but LAST_ERROR (R73) -/

theorem exec_pack565_ended (r g b : Byte) (s : State) :
    exec (.pack565 r g b) s = .next (ended (.ok (.word (pack r g b))) 0 s) := rfl
theorem exec_pack565a_ended (r g b a : Byte) (s : State) :
    exec (.pack565a r g b a) s = .next (ended (.ok (.word (pack r g b))) 0 s) := rfl
theorem exec_unpack565_ended (c : Word) (s : State) :
    exec (.unpack565 c) s = .next (ended (.ok (.rgb (widen5 (r5 c)) (widen6 (g6 c)) (widen5 (b5 c)))) 0 s) := rfl
theorem exec_blend565_ended (src dst : Word) (alpha : Byte) (s : State) :
    exec (.blend565 src dst alpha) s = .next (ended (.ok (.word (blend src dst alpha))) 0 s) := rfl
theorem exec_modulate565_ended (a b : Word) (s : State) :
    exec (.modulate565 a b) s = .next (ended (.ok (.word (modulate a b))) 0 s) := rfl

/-! ### Packing and unpacking (R74 to R77) -/

/-- R76: the replicated bits stand below the lane, so the two are added. -/
theorem widen5_toNat_add (v : BitVec 5) : (widen5 v).toNat = v.toNat * 8 + v.toNat / 4 := by
  have low : v.toNat >>> 2 < 2 ^ 3 := by have := v.isLt; rw [Nat.shiftRight_eq_div_pow]; omega
  rw [widen5_toNat, ← Nat.shiftLeft_add_eq_or_of_lt low, Nat.shiftLeft_eq, Nat.shiftRight_eq_div_pow]

theorem widen6_toNat_add (v : BitVec 6) : (widen6 v).toNat = v.toNat * 4 + v.toNat / 16 := by
  have low : v.toNat >>> 4 < 2 ^ 2 := by have := v.isLt; rw [Nat.shiftRight_eq_div_pow]; omega
  rw [widen6_toNat, ← Nat.shiftLeft_add_eq_or_of_lt low, Nat.shiftLeft_eq, Nat.shiftRight_eq_div_pow]

/-- R77: what a byte loses in five bits is its low three bits; what it gains there is its top three. -/
theorem widen5_error (v : Byte) :
    (v.toNat : Int) - (widen5 (v.extractLsb' 3 5)).toNat = (v.toNat % 8 : Nat) - (v.toNat >>> 5 : Nat) := by
  have := v.isLt
  rw [widen5_toNat_add, BitVec.extractLsb'_toNat, Nat.shiftRight_eq_div_pow, Nat.shiftRight_eq_div_pow]
  omega

theorem widen6_error (v : Byte) :
    (v.toNat : Int) - (widen6 (v.extractLsb' 2 6)).toNat = (v.toNat % 4 : Nat) - (v.toNat >>> 6 : Nat) := by
  have := v.isLt
  rw [widen6_toNat_add, BitVec.extractLsb'_toNat, Nat.shiftRight_eq_div_pow, Nat.shiftRight_eq_div_pow]
  omega

/-- R77: the difference of a byte's low `k` bits and its top `k` bits is less than `2 ^ k`. -/
theorem natAbs_low_sub_top_le (v : Byte) :
    ((v.toNat % 8 : Nat) - (v.toNat >>> 5 : Nat) : Int).natAbs ≤ 7 ∧
      ((v.toNat % 4 : Nat) - (v.toNat >>> 6 : Nat) : Int).natAbs ≤ 3 := by
  have := v.isLt
  rw [Nat.shiftRight_eq_div_pow, Nat.shiftRight_eq_div_pow]
  omega

theorem exec_unpack565_pack (r g b : Byte) (s : State) : exec (.unpack565 (pack r g b)) s =
    .next (ended (.ok (.rgb (widen5 (r.extractLsb' 3 5)) (widen6 (g.extractLsb' 2 6)) (widen5 (b.extractLsb' 3 5)))) 0 s) := by
  rw [exec_unpack565_ended, pack, r5_compose, g6_compose, b5_compose]

/-- R77: replication never changes a lane's top bits. -/
theorem pack_widen (c : Word) : pack (widen5 (r5 c)) (widen6 (g6 c)) (widen5 (b5 c)) = c := by
  rw [pack, wid5, wid6, wid5, compose_lanes]

/-- Settles O4: each lane's error is that of cutting a byte and widening it again, and widening keeps what packing keeps. -/
theorem packUnpackRoundTrip : Obligations.PackUnpackRoundTrip := by
  refine fun s => ⟨fun r g b => ⟨pack r g b, _, _, _, exec_pack565_ended r g b s, exec_unpack565_pack r g b s,
    widen5_error r, widen6_error g, widen5_error b, ?_, ?_, ?_⟩, fun c => ⟨_, _, _, exec_unpack565_ended c s, ?_⟩⟩
  · exact widen5_error r ▸ (natAbs_low_sub_top_le r).1
  · exact widen6_error g ▸ (natAbs_low_sub_top_le g).2
  · exact widen5_error b ▸ (natAbs_low_sub_top_le b).1
  · rw [exec_pack565_ended, pack_widen]

/-- Settles O1: `pack_lanes` reads the three lanes of the packed word. -/
theorem packKeepsTopBits : Obligations.PackKeepsTopBits := fun r g b s =>
  ⟨rfl, pack r g b, exec_pack565_ended r g b s, pack_lanes r g b⟩

/-- Settles O2: both operations answer the packed word. -/
theorem packAlphaIgnored : Obligations.PackAlphaIgnored := fun r g b a s =>
  ⟨rfl, pack r g b, exec_pack565a_ended r g b a s, exec_pack565_ended r g b s⟩

/-- Settles O3: each lane is widened as a bit vector, which is the replication of its number. -/
theorem unpackReplicatesBits : Obligations.UnpackReplicatesBits := by
  refine fun c s => ⟨rfl, _, _, _, exec_unpack565_ended c s, ?_, ?_, ?_⟩
  · rw [widen5_toNat, r5_toNat]
  · rw [widen6_toNat, g6_toNat]
  · rw [widen5_toNat, b5_toNat]

/-! ### Blending (R78, R79) -/

theorem alpha_le (alpha : Byte) : alpha.toNat ≤ 255 := Nat.le_of_lt_succ alpha.isLt

/-- R78: a blend is the word whose lanes are the blended lanes. -/
theorem blend_eq_of_lanes {src dst c : Word} {alpha : Byte} (hr : blendLane alpha.toNat (red src) (red dst) = red c)
    (hg : blendLane alpha.toNat (green src) (green dst) = green c)
    (hb : blendLane alpha.toNat (blue src) (blue dst) = blue c) : blend src dst alpha = c := by
  obtain ⟨r, g, b⟩ := blend_lanes src dst alpha
  exact word_ext (r.trans hr) (g.trans hg) (b.trans hb)

theorem blend_self (c : Word) (alpha : Byte) : blend c c alpha = c :=
  blend_eq_of_lanes (blendLane_self _ _ (alpha_le alpha)) (blendLane_self _ _ (alpha_le alpha))
    (blendLane_self _ _ (alpha_le alpha))

theorem blendLane_opaque (s d : Nat) : blendLane 255 s d = s := by
  unfold blendLane; omega
theorem blendLane_transparent (s d : Nat) : blendLane 0 s d = d := by
  unfold blendLane; omega

theorem blend_opaque (src dst : Word) : blend src dst 255 = src :=
  blend_eq_of_lanes (blendLane_opaque _ _) (blendLane_opaque _ _) (blendLane_opaque _ _)
theorem blend_transparent (src dst : Word) : blend src dst 0 = dst :=
  blend_eq_of_lanes (blendLane_transparent _ _) (blendLane_transparent _ _) (blendLane_transparent _ _)

/-- Settles O5: a lane of the blend is `blendLane`, a mean of the two lanes, so no larger than the larger of them. -/
theorem blendIsWeightedMean : Obligations.BlendIsWeightedMean := by
  intro src dst alpha s
  obtain ⟨r, g, b⟩ := blend_lanes src dst alpha
  have le (x y : Nat) : blendLane alpha.toNat x y ≤ max x y := blendLane_le _ x y (alpha_le alpha)
  refine ⟨rfl, ⟨_, exec_blend565_ended src dst alpha s, r, g, b, ?_, ?_, ?_⟩, ?_⟩
  · exact r ▸ le _ _
  · exact g ▸ le _ _
  · exact b ▸ le _ _
  · rw [exec_blend565_ended, blend_self]

/-- Settles O6: the weights 255 and 0 leave the one lane or the other. -/
theorem blendEndPoints : Obligations.BlendEndPoints := fun src dst s =>
  ⟨by rw [exec_blend565_ended, blend_opaque], by rw [exec_blend565_ended, blend_transparent]⟩

/-! ### Modulating (R80) -/

/-- R80: a modulation is the word whose lanes are the products as fractions of each lane's maximum. -/
theorem modulate_eq_of_lanes {a b c : Word} (hr : red a * red b / 31 = red c) (hg : green a * green b / 63 = green c)
    (hb : blue a * blue b / 31 = blue c) : modulate a b = c := by
  obtain ⟨r, g, b⟩ := mod_lanes a b
  exact word_ext (r.trans hr) (g.trans hg) (b.trans hb)

theorem modulate_comm (a b : Word) : modulate a b = modulate b a := by
  obtain ⟨hr, hg, hb⟩ := mod_lanes b a
  exact modulate_eq_of_lanes (by rw [hr, Nat.mul_comm]) (by rw [hg, Nat.mul_comm]) (by rw [hb, Nat.mul_comm])

theorem modulate_white (a : Word) : modulate a 0xFFFF = a :=
  modulate_eq_of_lanes (Nat.mul_div_cancel _ (by decide)) (Nat.mul_div_cancel _ (by decide))
    (Nat.mul_div_cancel _ (by decide))

theorem modulate_black (a : Word) : modulate a 0 = 0 :=
  modulate_eq_of_lanes (Nat.zero_div 31) (Nat.zero_div 63) (Nat.zero_div 31)

/-- R80: no lane of a modulation is larger than the same lane of either operand. -/
theorem modulate_lanes_le (a b : Word) : red (modulate a b) ≤ min (red a) (red b) ∧
    green (modulate a b) ≤ min (green a) (green b) ∧ blue (modulate a b) ≤ min (blue a) (blue b) := by
  obtain ⟨hr, hg, hb⟩ := mod_lanes a b
  rw [hr, hg, hb]
  exact ⟨mod_le _ _ 31 (Nat.le_of_lt_succ (red_lt a)) (Nat.le_of_lt_succ (red_lt b)),
    mod_le _ _ 63 (Nat.le_of_lt_succ (green_lt a)) (Nat.le_of_lt_succ (green_lt b)),
    mod_le _ _ 31 (Nat.le_of_lt_succ (blue_lt a)) (Nat.le_of_lt_succ (blue_lt b))⟩

/-- Settles O7: the lanes are `mod_lanes`, and white and black have the lanes 31, 63, 31 and 0, 0, 0. -/
theorem modulateMultipliesLanes : Obligations.ModulateMultipliesLanes := by
  intro a b s
  obtain ⟨hr, hg, hb⟩ := mod_lanes a b
  refine ⟨rfl, ⟨_, exec_modulate565_ended a b s, ?_, hr, hg, hb, modulate_lanes_le a b⟩, ?_, ?_⟩
  · rw [exec_modulate565_ended, modulate_comm]
  · rw [exec_modulate565_ended, modulate_white]
  · rw [exec_modulate565_ended, modulate_black]

end Sys2Proof.Proofs
end

section
/-! PROOFS. The grid of tiles and its marking operations (spec/41_dirty_tiles.md R82 to R87): which flags MARK_DIRTY_RECT and
MARK_ALL set, what rectangle a tile is, and in which order EXTRACT reads it. -/

namespace Sys2Proof.Proofs

open Sys2Proof.Machine Sys2Proof.Claims

/-! ### Marking (R82 to R84) -/

theorem exec_markDirtyRect_ended (x y w h : BitVec 32) (s : State) : exec (.markDirtyRect x y w h) s =
    .next (ended (.ok .unit) 0 { s with dirty := markedFlags s.cfg x y w h s.dirty }) := rfl
theorem exec_markAll_ended (s : State) :
    exec .markAll s = .next (ended (.ok .unit) 0 { s with dirty := allFlags s.dirty }) := rfl

/-- R82, R83: MARK_DIRTY_RECT hits a tile of the grid exactly where the rectangle shares a pixel with the tile's area. -/
theorem markHits_iff {c : Cfg} (hwf : c.wf = true) (x y w h : BitVec 32) {tx ty : Nat} (hx : tx < tilesX c)
    (hy : ty < tilesY c) :
    markHits c x y w h tx ty = true ↔ 0 < w.toInt ∧ 0 < h.toInt ∧ ∃ px py : Nat, inTile c tx ty px py ∧
      x.toInt ≤ px ∧ (px : Int) < x.toInt + w.toInt ∧ y.toInt ≤ py ∧ (py : Int) < y.toInt + h.toInt := by
  have f := wfFacts hwf
  have columns := span_iff x w c.panelW c.tileW tx f.tileW ((lt_ceilDiv f.tileW).mp hx)
  have rows := span_iff y h c.panelH c.tileH ty f.tileH ((lt_ceilDiv f.tileH).mp hy)
  simp only [markHits, Bool.and_eq_true, decide_eq_true_eq]
  constructor
  · rintro ⟨⟨⟨⟨⟨hw, hh⟩, cx⟩, cy⟩, sx⟩, sy⟩
    obtain ⟨px, x₁, x₂, x₃, x₄⟩ := columns.mp ⟨cx, sx⟩
    obtain ⟨py, y₁, y₂, y₃, y₄⟩ := rows.mp ⟨cy, sy⟩
    exact ⟨hw, hh, px, py, ⟨x₁, x₂, y₁, y₂⟩, x₃, x₄, y₃, y₄⟩
  · rintro ⟨hw, hh, px, py, ⟨x₁, x₂, y₁, y₂⟩, x₃, x₄, y₃, y₄⟩
    obtain ⟨cx, sx⟩ := columns.mpr ⟨px, x₁, x₂, x₃, x₄⟩
    obtain ⟨cy, sy⟩ := rows.mpr ⟨py, y₁, y₂, y₃, y₄⟩
    exact ⟨⟨⟨⟨⟨hw, hh⟩, cx⟩, cy⟩, sx⟩, sy⟩

/-- Settles O8: the flag of a tile is set where it was or where the tile is hit, and a tile is hit where it shares a pixel. -/
theorem markRectMarksOverlappedTiles : Obligations.MarkRectMarksOverlappedTiles := by
  intro x y w h s hwf hlen
  refine ⟨rfl, markedFlags s.cfg x y w h s.dirty, markedFlags_length _ _ _ _ _ _,
    exec_markDirtyRect_ended x y w h s, fun tx ty hx hy => ?_⟩
  have hn : ty * tilesX s.cfg + tx < s.dirty.length := hlen ▸ flatIndex_lt hx hy
  rw [flagAt_markedFlags _ _ _ _ _ _ _ hn, flatIndex_mod hx, flatIndex_div hx, Bool.or_eq_true,
    markHits_iff hwf _ _ _ _ hx hy, dirtyAt]

/-- Settles O9: every flag is set, so a second MARK_ALL finds nothing to set. -/
theorem markAllMarksEveryTile : Obligations.MarkAllMarksEveryTile := by
  intro s hlen
  refine ⟨rfl, _, exec_markAll_ended s, ?_, fun tx ty hx hy => ?_, ?_⟩
  · rw [allFlags_eq, hlen]
  · exact flagAt_allFlags s.dirty _ (hlen ▸ flatIndex_lt hx hy)
  · simp only [exec_markAll_ended, ended, allFlags_allFlags]

/-- R84: after MARK_ALL every tile of the grid is dirty. -/
theorem dirtyTiles_of_markAll {s t : State} (hlen : s.dirty.length = tileCount s.cfg) (ht : exec .markAll s = .next t) :
    t.cfg = s.cfg ∧ dirtyTiles t = List.range (tileCount s.cfg) := by
  obtain rfl := Host.Outcome.next.inj ht
  exact ⟨rfl, List.filter_eq_self.mpr fun n hn => flagAt_allFlags s.dirty n (hlen ▸ List.mem_range.mp hn)⟩

/-! ### The rectangle of a tile (R86, R87) -/

/-- R86: on one axis, a tile of edge `T` that starts at `m`, inside a display of size `W`. -/
theorem clip_axis {T W m : Nat} (hT : 1 ≤ T) (hm : m < W) :
    ((min T (W - m) : Nat) : Int) = min (T : Int) (W - m) ∧ 1 ≤ min T (W - m) ∧ m + min T (W - m) ≤ W := by
  refine ⟨?_, ?_, ?_⟩ <;> omega

/-- Settles O11: a tile of the grid starts inside the display, on both axes. -/
theorem tileRectClippedToDisplay : Obligations.TileRectClippedToDisplay := by
  intro c tx ty hwf hx hy
  have f := wfFacts hwf
  obtain ⟨w, w_pos, w_le⟩ := clip_axis f.tileW ((lt_ceilDiv f.tileW).mp hx)
  obtain ⟨h, h_pos, h_le⟩ := clip_axis f.tileH ((lt_ceilDiv f.tileH).mp hy)
  rw [Nat.cast_mul] at w h
  exact ⟨rfl, rfl, w, h, w_pos, h_pos, w_le, h_le⟩

/-- Settles O13: the words are read at a list of indices made row by row. -/
theorem extractIsRowMajor : Obligations.ExtractIsRowMajor := by
  intro s r
  refine ⟨extractRect_length r s, fun i j hi hj => ?_⟩
  rw [extractRect, rectIndices, List.getElem?_map, grid_getElem?' r.w _ i hi r.h j hj]
  rfl

end Sys2Proof.Proofs
end

section
/-! PROOFS. FLUSH (spec/41_dirty_tiles.md R85, R88, R89): what it has sent, counted and cleared where its loop goes through, and
where the loop stops. -/

namespace Sys2Proof.Proofs

open Sys2Proof.Machine Sys2Proof.Safety Sys2Proof.Claims

/-! ### The flags and the grid -/

/-- A file of flags none of which is set. -/
theorem eq_replicate_of_flagAt {fs : List Bool} {n : Nat} (hn : fs.length = n) (h : ∀ m, flagAt fs m = false) :
    fs = List.replicate n false := by
  refine List.eq_replicate_iff.mpr ⟨hn, fun b hb => ?_⟩
  obtain ⟨m, hm, rfl⟩ := List.mem_iff_getElem.mp hb
  simpa [flagAt, List.getD_eq_getElem?_getD, hm] using h m

/-- R85: what precedes index `k` in the order of the loop is the indices below `k`. -/
theorem range_split {N k : Nat} {front back : List Nat} (h : List.range N = front ++ k :: back) :
    k < N ∧ front = List.range k := by
  have hlt : front.length < N := by
    have length := congrArg List.length h
    rw [List.length_range, List.length_append, List.length_cons] at length
    omega
  have hk : k = front.length := by simpa [hlt] using (congrArg (·[front.length]?) h).symm
  have hf : front = List.range front.length := by
    simpa [Nat.min_eq_left hlt.le] using (congrArg (List.take front.length) h).symm
  exact ⟨hk ▸ hlt, hk ▸ hf⟩

/-- The dirty tiles before index `k`. -/
theorem dirtyTiles_before {s : State} {k : Nat} (h : k ≤ tileCount s.cfg) :
    (dirtyTiles s).filter (· < k) = dirtyOf s (List.range k) := by
  obtain ⟨m, hm⟩ := Nat.exists_eq_add_of_le h
  have below : (List.range (tileCount s.cfg)).filter (· < k) = List.range k := by
    rw [hm, List.range_add, List.filter_append, List.filter_eq_self.mpr (by simp), List.filter_eq_nil_iff.mpr (by simp),
      List.append_nil]
  rw [dirtyTiles, List.filter_comm, below, dirtyOf]

/-! ### The state that FLUSH's loop has left -/

section
variable {s u : State} {ns : List Nat}

/-- R85: what the loop leaves of the state that FLUSH starts in; the counters are told apart. -/
theorem flushed_frame (h : Flushed ns (flushStart s) u) : u = { s with
    dirty := u.dirty
    lastFlushTiles := u.lastFlushTiles
    lastFlushBytes := u.lastFlushBytes
    dcLevel := if dirtyOf s ns = [] then s.dcLevel else some (dcDataLevel s.cfg)
    panel := u.panel
    events := s.events ++ (dirtyOf s ns).flatMap (tileEntries s)
    answers := s.answers.drop (drawsOfTiles s.cfg (dirtyOf s ns))
    free := s.free + ((dirtyOf s ns).flatMap (tileEntries s)).length } := by
  obtain ⟨-, state⟩ := h
  generalize u.dirty = dirty, u.panel = panel at state ⊢
  subst state
  rfl

/-- R22, R85: both counters start at 0, count the tiles sent and their bytes, and do not wrap. -/
theorem flushed_counters (hwf : s.cfg.wf = true) (hns : ns.Sublist (List.range (tileCount s.cfg)))
    (h : Flushed ns (flushStart s) u) :
    u.lastFlushTiles.toNat = (dirtyOf s ns).length ∧ u.lastFlushBytes.toNat = bytesOfTiles s.cfg (dirtyOf s ns) := by
  rw [h.2]
  simp only [flushStart_lastFlushTiles, flushStart_lastFlushBytes, zero_add]
  exact counters_fit hwf _ (List.filter_sublist.trans hns)

/-- R85: after the whole grid every flag is clear. -/
theorem flushed_clears {N : Nat} (hN : s.dirty.length = N) (h : Flushed (List.range N) (flushStart s) u) :
    u.dirty = List.replicate N false := by
  obtain ⟨⟨length, flags⟩, -⟩ := h
  refine eq_replicate_of_flagAt (length.trans hN) fun m => ?_
  rw [flags m]
  split
  case isTrue => rfl
  case isFalse hm => exact Bool.eq_false_iff.mpr fun set => hm (List.mem_range.mpr (hN ▸ lt_of_flagAt set))

end

/-- R85: what FLUSH answers where its loop goes through: the tiles of the grid are flushed, and the counters are the result. -/
theorem flush_of_ok {s t : State} {v : Value} (hwf : s.cfg.wf = true) (ht : exec .flush s = .next t)
    (hr : t.results = s.results ++ [.ok v]) :
    ∃ u, Flushed (List.range (tileCount s.cfg)) (flushStart s) u ∧ t = succeed v u ∧
      v = .flushed u.lastFlushTiles u.lastFlushBytes := by
  rw [exec_flush, execFlush] at ht
  cases hx : flushTiles (List.range (tileCount s.cfg)) (flushStart s) with
  | go u =>
    rw [hx] at ht
    obtain rfl := Host.Outcome.next.inj ht
    have loop := flushTiles_go _ (flushStart s) _ hwf List.nodup_range (fun _ => List.mem_range.mp) hx
    have results : u.results = s.results := by rw [flushed_frame loop]
    rw [succeed_results, results] at hr
    have value : v = .flushed u.lastFlushTiles u.lastFlushBytes := by simpa using hr.symm
    exact ⟨u, loop, by rw [value], value⟩
  | raise e u =>
    rw [hx] at ht
    obtain rfl := Host.Outcome.next.inj ht
    simpa using congrArg List.getLast? hr

/-- R88: what FLUSH answers where its loop stops: the tiles before `k` are flushed, and the rectangle of `k` raises the error. -/
theorem flush_of_err {s t : State} {e : OpError} (hwf : s.cfg.wf = true) (ht : exec .flush s = .next t)
    (hr : t.results = s.results ++ [.err e]) :
    ∃ (k : Nat) (u v : State), k < tileCount s.cfg ∧ flagAt s.dirty k = true ∧ Flushed (List.range k) (flushStart s) u ∧
      pushRectBody (.host 0x8) (tileRectAt s.cfg k).x (tileRectAt s.cfg k).y (tileRectAt s.cfg k).w
        (tileRectAt s.cfg k).h (extractRect (tileRectAt s.cfg k) s) u = .raise e v ∧ t = takeError false e v := by
  rw [exec_flush, execFlush] at ht
  cases hx : flushTiles (List.range (tileCount s.cfg)) (flushStart s) with
  | go u =>
    rw [hx] at ht
    obtain rfl := Host.Outcome.next.inj ht
    simpa using congrArg List.getLast? hr
  | raise e' v =>
    rw [hx] at ht
    obtain rfl := Host.Outcome.next.inj ht
    obtain rfl : e' = e := by simpa using congrArg List.getLast? hr
    obtain ⟨front, back, k, u, split, loop, dirty, body⟩ :=
      flushTiles_raise _ (flushStart s) _ _ hwf List.nodup_range (fun _ => List.mem_range.mp) hx
    obtain ⟨hk, rfl⟩ := range_split split
    exact ⟨k, u, v, hk, dirty, loop, body, rfl⟩

/-! ### A clean grid (R147) -/

/-- R85: the loop passes over tiles that are not dirty. -/
theorem flushTiles_clean {ns : List Nat} {s : State} (h : ∀ n ∈ ns, ¬ flagAt s.dirty n = true) :
    flushTiles ns s = .go s := by
  induction ns with
  | nil => rfl
  | cons n ns ih =>
    obtain ⟨head, tail⟩ := List.forall_mem_cons.mp h
    rw [flushTiles, flushTile, if_neg head, Ctl.bind_go, ih tail]

/-- Settles O15: the loop leaves the state it starts from. -/
theorem flushOfCleanGridIsSilent : Obligations.FlushOfCleanGridIsSilent := by
  intro s h
  have loop : flushTiles (List.range (tileCount s.cfg)) (flushStart s) = .go (flushStart s) :=
    flushTiles_clean (List.filter_eq_nil_iff.mp h)
  rw [exec_flush, execFlush, loop]
  rfl

/-! ### A FLUSH that goes through (R85, R89) -/

/-- Settles O14: the loop goes through, and then it has left the state that `Flushed` says. -/
theorem flushSendsDirtyTiles : Obligations.FlushSendsDirtyTiles := by
  intro s hwf hlen hready hfits hgood
  obtain ⟨u, hu⟩ := flushTiles_good (List.range (tileCount s.cfg)) (flushStart s) hwf List.nodup_range
    (fun _ => List.mem_range.mp) (fun _ => hready) hfits hgood
  have loop := flushTiles_go _ (flushStart s) _ hwf List.nodup_range (fun _ => List.mem_range.mp) hu
  have state := flushed_frame loop
  obtain ⟨tiles, bytes⟩ := flushed_counters hwf (List.Sublist.refl _) loop
  refine ⟨succeed (.flushed u.lastFlushTiles u.lastFlushBytes) u, by rw [exec_flush, execFlush, hu]; rfl, tiles, bytes, ?_⟩
  rw [succeed_lastFlushTiles, succeed_lastFlushBytes, succeed_panel, ← flushed_clears hlen loop]
  conv_lhs => rw [state]
  rfl

/-- R89: the pixel stream of a tile is two bytes for each of its pixels. -/
theorem tileStream_length (s : State) (n : Nat) :
    (be16Stream (extractRect (tileRectAt s.cfg n) s)).length = tilePixels s.cfg n * 2 := by
  rw [be16Stream_length, extractRect_length, Nat.mul_comm, tilePixels]

/-- R89: a FLUSH that ends well has sent its dirty tiles and counted them. -/
theorem flush_sends {s t : State} {n : BitVec 32} {b : BitVec 64} (hwf : s.cfg.wf = true) (ht : exec .flush s = .next t)
    (hr : t.results = s.results ++ [.ok (.flushed n b)]) :
    t.events = s.events ++ (dirtyTiles s).flatMap (tileEntries s) ∧ n.toNat = (dirtyTiles s).length ∧
      b.toNat = bytesOfTiles s.cfg (dirtyTiles s) := by
  obtain ⟨u, loop, rfl, value⟩ := flush_of_ok hwf ht hr
  obtain ⟨rfl, rfl⟩ := Value.flushed.inj value
  exact ⟨by rw [succeed_events, flushed_frame loop]; rfl, flushed_counters hwf (List.Sublist.refl _) loop⟩

/-- Settles O16: the counters are sums over the dirty tiles, which after MARK_ALL are all tiles and so share out the display. -/
theorem flushBytesLaw : Obligations.FlushBytesLaw := by
  refine ⟨fun s t n b hwf _ ht hr => ?_, fun s t u n b hwf hlen hmark hflush hr => ?_⟩
  · obtain ⟨events, tiles, bytes⟩ := flush_sends hwf ht hr
    exact ⟨events, tiles, bytes, by simp only [tileStream_length]; exact bytes⟩
  · obtain ⟨cfg, all⟩ := dirtyTiles_of_markAll hlen hmark
    obtain ⟨-, tiles, bytes⟩ := flush_sends (cfg ▸ hwf) hflush hr
    rw [all] at tiles bytes
    rw [cfg] at bytes
    refine ⟨?_, bytes.trans (bytes_all hwf)⟩
    rw [tiles, List.length_range, tileCount, Nat.mul_comm]

/-! ### A FLUSH that stops (R88) -/

/-- Settles O17: up to the failing tile the loop is one that goes through, and neither the failing rectangle nor the error
touches flags or counters. -/
theorem flushStopsAtFailingTile : Obligations.FlushStopsAtFailingTile := by
  intro s t e hwf hlen ht hr
  obtain ⟨k, u, v, hk, dirty, loop, body, rfl⟩ := flush_of_err hwf ht hr
  have steady : Steady u v := by
    have := pushRectBody_steady (.host 0x8) (tileRectAt s.cfg k).x (tileRectAt s.cfg k).y (tileRectAt s.cfg k).w
        (tileRectAt s.cfg k).h (extractRect (tileRectAt s.cfg k) s) u
    rwa [body] at this
  obtain ⟨tiles, bytes⟩ := flushed_counters hwf (List.range_sublist.mpr hk.le) loop
  have state := flushed_frame loop
  obtain ⟨⟨length, flags⟩, -⟩ := loop
  refine ⟨k, u, v, hk, dirty, body, ?_⟩
  rw [dirtyTiles_before hk.le]
  refine ⟨state, takeError_events _ _ _, ?_, fun n => ?_, ?_, ?_⟩
  · rw [takeError_dirty, steady.dirty, length, flushStart_dirty]
  · rw [takeError_dirty, steady.dirty, flags n]
    simp only [List.mem_range, flushStart_dirty]
  · rw [takeError_lastFlushTiles, steady.lastFlushTiles, tiles]
  · rw [takeError_lastFlushBytes, steady.lastFlushBytes, bytes]
    rfl

end Sys2Proof.Proofs
end

section
/-! PROOFS. What the rectangle operations send (spec/42_framer.md R90 to R95, R107 to R111) and how they end: PUSH_RECT and
PUSH_RECT_SOLID turned away, gone through, and stopped at the first event that fails (60_exceptions.md R129 to R131). -/

namespace Sys2Proof.Proofs

open Sys2Proof.Machine Sys2Proof.Safety Sys2Proof.Claims

/-! ### Data phases (R92, R93) -/

/-- R93: DATA_PHASE sends its chunks, one transaction each. -/
theorem dataPhase_events {bytes : List Byte} {s t : State} (h : dataPhase bytes s = .go t) :
    t.events = s.events ++ (chunks s.cfg.maxXfer bytes).map (writeEntry s) := by
  rw [dataPhase, txAll_prims] at h
  rw [runPrims_go _ h, foldl_afterPrim_events, entriesOf_writes]

/-- Settles O18: the laws of the cut are those of `chunks`, and DATA_PHASE is a run of writes over it. -/
theorem chunkingLaws : Obligations.ChunkingLaws := fun m bytes hm =>
  ⟨chunks_length m hm bytes, chunks_flatten m hm bytes, length_of_mem_chunks m hm bytes, chunks_full m hm bytes,
    chunks_nil m, fun even => chunks_even m hm even bytes, fun _ _ hs h => hs ▸ dataPhase_events h, by decide⟩

/-! ### The wire trace of a rectangle (R108, R111) -/

/-- R58: a reader of the wire finds the three commands of a rectangle. -/
theorem read_rect (s : State) (hm : 1 ≤ s.cfg.maxXfer) (x y w h : Nat) (src : List Word) (level : Option Bit) :
    readCommands s.cfg (wireTraceFrom level (rectEntries s x y w h src)) =
      [(0x2A, columnBytes s.cfg x w), (0x2B, rowBytes s.cfg y h), (0x2C, be16Stream src)] := by
  rw [rectEntries, readCommands, List.append_assoc, read_command s hm, read_command s hm,
    ← List.append_nil (commandEntries s 0x2C _), read_command s hm]
  rfl

/-- Settles O19: a rectangle that goes through has logged its three commands, each cut into chunks by DATA_PHASE. -/
theorem transferLaw : Obligations.TransferLaw := by
  intro tag x y w h src s t hm hw hh hl hgo
  obtain ⟨rfl, -, -⟩ := body_go tag x y w h src s t (by omega) (by omega) hgo
  have column : columnBytes s.cfg x w ≠ [] := List.cons_ne_nil _ _
  have row : rowBytes s.cfg y h ≠ [] := List.cons_ne_nil _ _
  have pixels : be16Stream src ≠ [] := be16Stream_ne_nil src (hl ▸ Nat.mul_pos hw hh)
  refine ⟨chunks s.cfg.maxXfer (columnBytes s.cfg x w), chunks s.cfg.maxXfer (rowBytes s.cfg y h),
    chunks s.cfg.maxXfer (be16Stream src), chunks_length _ hm _, chunks_flatten _ hm _, chunks_length _ hm _,
    chunks_flatten _ hm _, ?_, chunks_flatten _ hm _, ?_, ?_⟩
  · rw [chunks_length _ hm, be16Stream_length, hl, Nat.mul_assoc]
  · rw [foldl_afterPrim_events, entriesOf_rect, rectEntries, commandEntries_cons s _ _ column, commandEntries_cons s _ _ row,
      commandEntries_cons s _ _ pixels]
    simp only [List.append_assoc]
  · rw [foldl_afterPrim_events, entriesOf_rect, List.drop_left, read_rect s hm]

/-! ### The checks of PUSH_RECT (R107, R109, R129) -/

/-- R109: PUSH_RECT past its state check and its count check. -/
theorem exec_pushRect_body {x y w h : Word} {pixels : List Word} {s : State} (hr : s.drvState = .ready)
    (hl : pixels.length = w.toNat * h.toNat) : exec (.pushRect x y w h pixels) s =
      finish false (fun _ => .unit) (pushRectBody (.host 0x1) x.toNat y.toNat w.toNat h.toNat pixels s) := by
  rw [exec_pushRect, execPushRect, whenReady, if_pos hr, if_pos hl]

/-- R107: PUSH_RECT_BODY of a rectangle that passes the 16-bit range. -/
theorem pushRectBody_unfit (tag : OpTag) {x y w h : Nat} (src : List Word) {s : State} (hr : s.drvState = .ready)
    (hw : w ≠ 0) (hh : h ≠ 0) (hf : ¬ fits s.cfg x y w h) :
    pushRectBody tag x y w h src s = .raise (.invalidArgument .windowRange) s := by
  rw [pushRectBody_eq, if_neg (not_not.mpr hr), if_neg (not_or.mpr ⟨hw, hh⟩), if_neg (mt (windowFits_iff _ _ _ _ _).mp hf)]

/-- R107: PUSH_RECT_BODY of a rectangle of no pixels. -/
theorem pushRectBody_empty (tag : OpTag) (x y : Nat) {w h : Nat} (src : List Word) {s : State} (hr : s.drvState = .ready)
    (hz : w = 0 ∨ h = 0) : pushRectBody tag x y w h src s = .go s := by
  rw [pushRectBody_eq, if_neg (not_not.mpr hr), if_pos hz]

theorem toNat_ne_zero {v : Word} (h : v ≠ 0) : v.toNat ≠ 0 := BitVec.toNat_ne.mp h

/-- Settles O22: each check raises its error in the state that the operation starts from. -/
theorem pushRectChecksInOrder : Obligations.PushRectChecksInOrder := by
  intro x y w h pixels s
  refine ⟨fun hr => ?_, fun hr hl => ?_, fun hr hl hw hh hf => ?_⟩
  · rw [exec_pushRect, execPushRect, whenReady, if_neg hr]
    rfl
  · rw [exec_pushRect, execPushRect, whenReady, if_pos hr, if_neg hl]
    rfl
  · rw [exec_pushRect_body hr hl, pushRectBody_unfit _ _ hr (toNat_ne_zero hw) (toNat_ne_zero hh) hf]
    rfl

/-! ### A rectangle that is sent (R107, R109, R110) -/

/-- R109: PUSH_RECT that the environment answers well. -/
theorem exec_pushRect_sent {x y w h : Word} {pixels : List Word} {s : State} (hr : s.drvState = .ready)
    (hl : pixels.length = w.toNat * h.toNat) (hw : w ≠ 0) (hh : h ≠ 0) (hm : 1 ≤ s.cfg.maxXfer)
    (hf : fits s.cfg x.toNat y.toNat w.toNat h.toNat) (hg : AnswersGood (rectDraws s.cfg (w.toNat * h.toNat)) s) :
    ∃ p : Panel, exec (.pushRect x y w h pixels) s =
      .next (sent (rectEntries s x.toNat y.toNat w.toNat h.toNat pixels)
        (rectDraws s.cfg (w.toNat * h.toNat)) (some (dcDataLevel s.cfg)) p s) := by
  have hw := toNat_ne_zero hw
  have hh := toNat_ne_zero hh
  have some_pixel : 1 ≤ pixels.length := hl ▸ Nat.mul_pos (Nat.pos_of_ne_zero hw) (Nat.pos_of_ne_zero hh)
  rw [exec_pushRect_body hr hl]
  rw [← hl] at hg ⊢
  rw [body_good _ _ _ _ _ _ s hr hw hh hf hm hg]
  exact ⟨_, congrArg (fun u => finish false (fun _ => .unit) (.go u)) (rectPrims_state s _ _ _ _ _ hm some_pixel)⟩

/-- Settles O20: a zero size passes every check and sends nothing; any other rectangle sends its three commands. -/
theorem pushRectSendsRectangle : Obligations.PushRectSendsRectangle := by
  intro x y w h pixels s hr hl
  refine ⟨rfl, fun hz => ?_, exec_pushRect_sent hr hl⟩
  have hz : w.toNat = 0 ∨ h.toNat = 0 := hz.imp (fun e => by rw [e]; rfl) (fun e => by rw [e]; rfl)
  rw [exec_pushRect_body hr hl, pushRectBody_empty _ _ _ _ hr hz]
  rfl

/-- R110: in READY the code of the operation does not matter, and the copies are as many as PUSH_RECT asks for. -/
theorem exec_pushRectSolid_copies (x y w h color : Word) {s : State} (hr : s.drvState = .ready) :
    exec (.pushRectSolid x y w h color) s =
      exec (.pushRect x y w h (List.replicate (w.toNat * h.toNat) color)) s := by
  rw [exec_pushRectSolid, execPushRectSolid, whenReady, if_pos hr, exec_pushRect_body hr List.length_replicate,
    pushRectBody_ready _ (.host 0x1) _ _ _ _ _ s hr]

/-- Settles O21: in READY it is PUSH_RECT of the copies, so it ends as that does. -/
theorem pushRectSolidIsCopies : Obligations.PushRectSolidIsCopies := by
  intro x y w h color s
  refine ⟨rfl, exec_pushRectSolid_copies x y w h color, fun hr => ?_, fun hr hw hh hm hf hg => ?_⟩
  · rw [exec_pushRectSolid, execPushRectSolid, whenReady, if_neg hr]
    rfl
  · rw [exec_pushRectSolid_copies x y w h color hr]
    exact exec_pushRect_sent hr List.length_replicate hw hh hm hf hg

/-! ### A rectangle that stops (R90, R91, R130, R131) -/

/-- The whole state after primitives of commands that the environment answers well: one answer and one entry each. -/
theorem foldl_framing_eq {ps : List Prim} (hf : ∀ p ∈ ps, isFraming p = true) (s : State) :
    ps.foldl afterPrim s = { s with
      dcLevel := (entriesOf s ps).foldl dcAfterEntry s.dcLevel
      panel := (ps.foldl afterPrim s).panel
      events := s.events ++ entriesOf s ps
      answers := s.answers.drop ps.length
      free := s.free + ps.length } := by
  obtain ⟨rst, bl, rotation, draws, length⟩ := framing_keeps ps hf
  conv_lhs => rw [foldl_afterPrim_eq, rst, bl, rotation, draws, length, ← entries_dc s]

/-- The whole state after a primitive of a command that fails: its entry with the failing reply, and the DC level that this
entry leaves. -/
theorem failPrim_eq {p : Prim} (hp : isFraming p = true) {s : State} {e : Entry} {a : Answer} {r : Reply} {err : OpError}
    (he : entriesOf s [p] = [e]) (hx : failsWith e a = some (r, err)) : failPrim s p r = { s with
      dcLevel := dcAfterEntry s.dcLevel ⟨e.ev, r⟩
      events := s.events ++ [⟨e.ev, r⟩]
      answers := s.answers.tail
      free := s.free + 1 } := by
  cases p with
  | write bytes =>
    obtain rfl : writeEntry s bytes = e := List.singleton_inj.mp he
    rfl
  | set L l =>
    cases L with
    | dc =>
      obtain rfl : setEntry s .dc l = e := List.singleton_inj.mp he
      obtain rfl : r = .err := by
        cases a with
        | good v => cases hx
        | short n | bad => cases hx; rfl
      rfl
    | rst | bl => cases hp
  | wait ms => cases hp
  | rotate q => cases hp

/-- R130: an error of the transport, taken. -/
theorem takeError_of_isTransport {e : OpError} (h : isTransport e = true) (b : Bool) (s : State) : takeError b e s = { s with
    lastError := 2
    results := s.results ++ [.err e]
    drvState := .failed
    panel := unknownPanel s.free
    free := s.free + 1 } := by
  rw [takeError, errorFatal_of_isTransport h, errorCode_of_isTransport h, Bool.or_true, if_pos rfl]

/-- Settles O23: the primitives before the failing one lead where good answers lead, the failing one logs its entry, and the
error taken is one of the transport. -/
theorem pushRectStopsAtFirstFailure : Obligations.PushRectStopsAtFirstFailure := by
  intro x y w h pixels s j a e r err hr hl hw hh hm hf he hg ha hx
  rw [exec_pushRect_body hr hl, pushRectBody_prims, if_neg (not_not.mpr hr),
    if_neg (not_or.mpr ⟨toNat_ne_zero hw, toNat_ne_zero hh⟩), if_pos ((windowFits_iff _ _ _ _ _).mpr hf)]
  have framing := rectPrims_framing s.cfg x.toNat y.toNat w.toNat h.toNat pixels
  rw [← entriesOf_rect] at he ⊢
  generalize rectPrims s.cfg x.toNat y.toNat w.toNat h.toNat pixels = ps at framing he ⊢
  obtain ⟨p, hp, entry, stop⟩ := runPrims_fail ps framing s j a e r err he hg ha hx
  have transport := runPrims_steady ps s
  rw [stop] at transport ⊢
  obtain ⟨-, -, -, before⟩ := entriesOf_get s ps framing j e he
  have length : (ps.take j).length = j := List.length_take_of_le (List.getElem?_eq_some_iff.mp hp).1.le
  have steady := foldl_afterPrim_steady (ps.take j) s
  rw [finish, takeError_of_isTransport transport.2,
    failPrim_eq (framing p (List.mem_of_getElem? hp)) ((entriesOf_congr steady [p]).trans entry) hx,
    foldl_framing_eq (fun q hq => framing q (List.mem_of_mem_take hq)), before, length, List.foldl_append,
    List.append_assoc, List.tail_drop]
  rfl

end Sys2Proof.Proofs
end

section
/-! PROOFS. What the wire commands do where an operation has come to them (spec/42_framer.md R96 to R106), and what the observer
of the panel makes of transactions, of the window's commands and of a whole rectangle (R112 to R115). -/

namespace Sys2Proof.Proofs

open Sys2Proof.Machine Sys2Proof.Safety Sys2Proof.Claims

/-! ### The wire commands (R96 to R106) -/

/-- A wire command's record starts with its opcode, and is no host operation's (R52, R59). -/
theorem encode_wireCommand {c : Cfg} {i : Instr} {op : Byte} {payload : List Byte} {ms : Nat}
    (h : wireCommand c i = some (op, payload, ms)) : (encode i).bytes.head? = some op ∧ hostCode i = none := by
  cases i with
  | swreset | slpout | colmod | caset | raset | madctl | ramwr | invon | invoff | dispon | panelCmd => cases h; exact ⟨rfl, rfl⟩
  | _ => cases h

/-- What a wire command puts on the wire, its wait, and the note of MADCTL's rotation. -/
def wirePrims (c : Cfg) (i : Instr) (op : Byte) (payload : List Byte) (ms : Nat) : List Prim :=
  commandPrims c op payload ++ waitPrims ms ++ rotatePrims i

theorem drawsOf_wirePrims {c : Cfg} (hm : 1 ≤ c.maxXfer) (i : Instr) (op : Byte) (payload : List Byte) (ms : Nat) :
    drawsOf (wirePrims c i op payload ms) = commandDraws c payload.length := by
  rw [wirePrims, drawsOf_append, drawsOf_append, drawsOf_command _ hm, drawsOf_waitPrims, rotatePrims_draws]
  rfl

section
variable {i : Instr} {op : Byte} {payload : List Byte} {ms : Nat} {s : State}

/-- A wire command that an operation has come to and that the environment answers well goes through. -/
theorem exec_wire_good (hw : wireCommand s.cfg i = some (op, payload, ms)) (hd : s.due = some i) (hm : 1 ≤ s.cfg.maxXfer)
    (hg : AnswersGood (commandDraws s.cfg payload.length) s) :
    exec i s = .next ((wirePrims s.cfg i op payload ms).foldl afterPrim { s with due := none }) := by
  rw [wire_prims i op payload ms s hw, if_pos hd]
  exact congrArg endRow (runPrims_good (wirePrims s.cfg i op payload ms) (s := { s with due := none })
    (drawsOf_wirePrims hm i op payload ms ▸ hg))

/-- The whole state that a wire command leaves. -/
theorem wirePrims_state (hm : 1 ≤ s.cfg.maxXfer) :
    (wirePrims s.cfg i op payload ms).foldl afterPrim { s with due := none } =
      wired (commandEntries s op payload ++ delayEntries ms) (commandDraws s.cfg payload.length)
        (some (dcAfterCommand s.cfg payload))
        ((wirePrims s.cfg i op payload ms).foldl afterPrim { s with due := none }).panel (rotationAfter i s.curRotation) s := by
  have entries : entriesOf { s with due := none } (wirePrims s.cfg i op payload ms) =
      commandEntries s op payload ++ delayEntries ms := by
    rw [wirePrims, entriesOf_append, entriesOf_append, rotatePrims_entries, List.append_nil, entriesOf_waitPrims]
    exact congrArg (· ++ _) (entriesOf_command { s with due := none } op payload)
  have dc : ∀ l, (wirePrims s.cfg i op payload ms).foldl (levelStep .dc) l = some (dcAfterCommand s.cfg payload) := fun l => by
    rw [wirePrims, List.foldl_append, List.foldl_append, commandPrims_dc, waitPrims_level, rotatePrims_level]
  have line : ∀ L ≠ Line.dc, ∀ l, (wirePrims s.cfg i op payload ms).foldl (levelStep L) l = l := fun L hL l => by
    rw [wirePrims, List.foldl_append, List.foldl_append, commandPrims_line L hL, waitPrims_level, rotatePrims_level]
  have rotation : ∀ r, (wirePrims s.cfg i op payload ms).foldl rotationStep r = rotationAfter i r := fun r => by
    rw [wirePrims, List.foldl_append, List.foldl_append, commandPrims_rotation, waitPrims_rotation, rotatePrims_rotation]
  conv_lhs => rw [foldl_afterPrim_eq, entries, drawsOf_wirePrims hm, dc, line .rst nofun, line .bl nofun, rotation]
  rfl

end

/-- Settles O25: a command that is due is its list of primitives, and one that is not is turned away. -/
theorem wireCommandsSendTheirFrame : Obligations.WireCommandsSendTheirFrame := by
  intro i op payload ms s hw
  obtain ⟨opcode, notHost⟩ := encode_wireCommand hw
  refine ⟨opcode, notHost, fun hd => ?_, fun hd hm hg =>
    ⟨_, (exec_wire_good hw hd hm hg).trans (congrArg Host.Outcome.next (wirePrims_state hm))⟩⟩
  rw [wire_prims i op payload ms s hw, if_neg hd]
  rfl

/-! ### The window's commands (R99, R100, R102, R113, R114) -/

/-- A wire command without a wait or a rotation is its command alone. -/
theorem wirePrims_plain (c : Cfg) {i : Instr} (hi : rotatePrims i = []) (op : Byte) (payload : List Byte) :
    wirePrims c i op payload 0 = commandPrims c op payload := by
  rw [wirePrims, hi, waitPrims_zero, List.append_nil, List.append_nil]

/-- R113: the pointer that a write session opens with, in a window that is set. -/
theorem openPtr_of_window {p : Panel} {cs ce rs re : Nat} (hc : p.colRange = some (cs, ce)) (hr : p.rowRange = some (rs, re))
    (k : Nat) : openPtr k p = some (cs, rs) := by
  rw [openPtr, hc, hr]

/-- Settles O26: each of the three is a command whose effect on the panel is known. -/
theorem windowCommandsReachPanel : Obligations.WindowCommandsReachPanel := by
  intro a b s hm
  refine ⟨fun hd hg => ⟨_, exec_wire_good rfl hd hm hg, ?_⟩, fun hd hg => ⟨_, exec_wire_good rfl hd hm hg, ?_⟩,
    fun cs ce rs re hd hc hr hg => ⟨_, exec_wire_good rfl hd hm hg, ?_⟩⟩
  · rw [wirePrims_plain _ rfl]
    exact caset_panel a b { s with due := none } hm
  · rw [wirePrims_plain _ rfl]
    exact raset_panel a b { s with due := none } hm
  · rw [wirePrims_plain _ rfl]
    refine (command_head { s with due := none } s.cfg rfl 0x2C).trans ?_
    rw [panelCommand, openPtr_of_window hc hr]
    rfl

/-! ### Transactions (R113, R114) -/

/-- R114: a pixel whose row is in the window. -/
theorem panelPixel_of_window {p : Panel} {cs ce rs re col row : Nat} (hc : p.colRange = some (cs, ce))
    (hr : p.rowRange = some (rs, re)) (hp : p.ptr = some (col, row)) (hin : row ≤ re) (k : Nat) (v : Word) :
    panelPixel k v p = { p with
      gram := Memory.write p.gram (gramKey col row) v
      ptr := some (advancePtr cs ce col row) } := by
  rw [panelPixel, hc, hr, hp]
  exact if_pos hin

/-- R114: the two bytes of a pixel whose row is in the window, in a session that stands between pixels. -/
theorem panelData_pixel {p : Panel} {cs ce rs re col row : Nat} (hc : p.colRange = some (cs, ce))
    (hr : p.rowRange = some (rs, re)) (hcur : p.cur = some 0x2C) (hacc : p.acc.length % 2 = 0)
    (hp : p.ptr = some (col, row)) (hin : row ≤ re) (k : Nat) (hi lo : Byte) :
    panelData k [hi, lo] p = { p with
      acc := p.acc ++ [hi] ++ [lo]
      gram := Memory.write p.gram (gramKey col row) (word16 hi lo)
      ptr := some (advancePtr cs ce col row) } := by
  have odd : (p.acc ++ [hi]).length % 2 = 1 := by rw [List.length_append, List.length_singleton]; omega
  calc panelData k [hi, lo] p = panelDataByte k (panelDataByte k p hi) lo := rfl
    _ = panelDataByte k { p with acc := p.acc ++ [hi] } lo := by rw [panelDataByte_first k p hi hcur hacc]
    _ = panelPixel k (word16 hi lo) { p with acc := p.acc ++ [hi] ++ [lo] } :=
      panelDataByte_second k { p with acc := p.acc ++ [hi] } hi lo hcur odd List.getLast?_concat
    _ = _ := panelPixel_of_window (p := { p with acc := p.acc ++ [hi] ++ [lo] }) hc hr hp hin k (word16 hi lo)

/-- Settles O27: the data of a transaction is taken byte by byte, and the second byte of a pair is a pixel. -/
theorem observerReadsTransactions : Obligations.ObserverReadsTransactions := by
  intro c k cs ce rs re p hc hr
  refine ⟨fun b => ?_, fun x y => ?_, fun hi lo col row hcur hacc hptr hin => ⟨_, rfl, ?_⟩⟩
  · rw [panelTransaction_command, panelCommand, openPtr_of_window hc hr]
  · simp only [panelTransaction_data, panelData, List.foldl_append]
  · rw [panelTransaction_data, panelData_pixel hc hr hcur hacc hptr hin]
    refine ⟨?_, fun key hkey => Memory.read_write_other _ _ _ _ hkey, rfl, rfl, rfl⟩
    rw [gramAt, Memory.read_write_same, Option.map_some, word16_toNat]

/-! ### A rectangle in the panel (R115) -/

/-- R44: where a span of `n` places ends, its start moved by an offset. -/
theorem span_end {n : Nat} (hn : 1 ≤ n) (start offset : Nat) : start + n - 1 + offset = start + offset + n - 1 := by omega

/-- R95, R99, R100: the window of a rectangle whose ends fit 16 bits. -/
theorem windowPrims_panel {x y w h : Nat} {s : State} (hm : 1 ≤ s.cfg.maxXfer) (hw : 1 ≤ w) (hh : 1 ≤ h)
    (hf : fits s.cfg x y w h) : ((windowPrims s.cfg x y w h).foldl afterPrim s).panel = { s.panel with
      colRange := some (x + s.cfg.colOffset.toNat, x + w - 1 + s.cfg.colOffset.toNat)
      rowRange := some (y + s.cfg.rowOffset.toNat, y + h - 1 + s.cfg.rowOffset.toNat)
      cur := some 0x2B
      acc := rowBytes s.cfg y h
      ptr := none } := by
  have toNat : ∀ n ≤ 0xFFFF, (BitVec.ofNat 16 n).toNat = n := fun n hn => by
    rw [BitVec.toNat_ofNat, Nat.mod_eq_of_lt (by omega)]
  obtain ⟨cols, rows⟩ := hf
  have steady := foldl_afterPrim_steady (commandPrims s.cfg 0x2A (columnBytes s.cfg x w)) s
  have columns : ((commandPrims s.cfg 0x2A (columnBytes s.cfg x w)).foldl afterPrim s).panel = _ := caset_panel _ _ s hm
  rw [toNat _ cols, toNat _ (by omega)] at columns
  show ((commandPrims s.cfg 0x2A (columnBytes s.cfg x w) ++ commandPrims s.cfg 0x2B (rowBytes s.cfg y h)).foldl afterPrim
    s).panel = _
  rw [List.foldl_append]
  generalize (commandPrims s.cfg 0x2A (columnBytes s.cfg x w)).foldl afterPrim s = u at steady columns ⊢
  rw [← steady.cfg, rowBytes, raset_panel _ _ u (steady.cfg ▸ hm), columns, steady.cfg, toNat _ rows, toNat _ (by omega)]

/-- R115: what the panel has streamed in after a whole rectangle, over what it held. -/
theorem rectPrims_streamed {x y w h : Nat} {src : List Word} {s : State} (hm : 1 ≤ s.cfg.maxXfer) (hw : 1 ≤ w) (hh : 1 ≤ h)
    (hl : src.length = w * h) (hf : fits s.cfg x y w h) : ∃ p0 : Panel, p0.gram = s.panel.gram ∧
      Streamed (x + s.cfg.colOffset.toNat) (y + s.cfg.rowOffset.toNat) w h src p0 (2 * src.length)
        ((rectPrims s.cfg x y w h src).foldl afterPrim s).panel := by
  have window := windowPrims_panel hm hw hh hf
  have steady := foldl_afterPrim_steady (windowPrims s.cfg x y w h) s
  obtain ⟨cols, rows⟩ := hf
  rw [rectPrims, List.foldl_append]
  generalize (windowPrims s.cfg x y w h).foldl afterPrim s = u at window steady ⊢
  refine ⟨u.panel, by rw [window], ?_⟩
  rw [← steady.cfg] at hm window cols ⊢
  refine ramwr_streamed _ _ w h src u hw (by omega) hl (hl ▸ Nat.mul_pos hw hh) hm ?_ ?_
  · rw [window, span_end hw]
  · rw [window, span_end hh]

/-- Settles O24: the stream of a whole rectangle has put every pixel at its place in the window, and the pointer past it. -/
theorem panelReceivesRectangle : Obligations.PanelReceivesRectangle := by
  intro tag x y w h src s t hm hw hh hl hgo
  obtain ⟨rfl, -, hf⟩ := body_go tag x y w h src s t (by omega) (by omega) hgo
  obtain ⟨p0, gram, streamed⟩ := rectPrims_streamed hm hw hh hl hf
  obtain ⟨cols, rows⟩ := hf
  obtain ⟨col, row, -, -, ptr, here⟩ := streamed
  rw [Nat.mul_div_cancel_left _ (by omega : 0 < 2), hl] at ptr
  rw [Nat.mul_div_cancel_left _ (by omega : 0 < 2), hl] at here
  refine ⟨?_, ?_, fun i j hi hj => ?_, fun c r hc out => ?_, ?_⟩
  · rw [col, span_end hw]
  · rw [row, span_end hh]
  · have inside : j * w + i < w * h :=
      calc j * w + i < (j + 1) * w := by rw [Nat.succ_mul]; omega
        _ ≤ h * w := Nat.mul_le_mul_right w hj
        _ = w * h := Nat.mul_comm h w
    rw [gramAt, here _ _ (by omega), Nat.add_sub_cancel_left, Nat.add_sub_cancel_left]
    exact if_pos ⟨Nat.le_add_right _ _, Nat.add_lt_add_left hi _, Nat.le_add_right _ _, inside⟩
  · rw [gramAt, here c r hc, gramAt, ← gram]
    refine if_neg fun ⟨left, right, top, place⟩ => out ⟨left, right, top, ?_⟩
    by_contra below
    have : h * w ≤ (r - (y + s.cfg.rowOffset.toNat)) * w := Nat.mul_le_mul_right w (by omega)
    rw [Nat.mul_comm w h] at place
    omega
  · rw [ptr, Nat.mul_mod_right, Nat.mul_div_cancel_left _ hw]
    simp only [Nat.add_zero, Nat.add_right_comm]

end Sys2Proof.Proofs
end

section
/-! PROOFS. The balance of acquisitions and releases, after every step and after DISPOSE (spec/43_sequencer.md R121, R122,
60_exceptions.md R125), and the reserved codes (R123). -/

namespace Sys2Proof.Proofs

open Sys2Proof.Machine Sys2Proof.Safety Sys2Proof.Claims

/-! ### After every step (R122, R125) -/

/-- The history is balanced, and `LAST_ERROR` is one of the six codes. -/
def BalancedWithCode (s : State) : Prop := ReleasesBalanced s ∧ ErrorCodeLegal s

theorem act_balancedWithCode {s t : State} (a : Act s t) : BalancedWithCode s → BalancedWithCode t := fun h =>
  ⟨act_balanced a h.1, act_code a h.2⟩

/-- R23: where no resource is owned, no handle is held of any. -/
theorem held_eq_none {s : State} (h : HandlesOwned s) (hd : s.drvState = .uninit ∨ s.drvState = .disposed) (r : Resource) :
    held s r = none := by
  obtain ⟨spi, dc, rst, bl⟩ := h.1 hd
  cases r with
  | spi => exact spi
  | gpio L => cases L; exacts [dc, rst, bl]

theorem held_resetBlock (s : State) (r : Resource) : held (resetBlock s) r = none := by
  cases r with
  | spi => rfl
  | gpio L => cases L <;> rfl

/-- Block reset forgets every handle and keeps the history; where it is accepted no handle is held already. -/
theorem resetBlock_balancedWithCode {s : State} (h : Inv s) (hd : s.drvState = .uninit ∨ s.drvState = .disposed) :
    BalancedWithCode s → BalancedWithCode (resetBlock s) := fun hb =>
  ⟨fun r => by rw [held_resetBlock, ← held_eq_none h.handles hd r]; exact hb.1 r, Nat.zero_le 5⟩

/-- Settles O54: every act keeps the balance, and block reset finds every resource released. -/
theorem stepKeepsReleasesBalanced : Obligations.StepKeepsReleasesBalanced := fun _ _ h ht =>
  step_keeps_of_acts (P := BalancedWithCode) (fun _ _ hp => hp) (fun _ _ => act_balancedWithCode) (fun _ _ _ _ hp => hp)
    (fun _ => resetBlock_balancedWithCode) h ht ⟨h.balanced, h.code⟩

/-! ### DISPOSE (R121) -/

/-- The state after releases: their entries are logged, with an answer drawn for each. -/
def released (new : List Entry) (s : State) : State :=
  { s with
    events := s.events ++ new
    answers := s.answers.drop new.length
    free := s.free + new.length }

theorem released_nil (s : State) : released [] s = s := by
  simp [released]

theorem logged_drawn_eq_released (e : Event) (r : Reply) (s : State) : logged e r (drawn s) = released [⟨e, r⟩] s := by
  simp [logged, drawn, released]

theorem setHandle_self (L : Line) (s : State) : setHandle L (lineHandle s L) s = s := by
  cases L <;> rfl

theorem setLevel_self (L : Line) (s : State) : setLevel L (lineLevel s L) s = s := by
  cases L <;> rfl

/-- R121: the serial port, held or not. -/
theorem closeSpi_eq (s : State) : closeSpi s =
    { released (s.hSpi.toList.map fun h => ⟨.spiClose h, .ignored⟩) s with hSpi := none } := by
  unfold closeSpi
  split
  case h_1 h held => rw [held, logged_drawn_eq_released]; rfl
  case h_2 unheld => rw [unheld, Option.toList_none, List.map_nil, released_nil, ← unheld]

/-- R121: a line, held or not. -/
theorem releaseLine_eq (L : Line) (s : State) : releaseLine L s =
    setLevel L (levelReleased (lineHandle s L) (lineLevel s L)) (setHandle L none
      (released ((lineHandle s L).toList.map fun h => ⟨.gpioRelease L h, .ignored⟩) s)) := by
  unfold releaseLine
  split
  case h_1 h held => rw [held, logged_drawn_eq_released]; rfl
  case h_2 unheld =>
    have handle : setHandle L none s = s := unheld ▸ setHandle_self L s
    rw [unheld, Option.toList_none, List.map_nil, released_nil, handle]
    exact (setLevel_self L s).symm

/-- R121: every resource. -/
theorem releaseAll_eq (s : State) : releaseAll s = { released (releaseEntries s) s with
    hSpi := none
    hDc := none
    hRst := none
    hBl := none
    dcLevel := levelReleased s.hDc s.dcLevel
    rstLevel := levelReleased s.hRst s.rstLevel
    blLevel := levelReleased s.hBl s.blLevel } := by
  unfold releaseAll
  rw [closeSpi_eq, releaseLine_eq .dc, releaseLine_eq .rst, releaseLine_eq .bl]
  simp only [setLevel, setHandle, lineHandle, lineLevel, released, releaseEntries, List.append_assoc, List.length_append,
    List.drop_drop, Nat.add_assoc]

/-- Settles O35: in DISPOSED nothing is released, elsewhere each held resource once. -/
theorem disposeReleasesInOrder : Obligations.DisposeReleasesInOrder := by
  refine fun s => ⟨rfl, fun hd => ?_, fun hd => ?_⟩
  · rw [exec_dispose, execDispose, if_pos hd]
    rfl
  · rw [exec_dispose, execDispose, if_neg hd, releaseAll_eq]
    rfl

/-! ### The balance after DISPOSE (R122) -/

/-- R121: after DISPOSE the driver is DISPOSED and no handle is held. -/
theorem exec_dispose_handles {s : State} (h : HandlesOwned s) : ∃ t, exec .dispose s = .next t ∧ t.drvState = .disposed ∧
    ∀ r, held t r = none := by
  obtain ⟨-, again, once⟩ := disposeReleasesInOrder s
  by_cases hd : s.drvState = .disposed
  · exact ⟨_, again hd, hd, fun r => held_eq_none h (.inr hd) r⟩
  · refine ⟨_, once hd, rfl, fun r => ?_⟩
    cases r with
    | spi => rfl
    | gpio L => cases L <;> rfl

/-- Settles O36: DISPOSE keeps the balance, as every instruction does, and leaves no handle; a second one releases nothing. -/
theorem disposeBalancesReleases : Obligations.DisposeBalancesReleases := by
  intro s h
  obtain ⟨t, ht, hd, unheld⟩ := exec_dispose_handles h.handles
  have balanced : ReleasesBalanced t := exec_keeps_of_acts (fun _ _ => act_balanced) .dispose h ht h.balanced
  obtain ⟨-, again, -⟩ := disposeReleasesInOrder t
  refine ⟨t, _, ht, hd, fun r => ⟨unheld r, ?_⟩, again hd, rfl, hd⟩
  rw [balanced r, unheld r]
  rfl

/-! ### The reserved codes (R123) -/

/-- Settles O37: the error is taken in the state that the operation starts from, and it is not fatal. -/
theorem reservedCodesAreIllegal : Obligations.ReservedCodesAreIllegal := fun _ => ⟨rfl, rfl, rfl, rfl⟩

end Sys2Proof.Proofs
end

section
/-! PROOFS. SET_ROTATION and SET_BACKLIGHT (spec/43_sequencer.md R119, R120): turned away, gone through, and ended by an error
of the transport (60_exceptions.md R130). -/

namespace Sys2Proof.Proofs

open Sys2Proof.Machine Sys2Proof.Safety Sys2Proof.Claims

/-! ### SET_ROTATION (R119) -/

/-- R101: MADCTL as a list of primitives, with the note of the rotation after it. -/
def madctlPrims (c : Cfg) (r : BitVec 2) : List Prim := commandPrims c 0x36 [madctlByte c r] ++ [.rotate r]

/-- R119: SET_ROTATION past its state check. -/
theorem exec_setRotation_prims (r : BitVec 2) {s : State} (hr : s.drvState = .ready) :
    exec (.setRotation r) s = finish false (fun _ => .unit) (runPrims (madctlPrims s.cfg r) s) := by
  rw [exec_setRotation, execSetRotation_eq, whenReady, if_pos hr, sendMadctl_prims]
  rfl

theorem drawsOf_madctlPrims {c : Cfg} (hm : 1 ≤ c.maxXfer) (r : BitVec 2) : drawsOf (madctlPrims c r) = commandDraws c 1 := by
  rw [madctlPrims, drawsOf_append, drawsOf_command c hm]
  rfl

/-- The whole state that MADCTL leaves. -/
theorem madctlPrims_state (r : BitVec 2) {s : State} (hm : 1 ≤ s.cfg.maxXfer) : (madctlPrims s.cfg r).foldl afterPrim s = { s with
    curRotation := some r
    dcLevel := some (dcDataLevel s.cfg)
    panel := ((madctlPrims s.cfg r).foldl afterPrim s).panel
    events := s.events ++ commandEntries s 0x36 [madctlByte s.cfg r]
    answers := s.answers.drop (commandDraws s.cfg 1)
    free := s.free + (commandEntries s 0x36 [madctlByte s.cfg r]).length } := by
  have entries : entriesOf s (madctlPrims s.cfg r) = commandEntries s 0x36 [madctlByte s.cfg r] := by
    rw [madctlPrims, entriesOf_append, entriesOf_command, entriesOf_rotate, entriesOf_nil, List.append_nil]
  have dc : ∀ l, (madctlPrims s.cfg r).foldl (levelStep .dc) l = some (dcDataLevel s.cfg) := fun l => by
    rw [madctlPrims, List.foldl_append, commandPrims_dc]
    rfl
  have line : ∀ L ≠ Line.dc, ∀ l, (madctlPrims s.cfg r).foldl (levelStep L) l = l := fun L hL l => by
    rw [madctlPrims, List.foldl_append, commandPrims_line L hL]
    rfl
  have rotation : ∀ q, (madctlPrims s.cfg r).foldl rotationStep q = some r := fun q => by
    rw [madctlPrims, List.foldl_append]
    rfl
  conv_lhs => rw [foldl_afterPrim_eq, entries, drawsOf_madctlPrims hm, dc, line .rst nofun, line .bl nofun, rotation]

/-- R20, R101: MADCTL that raises raises an error of the transport, and has not come to the note of the rotation. -/
theorem madctlPrims_raise (r : BitVec 2) {s t : State} {e : OpError} (h : runPrims (madctlPrims s.cfg r) s = .raise e t) :
    Steady s t ∧ isTransport e = true ∧ t.curRotation = s.curRotation := by
  have steady := runPrims_steady (madctlPrims s.cfg r) s
  rw [h] at steady
  refine ⟨steady.1, steady.2, ?_⟩
  rw [madctlPrims, runPrims_append] at h
  have frame := framing_ends _ (commandPrims_framing s.cfg 0x36 [madctlByte s.cfg r]) s
  cases hc : runPrims (commandPrims s.cfg 0x36 [madctlByte s.cfg r]) s with
  | go u => rw [hc] at h; cases h
  | raise e' u =>
    rw [hc] at h frame
    obtain ⟨rfl, rfl⟩ := Ctl.raise.inj h
    exact frame.1

/-- Settles O33: past its state check SET_ROTATION is one MADCTL, which notes the rotation last. -/
theorem setRotationWritesMadctl : Obligations.SetRotationWritesMadctl := by
  refine fun r s => ⟨rfl, fun hr hm hg => ?_, fun hr => ?_, fun t e hr ht herr => ?_⟩
  · rw [exec_setRotation_prims r hr, finish_good _ _ (by rwa [drawsOf_madctlPrims hm]), madctlPrims_state r hm]
    exact ⟨_, rfl⟩
  · rw [exec_setRotation, execSetRotation, whenReady, if_neg hr]
    rfl
  · rw [exec_setRotation_prims r hr] at ht
    have steady := runPrims_steady (madctlPrims s.cfg r) s
    cases hx : runPrims (madctlPrims s.cfg r) s with
    | go u =>
      rw [hx] at ht steady
      obtain rfl := Host.Outcome.next.inj ht
      rw [succeed_results, Steady.results steady] at herr
      cases List.append_cancel_left herr
    | raise e' u =>
      obtain ⟨steady, transport, rotation⟩ := madctlPrims_raise r hx
      rw [hx] at ht
      obtain rfl := Host.Outcome.next.inj ht
      rw [takeError_results, steady.results] at herr
      obtain rfl : e' = e := by simpa using herr
      rw [takeError_of_isTransport transport]
      exact ⟨(isTransportError_err e').trans transport, rfl, rfl, rotation, steady.dirty, steady.cfg⟩

/-! ### SET_BACKLIGHT (R120) -/

/-- R91: a line setting that is not answered well. -/
theorem setLine_bad (L : Line) (l : Bit) {s : State} (h : ∀ v, nextAnswer s ≠ .good v) : setLine L l s =
    .raise (.transportLine L) (setLevel L none (logged (.gpioSet L (lineHandle s L) l) .err (drawn s))) := by
  have bad : settingOk (nextAnswer s) ≠ true := by
    cases ha : nextAnswer s with
    | good v => exact absurd ha (h v)
    | short | bad => nofun
  rw [setLine, if_neg bad]

/-- R120: SET_BACKLIGHT past its state check, with a backlight line. -/
theorem exec_setBacklight_line (on : Bool) {s : State} {n : Nat} (hr : s.drvState = .ready) (hb : s.cfg.blLine = some n) :
    exec (.setBacklight on) s = finish false (fun _ => .unit) (setLine .bl (blLevelFor s.cfg on) s) := by
  rw [exec_setBacklight, execSetBacklight, whenReady, if_pos hr, if_pos (by rw [hasBl, hb]; rfl)]

/-- Settles O34: past its state check SET_BACKLIGHT is one setting of the configured line, or nothing without one. -/
theorem setBacklightDrivesLine : Obligations.SetBacklightDrivesLine := by
  refine fun on s => ⟨rfl, fun hr => ?_, fun hr hb => ?_, fun n hr hb hg => ?_, fun n a rest hr hb ha hbad => ?_⟩
  · rw [exec_setBacklight, execSetBacklight, whenReady, if_neg hr]
    rfl
  · rw [exec_setBacklight, execSetBacklight, whenReady, if_pos hr, if_neg (by simp [hasBl, hb])]
    rfl
  · rw [exec_setBacklight_line on hr hb, setLine_good .bl _ hg, List.drop_one]
    rfl
  · have answer : nextAnswer s = a := by rw [nextAnswer, ha]
    rw [exec_setBacklight_line on hr hb, setLine_bad .bl _ (answer ▸ hbad), finish, takeError_of_isTransport rfl]
    obtain rfl : s.answers.tail = rest := by rw [ha]; rfl
    exact ⟨_, rfl⟩

end Sys2Proof.Proofs
end

section
/-! PROOFS. An INIT that the environment answers well, one whose open fails, one whose clear does not fit
(spec/43_sequencer.md R116, 60_exceptions.md R130), and the commands of an INIT that ends well (R117). -/

namespace Sys2Proof.Proofs

open Sys2Proof.Machine Sys2Proof.Safety Sys2Proof.Claims

/-! ### INIT that the environment answers well (R116) -/

/-- R116: INIT past its state check. -/
theorem exec_init_body {s : State} (hu : s.drvState = .uninit) :
    exec .init s = finish true (fun _ => .unit) (initBody s) := by
  rw [exec_init, execInit, if_pos hu]

/-- The state after steps 1 to 9 and into step 10, with the panel `p`. -/
def broughtUp (p : Panel) (s : State) : State :=
  { withHandles s (openOrder s.cfg).length with
    drvState := .ready
    curRotation := some s.cfg.rotation
    dcLevel := some s.cfg.dcCmdLevel
    rstLevel := some 1
    panel := p
    events := s.events ++ (openEntries s (openOrder s.cfg).length ++ bringUpEntries (withHandles s (openOrder s.cfg).length))
    answers := s.answers.drop ((openOrder s.cfg).length + bringUpDraws s.cfg)
    free := s.free + (openOrder s.cfg).length + (bringUpEntries (withHandles s (openOrder s.cfg).length)).length }

/-- R116: with good answers INIT comes to its clear. -/
theorem initBody_broughtUp {s : State} (hm : 1 ≤ s.cfg.maxXfer)
    (hg : AnswersGood ((openOrder s.cfg).length + bringUpDraws s.cfg) s) :
    ∃ p, initBody s = clearScreen (broughtUp p s) := by
  obtain ⟨p, h⟩ := init_prefix_good s hm hg
  exact ⟨p, by rw [initBody, h]; rfl⟩

/-- The whole state that INIT's clear leaves. -/
theorem clearScreen_good {s : State} (hr : s.drvState = .ready) (hwf : s.cfg.wf = true)
    (hf : fits s.cfg 0 0 s.cfg.panelW.toNat s.cfg.panelH.toNat)
    (hg : AnswersGood (rectDraws s.cfg (s.cfg.panelW.toNat * s.cfg.panelH.toNat)) s) :
    ∃ p, clearScreen s = .go { s with
      dcLevel := some (dcDataLevel s.cfg)
      panel := p
      events := s.events ++ rectEntries s 0 0 s.cfg.panelW.toNat s.cfg.panelH.toNat (clearPixels s.cfg)
      answers := s.answers.drop (rectDraws s.cfg (s.cfg.panelW.toNat * s.cfg.panelH.toNat))
      free := s.free + (rectEntries s 0 0 s.cfg.panelW.toNat s.cfg.panelH.toNat (clearPixels s.cfg)).length } := by
  have facts := wfFacts hwf
  have length : (clearPixels s.cfg).length = s.cfg.panelW.toNat * s.cfg.panelH.toNat := List.length_replicate
  have some_pixel : 1 ≤ (clearPixels s.cfg).length := length ▸ Nat.mul_pos facts.panelW facts.panelH
  have sent := body_good (.host 0x0) 0 0 _ _ (clearPixels s.cfg) s hr (Nat.ne_of_gt facts.panelW) (Nat.ne_of_gt facts.panelH)
    hf facts.xfer (length.symm ▸ hg)
  rw [← length]
  exact ⟨_, sent.trans (congrArg Ctl.go (rectPrims_state s _ _ _ _ _ facts.xfer some_pixel))⟩

/-- Settles O29: good answers bring INIT to its clear, and the clear through. -/
theorem initBringsUpPanel : Obligations.InitBringsUpPanel := by
  intro s hwf hu hf hg
  obtain ⟨p, toClear⟩ := initBody_broughtUp (wfFacts hwf).xfer (answersGood_weaken hg (Nat.le_add_right _ _))
  obtain ⟨q, cleared⟩ := clearScreen_good (s := broughtUp p s) rfl hwf hf (answersGood_after hg rfl)
  refine ⟨rfl, _, _, q, rfl, rfl, ?_⟩
  rw [exec_init_body hu, toClear, cleared]
  have opens := openEntries_length s (openOrder s.cfg).length (Nat.le_refl _)
  simp only [finish, succeed, sent, broughtUp, List.append_assoc, List.length_append, opens, List.drop_drop, Nat.add_assoc]
  rfl

/-! ### INIT whose open fails, or whose clear does not fit (R116, R130) -/

/-- R23: a resource whose open is among those that succeeded is held. -/
theorem held_withHandles {s : State} {k n : Nat} {r : Resource} (h : (openOrder s.cfg)[k]? = some r) (hk : k < n) :
    (held (withHandles s n) r).isSome = true := by
  obtain ⟨rfl, rfl⟩ | ⟨rfl, rfl⟩ | ⟨rfl, rfl⟩ | ⟨rfl, rfl, -⟩ := openOrder_cases _ _ _ h
  all_goals simp [held, lineHandle, withHandles, hk]

/-- R116, R130: the error that INIT takes for an open that fails. -/
theorem exec_init_open_bad {s : State} {k : Nat} {r : Resource} {a : Answer} (hu : s.drvState = .uninit)
    (hk : (openOrder s.cfg)[k]? = some r) (hg : AnswersGood k s) (ha : s.answers[k]? = some a) (hbad : ∀ v, a ≠ .good v) :
    exec .init s = .next
      { withHandles s k with
        drvState := .failed
        panel := unknownPanel (s.free + k + 1)
        events := s.events ++ (openEntries s k ++ [⟨openEvent s.cfg r, .err⟩])
        answers := s.answers.drop (k + 1)
        free := s.free + k + 2
        lastError := 1
        results := s.results ++ [.err (.configuration r)] } := by
  rw [exec_init_body hu, initBody, acquire_bad s k r a hk hg ha hbad]
  rfl

/-- Settles O31: the opens before the failing one give the handles that stay; the clear that does not fit comes after all of
them. -/
theorem initFailuresKeepHandles : Obligations.InitFailuresKeepHandles := by
  refine ⟨fun s k r a => exec_init_open_bad, fun s hwf hu hf hg => ?_⟩
  have facts := wfFacts hwf
  obtain ⟨p, toClear⟩ := initBody_broughtUp facts.xfer hg
  have unfit : clearScreen (broughtUp p s) = .raise (.invalidArgument .windowRange) (broughtUp p s) :=
    pushRectBody_unfit _ _ rfl (Nat.ne_of_gt facts.panelW) (Nat.ne_of_gt facts.panelH) hf
  refine ⟨takeError true (.invalidArgument .windowRange) (broughtUp p s), ?_, rfl, rfl, rfl, fun r hr => ?_, rfl⟩
  · rw [exec_init_body hu, toClear, unfit]
    rfl
  · obtain ⟨k, hk⟩ := List.mem_iff_getElem?.mp hr
    obtain ⟨hlt, -⟩ := List.getElem?_eq_some_iff.mp hk
    have kept := held_withHandles hk hlt
    cases r with
    | spi => exact kept
    | gpio L => cases L <;> exact kept

end Sys2Proof.Proofs
end

section
/-! PROOFS. The commands that a reader of the wire finds in an INIT that ends well, after the reset pulse (spec/43_sequencer.md
R117, 30_encoding.md R58), whatever the environment has answered. -/

namespace Sys2Proof.Proofs

open Sys2Proof.Machine Sys2Proof.Safety Sys2Proof.Claims

/-! ### What a reader of the wire finds in a part of a history (R58) -/

/-- From these entries to the end of the history a reader finds these commands, after the one it is reading. -/
def TellsCommands (c : Cfg) (es : List Entry) (cmds : List (Byte × List Byte)) : Prop :=
  ∀ (level : Option Bit) (current : Option (Byte × List Byte)),
    readCommandsFrom c current (wireTraceFrom level es) = current.toList ++ cmds

/-- In these entries a reader finds these commands, whatever comes before and after. -/
def HoldsCommands (c : Cfg) (es : List Entry) (cmds : List (Byte × List Byte)) : Prop :=
  ∀ (rest : List Entry) (more : List (Byte × List Byte)), TellsCommands c rest more →
    TellsCommands c (es ++ rest) (cmds ++ more)

theorem tellsCommands_nil (c : Cfg) : TellsCommands c [] [] := fun _ current => (List.append_nil current.toList).symm

theorem HoldsCommands.read {c : Cfg} {es : List Entry} {cmds : List (Byte × List Byte)} (h : HoldsCommands c es cmds)
    (level : Option Bit) : readCommands c (wireTraceFrom level es) = cmds := by
  have all := h [] [] (tellsCommands_nil c) level none
  rwa [List.append_nil, List.append_nil] at all

theorem HoldsCommands.append {c : Cfg} {as bs : List Entry} {xs ys : List (Byte × List Byte)} (ha : HoldsCommands c as xs)
    (hb : HoldsCommands c bs ys) : HoldsCommands c (as ++ bs) (xs ++ ys) := by
  intro rest more h
  rw [List.append_assoc, List.append_assoc]
  exact ha _ _ (hb _ _ h)

theorem holdsCommands_nil (c : Cfg) : HoldsCommands c [] [] := fun _ _ h => h

theorem holdsCommands_command {s : State} (hm : 1 ≤ s.cfg.maxXfer) (op : Byte) (payload : List Byte) :
    HoldsCommands s.cfg (commandEntries s op payload) [(op, payload)] := by
  intro rest more h level current
  rw [read_command s hm, h]
  rfl

/-- R57: an event that is no write and leaves the DC line alone. -/
def isOffWire : Event → Bool
  | .spiOpen _ _ _ _ => true
  | .gpioOpen _ _ _ _ => true
  | .gpioSet L _ _ => L ≠ .dc
  | .delay _ => true
  | .spiWrite _ _ => false
  | .spiClose _ => false
  | .gpioRelease _ _ => false

theorem wireTraceFrom_offWire {es : List Entry} (h : ∀ e ∈ es, isOffWire e.ev = true) (level : Option Bit) (rest : List Entry) :
    wireTraceFrom level (es ++ rest) = wireTraceFrom level rest := by
  induction es with
  | nil => rfl
  | cons e es ih =>
    obtain ⟨he, hes⟩ := List.forall_mem_cons.mp h
    obtain ⟨ev, reply⟩ := e
    have silent : writeSucceeded ⟨ev, reply⟩ = none := by
      cases ev with
      | spiWrite => cases he
      | _ => rfl
    have dc : dcAfterEntry level ⟨ev, reply⟩ = level := by
      cases ev with
      | gpioSet L h l =>
        cases L with
        | dc => cases he
        | rst | bl => rfl
      | gpioRelease => cases he
      | _ => rfl
    rw [List.cons_append, wireTraceFrom, silent, dc]
    exact ih hes

theorem holdsCommands_offWire (c : Cfg) {es : List Entry} (h : ∀ e ∈ es, isOffWire e.ev = true) : HoldsCommands c es [] := by
  intro rest more hr level current
  rw [wireTraceFrom_offWire h]
  exact hr level current

theorem holdsCommands_delay (c : Cfg) (ms : Nat) : HoldsCommands c (delayEntries ms) [] := by
  refine holdsCommands_offWire c fun e he => ?_
  unfold delayEntries at he
  split at he
  · cases he
  · obtain rfl := List.mem_singleton.mp he
    rfl

theorem holdsCommands_table {s : State} (hm : 1 ≤ s.cfg.maxXfer) (table : List PanelEntry) : HoldsCommands s.cfg
    (table.flatMap fun e => commandEntries s e.op e.payload ++ delayEntries e.delayMs)
    (table.map fun e => (e.op, e.payload)) := by
  induction table with
  | nil => exact holdsCommands_nil s.cfg
  | cons e es ih => exact ((holdsCommands_command hm e.op e.payload).append (holdsCommands_delay s.cfg e.delayMs)).append ih

/-! ### The parts of an INIT that goes through (R116) -/

/-- Step 2, in a state that holds the handles. -/
def pulseEntries (s : State) : List Entry :=
  [setEntry s .rst 1, ⟨.delay 10, .none⟩, setEntry s .rst 0, ⟨.delay 20, .none⟩, setEntry s .rst 1, ⟨.delay 120, .none⟩]

/-- Step 11, in a state that holds the handles. -/
def clearEntries (s : State) : List Entry :=
  rectEntries s 0 0 s.cfg.panelW.toNat s.cfg.panelH.toNat (clearPixels s.cfg)

/-- Steps 3 to 11, in a state that holds the handles. -/
def afterPulseEntries (s : State) : List Entry :=
  commandEntries s 0x01 [] ++ delayEntries s.cfg.tSwresetMs ++
  commandEntries s 0x11 [] ++ delayEntries s.cfg.tSlpoutMs ++
  commandEntries s 0x3A [s.cfg.colmodValue] ++
  s.cfg.panelInitTable.flatMap (fun e => commandEntries s e.op e.payload ++ delayEntries e.delayMs) ++
  commandEntries s (if s.cfg.invert then 0x21 else 0x20) [] ++
  commandEntries s 0x36 [madctlByte s.cfg s.cfg.rotation] ++
  commandEntries s 0x29 [] ++ delayEntries s.cfg.tDisponMs ++
  clearEntries s

theorem bringUpEntries_clear (s : State) : bringUpEntries s ++ clearEntries s = pulseEntries s ++ afterPulseEntries s := by
  simp only [bringUpEntries, beforeDispon, pulseEntries, afterPulseEntries, madctlByte, List.append_assoc]

theorem columnBytes_zero (c : Cfg) (w : Nat) :
    columnBytes c 0 w = be16 c.colOffset ++ be16 (BitVec.ofNat 16 (w - 1 + c.colOffset.toNat)) := by
  simp [columnBytes]

theorem rowBytes_zero (c : Cfg) (h : Nat) :
    rowBytes c 0 h = be16 c.rowOffset ++ be16 (BitVec.ofNat 16 (h - 1 + c.rowOffset.toNat)) := by
  simp [rowBytes]

/-- R117: the three commands of the clear. -/
def clearCommands (c : Cfg) : List (Byte × List Byte) :=
  [(0x2A, be16 c.colOffset ++ be16 (BitVec.ofNat 16 (c.panelW.toNat - 1 + c.colOffset.toNat))),
   (0x2B, be16 c.rowOffset ++ be16 (BitVec.ofNat 16 (c.panelH.toNat - 1 + c.rowOffset.toNat))),
   (0x2C, be16Stream (clearPixels c))]

theorem holdsCommands_clear {s : State} (hm : 1 ≤ s.cfg.maxXfer) :
    HoldsCommands s.cfg (clearEntries s) (clearCommands s.cfg) := by
  rw [clearCommands, ← columnBytes_zero, ← rowBytes_zero]
  exact ((holdsCommands_command hm _ _).append (holdsCommands_command hm _ _)).append (holdsCommands_command hm _ _)

/-- R117: the commands after the reset pulse. -/
theorem holdsCommands_afterPulse {s : State} (hm : 1 ≤ s.cfg.maxXfer) : HoldsCommands s.cfg (afterPulseEntries s)
    ([(0x01, []), (0x11, []), (0x3A, [s.cfg.colmodValue])] ++ s.cfg.panelInitTable.map (fun e => (e.op, e.payload)) ++
      [(if s.cfg.invert then 0x21 else 0x20, []), (0x36, [madctlByte s.cfg s.cfg.rotation]), (0x29, [])] ++
      clearCommands s.cfg) := by
  have command := holdsCommands_command hm
  have delay := holdsCommands_delay s.cfg
  have parts := ((((((((((command 0x01 []).append (delay s.cfg.tSwresetMs)).append (command 0x11 [])).append
    (delay s.cfg.tSlpoutMs)).append (command 0x3A [s.cfg.colmodValue])).append (holdsCommands_table hm s.cfg.panelInitTable)).append
    (command (if s.cfg.invert then 0x21 else 0x20) [])).append (command 0x36 [madctlByte s.cfg s.cfg.rotation])).append
    (command 0x29 [])).append (delay s.cfg.tDisponMs)).append
    (holdsCommands_clear hm)
  simpa only [afterPulseEntries, List.append_assoc, List.cons_append, List.nil_append, List.append_nil] using parts

/-- Whether an event opens a resource. -/
def isOpening : Event → Bool
  | .spiOpen _ _ _ _ => true
  | .gpioOpen _ _ _ _ => true
  | _ => false

theorem isOffWire_of_isOpening {e : Event} (h : isOpening e = true) : isOffWire e = true := by
  cases e with
  | spiOpen | gpioOpen => rfl
  | spiWrite | spiClose | gpioSet | gpioRelease | delay => cases h

/-- From `s` to `t` opens have been logged, and CFG is as it was. -/
def OnlyOpens (s t : State) : Prop :=
  t.cfg = s.cfg ∧ ∃ opens, t.events = s.events ++ opens ∧ ∀ e ∈ opens, isOpening e.ev = true

theorem OnlyOpens.snoc {s t u : State} (h : OnlyOpens s t) {e : Entry} (he : isOpening e.ev = true) (cfg : u.cfg = t.cfg)
    (events : u.events = t.events ++ [e]) : OnlyOpens s u := by
  obtain ⟨hc, opens, ho, hall⟩ := h
  refine ⟨cfg.trans hc, opens ++ [e], by rw [events, ho, List.append_assoc], ?_⟩
  exact List.forall_mem_append.mpr ⟨hall, List.forall_mem_singleton.mpr he⟩

/-- R116, step 1, whatever the environment answers. -/
theorem acquire_onlyOpens (s : State) : (acquire s).Ends (OnlyOpens s) fun _ => OnlyOpens s := by
  refine acquire_of_open (fun r t k => ?_) ⟨rfl, [], (List.append_nil _).symm, nofun⟩
  cases r with
  | spi =>
    simp only [openRes, openSpi]
    split <;> exact k.snoc rfl rfl rfl
  | gpio L =>
    simp only [openRes, openLine]
    split
    · exact k.snoc rfl (setHandle_cfg L _ _) (setHandle_events L _ _)
    · exact k.snoc rfl rfl rfl

/-- What a sequence that goes on has gone through. -/
theorem bind_eq_go {x : Ctl} {f : State → Ctl} {u : State} (h : x.bind f = .go u) : ∃ t, x = .go t ∧ f t = .go u := by
  cases x with
  | go t => exact ⟨t, rfl, h⟩
  | raise e t => cases h

theorem clearEntries_congr {s t : State} (cfg : t.cfg = s.cfg) (spi : t.hSpi = s.hSpi) (dc : t.hDc = s.hDc) :
    clearEntries t = clearEntries s := by
  simp only [clearEntries, rectEntries, commandEntries_congr cfg spi dc, cfg]

/-- Steps 10 and 11: what a clear that goes through has logged. -/
theorem clearScreen_events {s t : State} (hwf : s.cfg.wf = true) (h : clearScreen { s with drvState := .ready } = .go t) :
    t.events = s.events ++ clearEntries s := by
  have facts := wfFacts hwf
  obtain ⟨rfl, -, -⟩ := body_go _ _ _ _ _ _ _ _ (Nat.ne_of_gt facts.panelW) (Nat.ne_of_gt facts.panelH) h
  rw [foldl_afterPrim_events, entriesOf_rect]
  rfl

/-- R116: what an INIT that goes through has logged, whatever the answers were: opens, steps 2 to 9, and the clear. -/
theorem initBody_events {s t : State} (hwf : s.cfg.wf = true) (h : initBody s = .go t) :
    ∃ u, u.cfg = s.cfg ∧ ∃ opens, (∀ e ∈ opens, isOpening e.ev = true) ∧
      t.events = s.events ++ (opens ++ pulseEntries u) ++ afterPulseEntries u := by
  obtain ⟨v, before, clear⟩ := bind_eq_go h
  obtain ⟨u, acquired, brought⟩ := bind_eq_go before
  have hu := acquire_onlyOpens s
  rw [acquired] at hu
  obtain ⟨cfg, opens, events, opening⟩ := hu
  rw [bringUp_prims] at brought
  obtain rfl := runPrims_go _ brought
  have steady := foldl_afterPrim_steady (bringUpPrims u.cfg) u
  have cleared := clearScreen_events (by rw [steady.cfg, cfg]; exact hwf) clear
  rw [clearEntries_congr (s := u) steady.cfg steady.hSpi steady.hDc] at cleared
  refine ⟨u, cfg, opens, opening, ?_⟩
  calc t.events
    _ = (s.events ++ opens) ++ bringUpEntries u ++ clearEntries u := by
      rw [cleared, foldl_afterPrim_events, bringUp_entries, events]
    _ = s.events ++ (opens ++ pulseEntries u) ++ afterPulseEntries u := by
      simp only [List.append_assoc, bringUpEntries_clear]

/-- R117: what an INIT that ends well has logged. -/
theorem exec_init_events {s t : State} (hwf : s.cfg.wf = true) (ht : exec .init s = .next t)
    (hok : t.results = s.results ++ [.ok .unit]) : ∃ u, u.cfg = s.cfg ∧ ∃ opens, (∀ e ∈ opens, isOpening e.ev = true) ∧
      t.events = s.events ++ (opens ++ pulseEntries u) ++ afterPulseEntries u := by
  have notErr : ∀ (b : Bool) (e : OpError) (v : State), v.results = s.results → takeError b e v ≠ t := by
    rintro b e v hv rfl
    rw [takeError_results, hv] at hok
    cases List.append_cancel_left hok
  rw [exec_init, execInit] at ht
  split at ht
  · have results := changes_init s
    cases h : initBody s with
    | go v =>
      rw [h] at ht
      obtain rfl := Host.Outcome.next.inj ht
      exact initBody_events (t := v) hwf h
    | raise e v =>
      rw [h] at ht results
      exact absurd (Host.Outcome.next.inj ht) (notErr _ _ _ (results_of_changed results))
  · exact absurd (Host.Outcome.next.inj ht) (notErr _ _ _ rfl)

/-! ### The trace before and after the first command (R117) -/

theorem traceFrom_opens (c : Cfg) {opens : List Entry} (h : ∀ e ∈ opens, isOpening e.ev = true) (level : Option Bit)
    (rest : List Entry) :
    (traceFrom c level (opens ++ rest)).filter isLineOrDelay = (traceFrom c level rest).filter isLineOrDelay := by
  induction opens with
  | nil => rfl
  | cons e es ih =>
    obtain ⟨he, hes⟩ := List.forall_mem_cons.mp h
    obtain ⟨ev, reply⟩ := e
    cases ev with
    | spiOpen | gpioOpen => exact ih hes
    | spiWrite | spiClose | gpioSet | gpioRelease | delay => cases he

theorem traceFrom_pulse (c : Cfg) (level : Option Bit) (s : State) :
    traceFrom c level (pulseEntries s) = [.gpio .rst 1, .delay 10, .gpio .rst 0, .delay 20, .gpio .rst 1, .delay 120] := rfl

/-- R58, R70: a command begins with the DC line at the command level and its opcode. -/
theorem traceFrom_command (s : State) (level : Option Bit) (op : Byte) (payload : List Byte) (rest : List Entry) :
    ∃ items, traceFrom s.cfg level (commandEntries s op payload ++ rest) =
      .gpio .dc s.cfg.dcCmdLevel :: .cmd op :: items := by
  have data : some s.cfg.dcCmdLevel ≠ some (dcDataLevel s.cfg) := fun h => dcDataLevel_ne s.cfg (Option.some.inj h).symm
  refine ⟨traceFrom s.cfg (some s.cfg.dcCmdLevel) (dataEntries s payload ++ rest), ?_⟩
  have opcode : traceItem s.cfg (some s.cfg.dcCmdLevel) (.spiWrite s.hSpi [op]) = .cmd op := by
    rw [traceItem, if_neg data, if_pos rfl]
  rw [← opcode]
  rfl

theorem isOffWire_pulse (s : State) : ∀ e ∈ pulseEntries s, isOffWire e.ev = true := by
  simp [pulseEntries, setEntry, isOffWire]

/-- Settles O30: the opens and the reset pulse are off the wire, and every part after them holds its commands. -/
theorem initWireLaw : Obligations.InitWireLaw := by
  intro s t hwf ht hok
  obtain ⟨u, cfg, opens, opening, events⟩ := exec_init_events hwf ht hok
  have offWire : ∀ e ∈ opens ++ pulseEntries u, isOffWire e.ev = true :=
    List.forall_mem_append.mpr ⟨fun e he => isOffWire_of_isOpening (opening e he), isOffWire_pulse u⟩
  have starts : ∃ rest, afterPulseEntries u = commandEntries u 0x01 [] ++ rest := by
    simp only [afterPulseEntries, List.append_assoc]
    exact ⟨_, rfl⟩
  obtain ⟨rest, starts⟩ := starts
  obtain ⟨items, trace⟩ := traceFrom_command u s.dcLevel 0x01 [] rest
  rw [← starts] at trace
  have facts := wfFacts hwf
  have held := (holdsCommands_offWire u.cfg offWire).append (holdsCommands_afterPulse (s := u) (cfg.symm ▸ facts.xfer))
  rw [cfg] at trace held
  refine ⟨opens ++ pulseEntries u, afterPulseEntries u, events, fun e he h bytes hev => ?_, ?_, ?_, ?_, ?_⟩
  · have off := offWire e he
    rw [hev] at off
    cases off
  · rw [traceFrom_opens s.cfg opening, traceFrom_pulse]
    rfl
  · rw [trace]
    rfl
  · rw [trace]
    rfl
  · rw [held.read]
    simp only [clearCommands, madctlByte, List.append_assoc, List.cons_append, List.nil_append]

end Sys2Proof.Proofs
end

section
/-! PROOFS. An INIT that stops at the first failing event of steps 2 to 11 (spec/43_sequencer.md R116, 60_exceptions.md R130, R131):
where a list of primitives stops that has line settings, waits and notes of the rotation in it. -/

namespace Sys2Proof.Proofs

open Sys2Proof.Machine Sys2Proof.Safety Sys2Proof.Claims

/-! ### The primitive behind an entry -/

theorem entriesOf_cons (s : State) (p : Prim) (ps : List Prim) : entriesOf s (p :: ps) = entriesOf s [p] ++ entriesOf s ps :=
  entriesOf_append s [p] ps

/-- A primitive logs one entry, or it is the note of a rotation and logs none. -/
theorem entriesOf_single (s : State) (p : Prim) : (∃ e, entriesOf s [p] = [e]) ∨ ∃ r, p = .rotate r := by
  cases p with
  | set L l => exact .inl ⟨_, rfl⟩
  | write bytes => exact .inl ⟨_, rfl⟩
  | wait ms => exact .inl ⟨_, rfl⟩
  | rotate r => exact .inr ⟨r, rfl⟩

/-- The primitive that logs entry `j`, and those before it. -/
theorem split_at_entry (s : State) (ps : List Prim) {j : Nat} {e : Entry} (h : (entriesOf s ps)[j]? = some e) :
    ∃ front p back, ps = front ++ p :: back ∧ entriesOf s [p] = [e] ∧ entriesOf s front = (entriesOf s ps).take j := by
  induction ps generalizing j with
  | nil => cases h
  | cons q qs ih =>
    rw [entriesOf_cons] at h ⊢
    obtain ⟨d, hq⟩ | ⟨r, rfl⟩ := entriesOf_single s q
    · rw [hq] at h ⊢
      cases j with
      | zero => exact ⟨[], q, qs, rfl, by rw [hq, Option.some.inj h], rfl⟩
      | succ j =>
        obtain ⟨front, p, back, rfl, hp, hfront⟩ := ih h
        exact ⟨q :: front, p, back, rfl, hp, by rw [entriesOf_cons, hq, hfront]; rfl⟩
    · obtain ⟨front, p, back, rfl, hp, hfront⟩ := ih h
      exact ⟨.rotate r :: front, p, back, rfl, hp, hfront⟩

/-- R138: as many answers are drawn as there are entries that draw one. -/
theorem drawsOf_eq_countP (s : State) (ps : List Prim) : drawsOf ps = (entriesOf s ps).countP drawsAnswer := by
  induction ps with
  | nil => rfl
  | cons p ps ih =>
    rw [drawsOf_cons, entriesOf_cons, List.countP_append, ih]
    cases p <;> rfl

/-- The RST level along the entries is the one along the primitives. -/
theorem entries_rst (s : State) (ps : List Prim) (level : Option Bit) :
    (entriesOf s ps).foldl rstAfterEntry level = ps.foldl (levelStep .rst) level := by
  induction ps generalizing level with
  | nil => rfl
  | cons p ps ih =>
    rw [entriesOf_cons, List.foldl_append, List.foldl_cons, ih]
    cases p with
    | set L l => cases L <;> rfl
    | write | wait | rotate => rfl

/-! ### The primitive that fails (R90, R91) -/

/-- R130: a primitive whose entry the environment makes fail. -/
theorem runPrim_stops {p : Prim} {s : State} {e : Entry} {r : Reply} {err : OpError} (he : entriesOf s [p] = [e])
    (hx : failsWith e (nextAnswer s) = some (r, err)) : runPrim p s = .raise err (failPrim s p r) := by
  cases p with
  | write bytes => exact runPrim_fail _ s rfl e r err he hx
  | set L l =>
    obtain rfl : setEntry s L l = e := List.singleton_inj.mp he
    have bad : ∀ v, nextAnswer s ≠ .good v := fun v hv => by rw [hv] at hx; cases hx
    obtain ⟨rfl, rfl⟩ : r = .err ∧ err = .transportLine L := by
      cases ha : nextAnswer s with
      | good v => exact absurd ha (bad v)
      | short | bad => rw [ha] at hx; cases hx; exact ⟨rfl, rfl⟩
    exact setLine_bad L l bad
  | wait ms =>
    obtain rfl := List.singleton_inj.mp he
    cases hx
  | rotate q => cases he

/-- The whole state after a primitive that failed, where it is not of the backlight line. -/
theorem failPrim_state {p : Prim} {s : State} {e : Entry} {a : Answer} {r : Reply} {err : OpError}
    (he : entriesOf s [p] = [e]) (hx : failsWith e a = some (r, err)) (hbl : Part.bl ∉ primParts p) : failPrim s p r = { s with
      dcLevel := dcAfterEntry s.dcLevel ⟨e.ev, r⟩
      rstLevel := rstAfterEntry s.rstLevel ⟨e.ev, r⟩
      events := s.events ++ [⟨e.ev, r⟩]
      answers := s.answers.tail
      free := s.free + 1 } := by
  cases p with
  | write bytes =>
    obtain rfl : writeEntry s bytes = e := List.singleton_inj.mp he
    rfl
  | set L l =>
    obtain rfl : setEntry s L l = e := List.singleton_inj.mp he
    obtain rfl : r = .err := by
      cases a with
      | good v => cases hx
      | short n | bad => cases hx; rfl
    cases L with
    | dc | rst => rfl
    | bl => exact absurd (List.mem_singleton_self _) hbl
  | wait ms =>
    obtain rfl := List.singleton_inj.mp he
    cases hx
  | rotate q => cases he

/-- R131: a list that is answered well up to a primitive that fails stops there. -/
theorem runPrims_stop {front back : List Prim} {p : Prim} {s : State} {e : Entry} {a : Answer} {r : Reply} {err : OpError}
    (he : entriesOf s [p] = [e]) (hg : AnswersGood (drawsOf front) s) (ha : s.answers[drawsOf front]? = some a)
    (hx : failsWith e a = some (r, err)) :
    runPrims (front ++ p :: back) s = .raise err (failPrim (front.foldl afterPrim s) p r) := by
  have steady := foldl_afterPrim_steady front s
  have next : nextAnswer (front.foldl afterPrim s) = a := by
    apply nextAnswer_of_get
    rw [foldl_afterPrim_answers, List.getElem?_drop]
    exact ha
  rw [runPrims_append, runPrims_good front hg, Ctl.bind_go, runPrims_cons,
    runPrim_stops ((entriesOf_congr steady [p]).trans he) (next ▸ hx), Ctl.bind_raise]

/-- What a part's primitives do to a value along a list in which none writes that part. -/
theorem foldl_of_unwritten {α : Type} {k : Part} {step : α → Prim → α} (hstep : ∀ p, k ∉ primParts p → ∀ a, step a p = a)
    {ps : List Prim} (h : ∀ p ∈ ps, k ∉ primParts p) (a : α) : ps.foldl step a = a := by
  induction ps with
  | nil => rfl
  | cons p ps ih =>
    obtain ⟨hp, hps⟩ := List.forall_mem_cons.mp h
    rw [List.foldl_cons, hstep p hp, ih hps]

theorem levelStep_unwritten (L : Line) (p : Prim) (h : levelPart L ∉ primParts p) (level : Option Bit) :
    levelStep L level p = level := by
  cases p with
  | set L' l =>
    have other : L' ≠ L := fun k => h (by rw [k]; exact List.mem_singleton_self _)
    exact if_neg other
  | write | wait | rotate => rfl

theorem rotationStep_unwritten (p : Prim) (h : Part.rotation ∉ primParts p) (old : Option (BitVec 2)) :
    rotationStep old p = old := by
  cases p with
  | rotate r => exact absurd (List.mem_singleton_self _) h
  | set | write | wait => rfl

/-- The state in which a list of primitives stops, where none is of the backlight line. -/
theorem stopped_state {front : List Prim} {p : Prim} {s : State} {e : Entry} {a : Answer} {r : Reply} {err : OpError}
    (hbl : ∀ q ∈ front ++ [p], Part.bl ∉ primParts q) (he : entriesOf s [p] = [e]) (hx : failsWith e a = some (r, err)) :
    failPrim (front.foldl afterPrim s) p r = { s with
      curRotation := front.foldl rotationStep s.curRotation
      dcLevel := (entriesOf s front ++ [(⟨e.ev, r⟩ : Entry)]).foldl dcAfterEntry s.dcLevel
      rstLevel := (entriesOf s front ++ [(⟨e.ev, r⟩ : Entry)]).foldl rstAfterEntry s.rstLevel
      panel := (front.foldl afterPrim s).panel
      events := s.events ++ (entriesOf s front ++ [⟨e.ev, r⟩])
      answers := s.answers.drop (drawsOf front + 1)
      free := s.free + (entriesOf s front).length + 1 } := by
  obtain ⟨hfront, hp⟩ := List.forall_mem_append.mp hbl
  have bl := foldl_of_unwritten (levelStep_unwritten .bl) hfront
  have entry := (entriesOf_congr (foldl_afterPrim_steady front s) [p]).trans he
  rw [failPrim_state entry hx (hp p (List.mem_singleton_self p)), foldl_afterPrim_eq, bl, List.foldl_append, List.foldl_append,
    entries_dc, entries_rst, List.tail_drop, List.append_assoc]
  rfl

/-! ### The rotation on record (R20) -/

/-- R20: in a list with one note of the rotation, the primitives before one that logs an entry have noted `r`, or have left the
record as it was, as that entry comes after the note or before it. -/
theorem rotation_before_entry {as bs front back : List Prim} {p : Prim} {r : BitVec 2} {s : State} {e : Entry}
    (ha : ∀ q ∈ as, Part.rotation ∉ primParts q) (hb : ∀ q ∈ bs, Part.rotation ∉ primParts q)
    (hsplit : as ++ .rotate r :: bs = front ++ p :: back) (he : entriesOf s [p] = [e]) (old : Option (BitVec 2)) :
    front.foldl rotationStep old =
      if (entriesOf s as).length ≤ (entriesOf s front).length then some r else old := by
  obtain ⟨mid, rfl, hmid⟩ | ⟨mid, rfl, hmid⟩ := List.append_eq_append_iff.mp hsplit
  · cases mid with
    | nil =>
      obtain ⟨rfl, -⟩ := List.cons_eq_cons.mp hmid
      cases he
    | cons q mid =>
      obtain ⟨rfl, rfl⟩ := List.cons_eq_cons.mp hmid
      have after : ∀ q ∈ mid, Part.rotation ∉ primParts q := fun q hq => hb q (List.mem_append_left _ hq)
      rw [if_pos (by simp), List.foldl_append, List.foldl_cons, foldl_of_unwritten rotationStep_unwritten after]
      rfl
  · obtain ⟨before, -⟩ := List.forall_mem_append.mp ha
    cases mid with
    | nil =>
      obtain ⟨rfl, -⟩ := List.cons_eq_cons.mp hmid
      cases he
    | cons q mid =>
      obtain ⟨rfl, -⟩ := List.cons_eq_cons.mp hmid
      have longer : (entriesOf s front).length < (entriesOf s (front ++ p :: mid)).length := by
        rw [entriesOf_append, entriesOf_cons, he]
        simp
      rw [if_neg (Nat.not_le.mpr longer), foldl_of_unwritten rotationStep_unwritten before]

/-! ### Steps 2 to 11 as one list (R116) -/

/-- Steps 2 to 11. -/
def initPrims (c : Cfg) : List Prim :=
  bringUpPrims c ++ rectPrims c 0 0 c.panelW.toNat c.panelH.toNat (clearPixels c)

theorem initPrims_entries (s : State) : entriesOf s (initPrims s.cfg) =
    bringUpEntries s ++ rectEntries s 0 0 s.cfg.panelW.toNat s.cfg.panelH.toNat (clearPixels s.cfg) := by
  rw [initPrims, entriesOf_append, bringUp_entries, entriesOf_rect]

/-- Steps 2 to 8, up to MADCTL's payload. -/
def throughMadctlPrims (c : Cfg) : List Prim := beforeMadctlPrims c ++ commandPrims c 0x36 [madctlByte c c.rotation]

/-- Steps 9 to 11, from DISPON on. -/
def fromDisponPrims (c : Cfg) : List Prim :=
  commandPrims c 0x29 [] ++ waitPrims c.tDisponMs ++ rectPrims c 0 0 c.panelW.toNat c.panelH.toNat (clearPixels c)

theorem initPrims_eq (c : Cfg) : initPrims c = throughMadctlPrims c ++ .rotate c.rotation :: fromDisponPrims c := by
  simp only [initPrims, bringUpPrims_eq, throughMadctlPrims, fromDisponPrims, List.append_assoc, List.cons_append, List.nil_append]

theorem throughMadctl_entries (s : State) : entriesOf s (throughMadctlPrims s.cfg) = beforeDispon s := by
  simp only [throughMadctlPrims, beforeMadctlPrims, beforeDispon, entriesOf_append, entriesOf_command, entriesOf_waitPrims,
    entriesOf_table, List.append_assoc]
  rfl

theorem unwritten_of_within {ks : List Part} {ps : List Prim} {k : Part} (h : PrimsWithin ks ps) (hk : k ∉ ks) :
    ∀ p ∈ ps, k ∉ primParts p := fun p hp hm => hk (h p hp hm)

theorem throughMadctl_within (c : Cfg) : PrimsWithin [.rst, .dc] (throughMadctlPrims c) :=
  (beforeMadctl_within c).append ((command_within c _ _).mono (by simp))

theorem fromDispon_within (c : Cfg) : PrimsWithin [.dc] (fromDisponPrims c) :=
  (commandWait_within c _ _ _).append (rect_within c _ _ _ _ _)

theorem initPrims_within (c : Cfg) : PrimsWithin [.rst, .dc, .rotation] (initPrims c) :=
  (bringUp_within c).append ((rect_within c _ _ _ _ _).mono (by simp))

/-- The sequence with `DRV_STATE` as given at its end. -/
def ctlWithDrvState (d : DrvState) : Ctl → Ctl
  | .go s => .go { s with drvState := d }
  | .raise e s => .raise e { s with drvState := d }

/-- The framing neither reads nor writes `DRV_STATE`. -/
theorem runPrims_withDrvState (d : DrvState) (ps : List Prim) (s : State) :
    runPrims ps { s with drvState := d } = ctlWithDrvState d (runPrims ps s) := by
  induction ps generalizing s with
  | nil => rfl
  | cons p ps ih =>
    have step : runPrim p { s with drvState := d } = ctlWithDrvState d (runPrim p s) := by
      have answer : nextAnswer { s with drvState := d } = nextAnswer s := rfl
      cases p with
      | set L l =>
        simp only [runPrim, setLine, answer]
        split <;> cases L <;> rfl
      | write bytes =>
        simp only [runPrim, tx, answer]
        split
        · split <;> rfl
        · rfl
      | wait | rotate => rfl
    rw [runPrims_cons, runPrims_cons, step]
    cases runPrim p s with
    | go t => exact ih t
    | raise e t => rfl

/-- Steps 10 and 11, where the clear fits. -/
theorem clearScreen_prims {s : State} (hwf : s.cfg.wf = true) (hf : fits s.cfg 0 0 s.cfg.panelW.toNat s.cfg.panelH.toNat) :
    clearScreen { s with drvState := .ready } = ctlWithDrvState .ready
      (runPrims (rectPrims s.cfg 0 0 s.cfg.panelW.toNat s.cfg.panelH.toNat (clearPixels s.cfg)) s) := by
  have facts := wfFacts hwf
  have nonempty : ¬ (s.cfg.panelW.toNat = 0 ∨ s.cfg.panelH.toNat = 0) :=
    not_or.mpr ⟨Nat.ne_of_gt facts.panelW, Nat.ne_of_gt facts.panelH⟩
  rw [← runPrims_withDrvState, clearScreen, pushRectBody_prims, if_neg (by simp), if_neg nonempty,
    if_pos ((windowFits_iff _ _ _ _ _).mpr hf)]
  rfl

/-- R116, R130: INIT whose opens succeed and whose steps 2 to 11 stop. INIT takes every error past its state check with FAILED, so
it does not matter whether step 10 has been passed. -/
theorem exec_init_stopped {s t v : State} {e : OpError} (hu : s.drvState = .uninit) (hwf : s.cfg.wf = true)
    (hf : fits s.cfg 0 0 s.cfg.panelW.toNat s.cfg.panelH.toNat) (acquired : acquire s = .go t) (cfg : t.cfg = s.cfg)
    (stop : runPrims (initPrims s.cfg) t = .raise e v) : exec .init s = .next (takeError true e v) := by
  rw [exec_init_body hu, initBody, acquired, Ctl.bind_go, bringUp_prims, cfg]
  rw [initPrims, runPrims_append] at stop
  have steady := runPrims_steady (bringUpPrims s.cfg) t
  cases hb : runPrims (bringUpPrims s.cfg) t with
  | raise e' v' =>
    rw [hb] at stop
    obtain ⟨rfl, rfl⟩ := Ctl.raise.inj stop
    rfl
  | go w =>
    rw [hb] at stop steady
    have same : w.cfg = s.cfg := (Steady.cfg steady).trans cfg
    rw [Ctl.bind_go] at stop ⊢
    rw [clearScreen_prims (same.symm ▸ hwf) (same.symm ▸ hf), same, stop]
    rfl

/-- Settles O32: the opens leave `opened`, and from there steps 2 to 11 stop at the primitive of entry `j`. -/
theorem initStopsAtFirstFailure : Obligations.InitStopsAtFirstFailure := by
  rintro s u new n d j a e r err hwf hu hf hn rfl rfl rfl he hg ha hx
  have opens : acquire s = .go (opened s n) := by
    rw [hn]
    exact acquire_good s (answersGood_weaken hg (hn ▸ Nat.le_add_right _ _))
  have entries : entriesOf (opened s n) (initPrims s.cfg) = bringUpEntries (withHandles s n) ++
      rectEntries (withHandles s n) 0 0 s.cfg.panelW.toNat s.cfg.panelH.toNat (clearPixels s.cfg) :=
    initPrims_entries (opened s n)
  rw [← entries] at he hg ha ⊢
  obtain ⟨front, p, back, hsplit, hp, hfront⟩ := split_at_entry _ _ he
  rw [← hfront, ← drawsOf_eq_countP] at hg ha ⊢
  have length : (entriesOf (opened s n) front).length = j := by
    rw [hfront, List.length_take_of_le (List.getElem?_eq_some_iff.mp he).1.le]
  have stop : runPrims (initPrims s.cfg) (opened s n) = .raise err (failPrim (front.foldl afterPrim (opened s n)) p r) :=
    hsplit ▸ runPrims_stop hp (answersGood_after hg rfl) (List.getElem?_drop.trans ha) hx
  have transport := runPrims_steady (initPrims s.cfg) (opened s n)
  rw [stop] at transport
  have madctlEnds : (entriesOf (opened s n) (throughMadctlPrims s.cfg)).length = (beforeDispon (withHandles s n)).length :=
    congrArg List.length (throughMadctl_entries (opened s n))
  have rotation := rotation_before_entry (unwritten_of_within (throughMadctl_within s.cfg) (by decide))
    (unwritten_of_within (fromDispon_within s.cfg) (by decide)) ((initPrims_eq s.cfg).symm.trans hsplit) hp s.curRotation
  rw [madctlEnds, length] at rotation
  have noBacklight : ∀ q ∈ front ++ [p], Part.bl ∉ primParts q := fun q hq =>
    unwritten_of_within (initPrims_within s.cfg) (by decide) q (by
      rw [hsplit, List.append_cons]
      exact List.mem_append_left back hq)
  rw [exec_init_stopped hu hwf hf opens rfl stop, takeError_of_isTransport transport.2, stopped_state noBacklight hp hx, length,
    ← rotation]
  simp only [opened, List.drop_drop]
  rfl

end Sys2Proof.Proofs
end

section
/-! PROOFS. The state check of every host operation (spec/60_exceptions.md R127): where it turns an operation away, that an
operation past it never ends in InvalidState, and that outside READY nothing reaches the outside (R152). -/

namespace Sys2Proof.Proofs

open Sys2Proof.Machine Sys2Proof.Claims

/-! ### Turned away -/

/-- R127: an operation in a driver state that its row of the table does not accept. -/
theorem exec_turned_away (i : Instr) {code : BitVec 4} {s : State} (hi : hostCode i = some code)
    (ha : accepts i s.drvState = false) : exec i s = .next (ended (.err (.invalidState s.drvState (.host code))) 3 s) := by
  cases i with
  | init | pushRect | pushRectSolid | setRotation | setBacklight =>
    obtain rfl := Option.some.inj hi
    exact if_neg (ne_of_beq_false ha)
  | swreset | slpout | colmod | caset | raset | madctl | ramwr | invon | invoff | dispon | panelCmd => cases hi
  | _ => cases ha

/-- R85, R107: outside READY the loop stops at the first dirty tile, before anything is sent. -/
theorem flushTiles_turned_away {ns : List Nat} {s : State} (hr : s.drvState ≠ .ready) (hd : ∃ n ∈ ns, flagAt s.dirty n = true) :
    flushTiles ns s = .raise (.invalidState s.drvState (.host 0x8)) s := by
  induction ns with
  | nil => simp at hd
  | cons n ns ih =>
    rw [flushTiles, flushTile]
    by_cases hn : flagAt s.dirty n = true
    · simp only [if_pos hn, pushRectBody, if_pos hr, Ctl.bind_raise]
    · rw [if_neg hn, Ctl.bind_go]
      exact ih (by simpa [hn] using hd)

/-- R127: FLUSH outside READY, with a dirty tile. -/
theorem exec_flush_turned_away {s : State} (hr : s.drvState ≠ .ready) (hd : dirtyTiles s ≠ []) :
    exec .flush s = .next (ended (.err (.invalidState s.drvState (.host 0x8))) 3
      { s with lastFlushTiles := 0, lastFlushBytes := 0 }) := by
  obtain ⟨n, hn⟩ := List.exists_mem_of_ne_nil _ hd
  have loop := flushTiles_turned_away (s := flushStart s) hr ⟨n, List.mem_filter.mp hn⟩
  rw [exec_flush, execFlush]
  exact congrArg (finish false _) loop

/-! ### Past the state check -/

/-- An InvalidState error. -/
def isInvalidState : OpError → Bool
  | .invalidState _ _ => true
  | _ => false

/-- A sequence that raises no InvalidState. -/
def PassesCheck (x : Ctl) : Prop := x.Ends (fun _ => True) fun e _ => isInvalidState e = false

theorem PassesCheck.bind {x : Ctl} {f : State → Ctl} (h : PassesCheck x) (hf : ∀ s, PassesCheck (f s)) : PassesCheck (x.bind f) :=
  Ctl.Ends.bind h (fun s _ => hf s) (fun _ _ k => k)

theorem isInvalidState_of_isTransport {e : OpError} (h : isTransport e = true) : isInvalidState e = false := by
  cases e with
  | invalidState d tag => cases h
  | _ => rfl

/-- A framing sequence raises errors of the transport only. -/
theorem passesCheck_of_transport {s : State} {x : Ctl} (h : x.Ends (Steady s) fun e t => Steady s t ∧ isTransport e = true) :
    PassesCheck x :=
  h.mono (fun _ _ => trivial) fun _ _ k => isInvalidState_of_isTransport k.2

/-- R107: a rectangle in READY. -/
theorem pushRectBody_passesCheck (tag : OpTag) (x y w h : Nat) (src : List Word) {s : State} (hr : s.drvState = .ready) :
    PassesCheck (pushRectBody tag x y w h src s) := by
  rw [pushRectBody_prims, if_neg (not_not.mpr hr)]
  split
  · trivial
  · split
    · exact passesCheck_of_transport (runPrims_steady _ s)
    · exact rfl

/-- R116: INIT in UNINIT; its clear starts from READY. -/
theorem initBody_passesCheck (s : State) : PassesCheck (initBody s) := by
  have opens : ∀ (r : Resource) (u : State), PassesCheck (openRes r u) := by
    intro r u
    cases r <;> simp only [openRes, openSpi, openLine] <;> split <;> trivial
  have acquired : PassesCheck (acquire s) := acquire_of_open (fun r u _ => opens r u) trivial
  unfold initBody
  refine (acquired.bind fun t => ?_).bind fun t => pushRectBody_passesCheck _ _ _ _ _ _ rfl
  rw [bringUp_prims]
  exact passesCheck_of_transport (runPrims_steady _ t)

/-- R85: FLUSH's loop in READY, which each rectangle leaves as it is. -/
theorem flushTiles_passesCheck (ns : List Nat) {s : State} (hr : s.drvState = .ready) : PassesCheck (flushTiles ns s) := by
  refine (flushTiles_of_body (G := fun u => u.drvState = .ready) (B := fun e _ => isInvalidState e = false) ?_ (fun _ _ _ k => k)
    ns s hr).mono (fun _ _ => trivial) (fun _ _ k => k)
  intro u r hu
  have steady := pushRectBody_steady (.host 0x8) r.x r.y r.w r.h (extractRect r u) u
  exact (Ends.and steady (pushRectBody_passesCheck _ _ _ _ _ _ hu)).mono (fun _ k => k.1.drvState.trans hu) (fun _ _ k => k.2)

/-- The operation that took `s` to `t` did not end in InvalidState. -/
def NotTurnedAway (s t : State) : Prop := ∀ d tag, t.results ≠ s.results ++ [.err (.invalidState d tag)]

/-- An operation whose body raises no InvalidState. -/
theorem finish_notTurnedAway {s t : State} {b : Bool} {v : State → Value} {x : Ctl} (hc : OnlyChanges s x) (hx : PassesCheck x)
    (ht : finish b v x = .next t) : NotTurnedAway s t := by
  intro d tag h
  cases x with
  | go u =>
    obtain rfl := Host.Outcome.next.inj ht
    rw [succeed_results, results_of_changed hc] at h
    cases List.append_cancel_left h
  | raise e u =>
    obtain rfl := Host.Outcome.next.inj ht
    rw [takeError_results, results_of_changed hc] at h
    cases List.append_cancel_left h
    cases hx

/-- An operation that READY alone accepts, in READY. -/
theorem whenReady_notTurnedAway {s t : State} {tag : OpTag} {body : State → Ctl} (hr : s.drvState = .ready)
    (hc : OnlyChanges s (body s)) (hx : PassesCheck (body s)) (ht : whenReady tag body s = .next t) : NotTurnedAway s t := by
  rw [whenReady, if_pos hr] at ht
  exact finish_notTurnedAway hc hx ht

/-- R125: an operation to which the table gives no InvalidState. -/
theorem notTurnedAway_of_mayRaise {i : Instr} {code : BitVec 4} {s t : State} (hi : hostCode i = some code)
    (ht : exec i s = .next t) (hm : ∀ d tag, mayRaise i (.err (.invalidState d tag)) = false) : NotTurnedAway s t := by
  intro d tag h
  obtain ⟨r, ends⟩ := exec_endsWith i hi ht
  obtain rfl := List.singleton_inj.mp (List.append_cancel_left (ends.results.symm.trans h))
  exact Bool.false_ne_true ((hm d tag).symm.trans ends.kind)

/-- R127: an operation in a driver state that its row of the table accepts. -/
theorem exec_notTurnedAway (i : Instr) {code : BitVec 4} {s t : State} (hi : hostCode i = some code)
    (ha : accepts i s.drvState = true) (hf : i = .flush → s.drvState = .ready ∨ dirtyTiles s = []) (ht : exec i s = .next t) :
    NotTurnedAway s t := by
  cases i with
  | init =>
    rw [exec_init, execInit, if_pos (eq_of_beq ha)] at ht
    exact finish_notTurnedAway (changes_init s) (initBody_passesCheck s) ht
  | pushRect x y w h pixels =>
    rw [exec_pushRect, execPushRect] at ht
    refine whenReady_notTurnedAway (eq_of_beq ha) ?_ ?_ ht
    · split
      · exact changes_body _ _ _ _ _ _ s
      · exact .refl
    · split
      · exact pushRectBody_passesCheck _ _ _ _ _ _ (eq_of_beq ha)
      · exact rfl
  | pushRectSolid x y w h color =>
    exact whenReady_notTurnedAway (eq_of_beq ha) (changes_body _ _ _ _ _ _ s)
      (pushRectBody_passesCheck _ _ _ _ _ _ (eq_of_beq ha)) ht
  | setRotation r =>
    rw [exec_setRotation_prims r (eq_of_beq ha)] at ht
    exact finish_notTurnedAway (changes_prims _ s) (passesCheck_of_transport (runPrims_steady _ s)) ht
  | setBacklight on =>
    rw [exec_setBacklight, execSetBacklight] at ht
    refine whenReady_notTurnedAway (eq_of_beq ha) ?_ ?_ ht
    · split
      · exact changes_setLine _ _ s
      · exact .refl
    · split
      · exact passesCheck_of_transport (setLine_steady _ _ s)
      · trivial
  | flush =>
    have counted : Changed s (flushStart s) := Relation.ReflTransGen.single .counted
    rcases hf rfl with hr | hclean
    · exact finish_notTurnedAway ((changes_flushTiles _ _).mono (fun _ k => counted.trans k) (fun _ _ k => counted.trans k))
        (flushTiles_passesCheck _ hr) ht
    · rw [flushOfCleanGridIsSilent s hclean] at ht
      obtain rfl := Host.Outcome.next.inj ht
      intro d tag h
      cases List.append_cancel_left h
  | swreset | slpout | colmod | caset | raset | madctl | ramwr | invon | invoff | dispon | panelCmd => cases hi
  | _ => exact notTurnedAway_of_mayRaise hi ht fun _ _ => rfl

/-! ### The table -/

/-- Settles O38: each row by its clause, FLUSH's by its loop. -/
theorem stateCheckTable : Obligations.StateCheckTable := by
  intro i code s hi
  refine ⟨exec_turned_away i hi, ?_, fun ha hf t d tag ht => exec_notTurnedAway i hi ha hf ht d tag, ?_, ?_⟩
  · rintro rfl hr hd
    obtain rfl := Option.some.inj hi
    exact exec_flush_turned_away hr hd
  · obtain ⟨codeE, codeF, execE, execF⟩ := reservedCodesAreIllegal s
    rintro (rfl | rfl)
    · obtain rfl := Option.some.inj (codeE.symm.trans hi)
      exact execE
    · obtain rfl := Option.some.inj (codeF.symm.trans hi)
      exact execF
  · rintro rfl hd
    exact if_pos hd

/-! ### Outside READY (R127, R152) -/

/-- `t` is `s` but for the dirty flags, the counters of FLUSH, LAST_ERROR and the results. -/
def Silent (s t : State) : Prop :=
  t = { s with
    dirty := t.dirty
    lastFlushTiles := t.lastFlushTiles
    lastFlushBytes := t.lastFlushBytes
    lastError := t.lastError
    results := t.results }

/-- R85: FLUSH outside READY sends nothing, whether a tile is dirty or none is. -/
theorem exec_flush_silent {s t : State} (hr : s.drvState ≠ .ready) (ht : exec .flush s = .next t) : Silent s t := by
  by_cases hd : dirtyTiles s = []
  · rw [flushOfCleanGridIsSilent s hd] at ht
    obtain rfl := Host.Outcome.next.inj ht
    rfl
  · rw [exec_flush_turned_away hr hd] at ht
    obtain rfl := Host.Outcome.next.inj ht
    rfl

/-- A host operation is turned away, works on the flags, the counters or nothing at all, or is one of the two exceptions. -/
theorem exec_host_silent (i : Instr) {code : BitVec 4} {s t : State} (hi : hostCode i = some code) (hr : s.drvState ≠ .ready)
    (hd : i ≠ .dispose) (hu : i = .init → s.drvState ≠ .uninit) (ht : exec i s = .next t) : Silent s t := by
  cases ha : accepts i s.drvState with
  | false =>
    rw [exec_turned_away i hi ha] at ht
    obtain rfl := Host.Outcome.next.inj ht
    rfl
  | true =>
    cases i with
    | init => exact absurd (eq_of_beq ha) (hu rfl)
    | pushRect | pushRectSolid | setRotation | setBacklight => exact absurd (eq_of_beq ha) hr
    | dispose => exact absurd rfl hd
    | flush => exact exec_flush_silent hr ht
    | swreset | slpout | colmod | caset | raset | madctl | ramwr | invon | invoff | dispon | panelCmd => cases hi
    | markDirtyRect | markAll | pack565 | pack565a | unpack565 | blend565 | modulate565 | reservedE | reservedF =>
      obtain rfl := Host.Outcome.next.inj ht
      rfl

/-- Settles O41: a wire command that no operation has come to is turned away, and a host operation is silent. -/
theorem silentOutsideReady : Obligations.SilentOutsideReady := by
  intro i s t hdue hr hd hu ht
  cases hi : hostCode i with
  | some code => exact exec_host_silent i hi hr hd hu ht
  | none =>
    obtain ⟨p, hp⟩ := wireCommand_of_hostCode_none hi s.cfg
    rw [exec_wire_not_due i hp (by rw [hdue]; nofun)] at ht
    obtain rfl := Host.Outcome.next.inj ht
    rfl

end Sys2Proof.Proofs
end

section
/-! PROOFS. Block reset and power-on (spec/70_reset_and_hazards.md R143 to R145): both give every element of R31's table
its reset value, block reset by `resetBlock`, power-on by `State.built`. -/

namespace Sys2Proof.Proofs

open Sys2Proof.Machine Sys2Proof.Safety Sys2Proof.Claims

/-! ### Block reset -/

/-- Block reset is power-on with the same configuration, but for what is not the block's. -/
theorem resetBlock_eq_built (s : State) :
    resetBlock s = { State.built s.cfg with
      fb := s.fb, panel := s.panel, events := s.events, results := s.results, inbox := s.inbox
      answers := s.answers, free := s.free } := rfl

/-- U15: block reset in READY or FAILED is refused. -/
theorem step_blockReset_forbidden {s : State} {rest : List Input} (hwf : s.cfg.wf = true)
    (hi : s.inbox = .blockReset :: rest) (hd : s.drvState = .ready ∨ s.drvState = .failed) :
    step s = .refused .blockResetForbidden := by
  have hr : resetAllowed s.drvState = false := by rcases hd with h | h <;> rw [h] <;> rfl
  simp [step, hwf, performNext, hi, performInput, platformReset, hr]

/-- R24: where no handle is held, no line's level is known. -/
theorem lineLevel_eq_none_of_unheld {s : State} (h : Inv s) (hd : s.drvState = .uninit ∨ s.drvState = .disposed)
    (L : Line) : lineLevel s L = none := by
  have unheld : lineHandle s L = none := held_eq_none h.handles hd (.gpio L)
  simpa [unheld] using h.levels L

/-- In UNINIT the invariant already gives the handles, the levels, the rotation and the due command their reset values,
so block reset changes the flags, the counters and LAST_ERROR only. -/
theorem resetBlock_of_uninit {s : State} (h : Inv s) (hu : s.drvState = .uninit) :
    resetBlock s = { s with
      dirty := List.replicate (tileCount s.cfg) false
      lastFlushTiles := 0
      lastFlushBytes := 0
      lastError := 0 } := by
  obtain ⟨spi, dc, rst, bl⟩ := h.handles.1 (.inl hu)
  have level := lineLevel_eq_none_of_unheld h (.inl hu)
  have dcLevel : s.dcLevel = none := level .dc
  have rstLevel : s.rstLevel = none := level .rst
  have blLevel : s.blLevel = none := level .bl
  have rotation : s.curRotation = none := h.rotation.1 hu
  have due : s.due = none := h.due
  simp only [resetBlock, hu, spi, dc, rst, bl, dcLevel, rstLevel, blLevel, rotation, due]

/-- Settles O48: where block reset is accepted it gives the state of power-on, which in UNINIT the invariant mostly has
already; in READY and FAILED it is refused. -/
theorem blockResetSetsResetValues : Obligations.BlockResetSetsResetValues := by
  refine fun s rest hwf hi => ⟨fun hd => ?_, step_blockReset_forbidden hwf hi, fun h hu => ?_⟩
  · rw [step_blockReset hwf hi hd, resetBlock_eq_built]
  · rw [step_blockReset hwf hi (.inl hu), resetBlock_of_uninit (inv_withInbox h rest) hu]

/-! ### Power-on -/

/-- R9: power-on with a well-formed configuration. -/
theorem powerOn_of_wf {c : Cfg} (h : c.wf = true) : powerOn c = .next (State.built c) := if_pos h

/-- U16: power-on with an ill-formed configuration is refused. -/
theorem powerOn_of_not_wf {c : Cfg} (h : c.wf = false) : powerOn c = .refused .illFormedConfig :=
  if_neg (by simp [h])

/-- A clean grid has no flag set, and past its end no flag at all. -/
theorem flagAt_replicate_false (k n : Nat) : flagAt (List.replicate k false) n = false := by
  rw [flagAt, List.getD_eq_getElem?_getD, List.getElem?_getD_replicate_default_eq]

/-- Settles O49: the block just built has R31's values by definition, one clean flag for each of the grid's tiles. -/
theorem powerOnGivesResetValues : Obligations.PowerOnGivesResetValues := by
  refine fun c => ⟨powerOn_of_not_wf, fun h => ⟨State.built c, powerOn_of_wf h, rfl, rfl, rfl, rfl, rfl, rfl, rfl, rfl,
    rfl, rfl, rfl, rfl, rfl, ?_, flagAt_replicate_false _⟩⟩
  obtain ⟨-, flags⟩ := (built_inv h).grid
  exact flags

end Sys2Proof.Proofs
end
